-- ==== Sys2Proof/Word.lean ====
section
/-! DEFINITION. The byte type and the four channel names of the playback block (00_scope.md R9, R12). -/

namespace Sys2Proof

/-- A byte is 8 bits; bit 0 is the least significant bit (R12). -/
abbrev Byte := BitVec 8

/-- The four channels, numbered 1 to 4: CH1 and CH2 pulse, CH3 wave, CH4 noise (R9). -/
inductive Chan where
  | ch1
  | ch2
  | ch3
  | ch4
  deriving DecidableEq, Repr

end Sys2Proof
end

