-- ==== Sys2Proof/Syntax.lean ====
section
/-! DEFINITION. The instructions: one constructor per row of the opcode table. A cell (30_encoding.md
R98) carries the channel whose column it stands in, because the channel is an operand of `Trigger`
(41_row_trigger.md R160) that no bit of the cell holds (30_encoding.md R108). -/

namespace Sys2Proof

/-- The sixteen cells, by effect code (`c` column, `n` note byte, `i` instrument field, `p` effect
parameter), and the four commands of the command port. -/
inductive Instr where
  | non (c : Chan) (n : Byte) (i : BitVec 4) (p : Byte)   -- 0x0 no effect, R185
  | slu (c : Chan) (n : Byte) (i : BitVec 4) (p : Byte)   -- 0x1 pitch slide up, R186
  | sld (c : Chan) (n : Byte) (i : BitVec 4) (p : Byte)   -- 0x2 pitch slide down, R187
  | arp (c : Chan) (n : Byte) (i : BitVec 4) (p : Byte)   -- 0x3 arpeggio, R189
  | vib (c : Chan) (n : Byte) (i : BitVec 4) (p : Byte)   -- 0x4 vibrato, R190
  | vfi (c : Chan) (n : Byte) (i : BitVec 4) (p : Byte)   -- 0x5 volume fade in, R191
  | vfo (c : Chan) (n : Byte) (i : BitVec 4) (p : Byte)   -- 0x6 volume fade out, R192
  | dcy (c : Chan) (n : Byte) (i : BitVec 4) (p : Byte)   -- 0x7 duty-cycle cycling, R193
  | rs8 (c : Chan) (n : Byte) (i : BitVec 4) (p : Byte)   -- 0x8 to 0xF reserved, R194
  | rs9 (c : Chan) (n : Byte) (i : BitVec 4) (p : Byte)
  | rsa (c : Chan) (n : Byte) (i : BitVec 4) (p : Byte)
  | rsb (c : Chan) (n : Byte) (i : BitVec 4) (p : Byte)
  | rsc (c : Chan) (n : Byte) (i : BitVec 4) (p : Byte)
  | rsd (c : Chan) (n : Byte) (i : BitVec 4) (p : Byte)
  | rse (c : Chan) (n : Byte) (i : BitVec 4) (p : Byte)
  | rsf (c : Chan) (n : Byte) (i : BitVec 4) (p : Byte)
  | nop                                                    -- cmd 0b00, R142
  | start (ptr : Nat)                                      -- cmd 0b01, R131
  | tick                                                   -- cmd 0b10, R133
  | resetwave                                              -- cmd 0b11, R140
  deriving DecidableEq, Repr

end Sys2Proof
end

