-- ==== Sys2Proof/Decode.lean ====
section
/-! DEFINITION. Decoding and encoding of cells (30_encoding.md R98, R103) and of commands
(30_encoding.md R107). Every 3-byte word is a cell and every 2-bit code a command (R105, R107); what
is rejected, by name, is a list of bytes too short for a cell and a byte that is no 2-bit code. -/

namespace Sys2Proof

/-- Why a decoder rejects its input. -/
inductive DecodeError where
  /-- Fewer than the 3 bytes of a cell (R98). -/
  | truncatedCell
  /-- A command byte with a bit above `cmd[1:0]` set (R107). -/
  | notACommandCode
  deriving DecidableEq, Repr

/-- `v[7:4]` of a byte. -/
def hiNibble (b : Byte) : BitVec 4 := b.extractLsb' 4 4

/-- `v[3:0]` of a byte. -/
def loNibble (b : Byte) : BitVec 4 := b.extractLsb' 0 4

/-- `{hi, lo}`: the byte of two nibbles. -/
def byteOfNibbles (hi lo : BitVec 4) : Byte := hi ++ lo

/-- The cell of column `c` with the fields `N`, `I`, `F`, `P` (R98), by the opcode map R103. -/
def cellOfFields (c : Chan) (n : Byte) (i f : BitVec 4) (p : Byte) : Instr :=
  match f.toNat with
  | 0 => .non c n i p
  | 1 => .slu c n i p
  | 2 => .sld c n i p
  | 3 => .arp c n i p
  | 4 => .vib c n i p
  | 5 => .vfi c n i p
  | 6 => .vfo c n i p
  | 7 => .dcy c n i p
  | 8 => .rs8 c n i p
  | 9 => .rs9 c n i p
  | 10 => .rsa c n i p
  | 11 => .rsb c n i p
  | 12 => .rsc c n i p
  | 13 => .rsd c n i p
  | 14 => .rse c n i p
  | _ => .rsf c n i p     -- 15: F has four bits

/-- The cell held by the bytes `B0`, `B1`, `B2` in column `c`: `N = B0`, `I = B1[7:4]`,
`F = B1[3:0]`, `P = B2` (R98). -/
def cellOfBytes (c : Chan) (b0 b1 b2 : Byte) : Instr :=
  cellOfFields c b0 (hiNibble b1) (loNibble b1) b2

/-- The decoder of one cell of column `c` from a list of bytes at ascending offsets (R98), with the
bytes that follow it. -/
def decodeCell (c : Chan) : List Byte → Except DecodeError (Instr × List Byte)
  | b0 :: b1 :: b2 :: rest => .ok (cellOfBytes c b0 b1 b2, rest)
  | _ => .error .truncatedCell

/-- The command of a 2-bit code, with the pointer operand that START takes (R107). -/
def decodeCommand (code : BitVec 2) (ptr : Nat) : Instr :=
  match code.toNat with
  | 0 => .nop
  | 1 => .start ptr
  | 2 => .tick
  | _ => .resetwave       -- 3: the code has two bits

/-- The command whose code stands alone in a byte. -/
def decodeCommandByte (b : Byte) (ptr : Nat) : Except DecodeError Instr :=
  if b.toNat < 4 then .ok (decodeCommand (b.setWidth 2) ptr) else .error .notACommandCode

/-- The words of an instruction: three bytes of a cell, or a code and its pointer operand. -/
inductive Words where
  | cell (b0 b1 b2 : Byte)
  | command (code : BitVec 2) (ptr : Nat)
  deriving DecidableEq, Repr

/-- The words of a cell with effect code `f` (R98). -/
def cellWords (n : Byte) (i f : BitVec 4) (p : Byte) : Words := .cell n (byteOfNibbles i f) p

/-- The encoder, written from the tables of R103 and R107. -/
def encode : Instr → Words
  | .non _ n i p => cellWords n i 0x0#4 p
  | .slu _ n i p => cellWords n i 0x1#4 p
  | .sld _ n i p => cellWords n i 0x2#4 p
  | .arp _ n i p => cellWords n i 0x3#4 p
  | .vib _ n i p => cellWords n i 0x4#4 p
  | .vfi _ n i p => cellWords n i 0x5#4 p
  | .vfo _ n i p => cellWords n i 0x6#4 p
  | .dcy _ n i p => cellWords n i 0x7#4 p
  | .rs8 _ n i p => cellWords n i 0x8#4 p
  | .rs9 _ n i p => cellWords n i 0x9#4 p
  | .rsa _ n i p => cellWords n i 0xA#4 p
  | .rsb _ n i p => cellWords n i 0xB#4 p
  | .rsc _ n i p => cellWords n i 0xC#4 p
  | .rsd _ n i p => cellWords n i 0xD#4 p
  | .rse _ n i p => cellWords n i 0xE#4 p
  | .rsf _ n i p => cellWords n i 0xF#4 p
  | .nop => .command 0b00#2 0
  | .start ptr => .command 0b01#2 ptr
  | .tick => .command 0b10#2 0
  | .resetwave => .command 0b11#2 0

/-- The column a cell stands in; none for a command. -/
def Instr.column : Instr → Option Chan
  | .non c _ _ _ | .slu c _ _ _ | .sld c _ _ _ | .arp c _ _ _ => some c
  | .vib c _ _ _ | .vfi c _ _ _ | .vfo c _ _ _ | .dcy c _ _ _ => some c
  | .rs8 c _ _ _ | .rs9 c _ _ _ | .rsa c _ _ _ | .rsb c _ _ _ => some c
  | .rsc c _ _ _ | .rsd c _ _ _ | .rse c _ _ _ | .rsf c _ _ _ => some c
  | .nop | .start _ | .tick | .resetwave => none

/-- The decoder's answer on `w`, a word numbered as the opcode table numbers it: a cell is the 24-bit
number `W = {B0, B1, B2}` (R98), a command its 2-bit code, alone in a byte, with the pointer 0. The
table gives a cell no column; CH1 stands for it. -/
def decodeTableWord (nbits w : Nat) : Option Instr :=
  if nbits = 24 then
    if w < 2 ^ 24 then
      (decodeCell .ch1
        [BitVec.ofNat 8 (w / 2 ^ 16), BitVec.ofNat 8 (w / 2 ^ 8), BitVec.ofNat 8 w]).toOption.map
        Prod.fst
    else none
  else if nbits ≤ 8 then
    if w < 2 ^ 8 then (decodeCommandByte (BitVec.ofNat 8 w) 0).toOption else none
  else none

end Sys2Proof
end

