-- ==== Sys2Proof/Config.lean ====
section
/-! DEFINITION. The parameters of 00_scope.md R9 to R11 and the two parameters the spec leaves OPEN
(92_eei_decisions.md, open parameters). -/

namespace Sys2Proof.Config

/-- `FREQ_MAX`: the largest frequency value of CH1, CH2, CH3 (R10). -/
def freqMax : Nat := 2047

/-- `NPER_MAX`: the largest noise period of CH4 (R10). -/
def nperMax : Nat := 255

/-- `VOL_MAX`: the largest volume (R10). -/
def volMax : Nat := 15

/-- `WAVE_SAMPLES`: samples of one waveform (R9); two samples a byte. -/
def waveSamples : Nat := 32

/-- The bytes of one waveform: 32 samples of `SAMPLE_W = 4` bits (R10). -/
def waveBytes : Nat := 16

/-- `ROWS`: rows per pattern (R11). -/
def rows : Nat := 64

/-- `NOTE_MAX`: the largest legal note index (R11). -/
def noteMax : Nat := 71

/-- `FORMAT_VERSION`: the version byte of a playable blob (R11). -/
def formatVersion : Byte := 0x01#8

/-- `NO_WAVE`: the "needs reload" sentinel of `lwid` (R11, R30). -/
def noWave : Byte := 0xFF#8

/-- The largest pattern count of a valid header (R92). -/
def npatMax : Nat := 64

/-- The largest instrument count of a valid header (R92). -/
def ninstrMax : Nat := 15

/-- The largest waveform count of a valid header (R92). -/
def nwaveMax : Nat := 16

/-- `PTR_W`, OPEN (R11, R23): the width of the song pointer. A parameter with no body, so every
statement about it holds for every width. -/
opaque ptrW : Nat

/-- `SinkMap`, OPEN (R11, R66): the platform address of a sink register. A parameter with no body. -/
opaque sinkMap : Nat → Nat

end Sys2Proof.Config
end

