-- ==== Sys2Proof/Machine/State.lean ====
section
/-! DEFINITION. The state of the playback block as plain data (10_state.md R20 to R48), with what the
model adds to it: the caller's memory that holds the song blob, the inputs of the host that have not
been taken yet, and the record of what passed the block's interfaces. Also why a step can stop, and
the state after power-on reset (R45). -/

namespace Sys2Proof.Machine

/-- One channel register file (R31): sixteen registers. -/
@[ext]
structure Channel where
  /-- `note`, 7 bits: note index of the last note trigger (R32). -/
  note : BitVec 7
  /-- `ins`, 4 bits: active instrument field, 0 = none (R33). -/
  ins : BitVec 4
  /-- `fx`, 4 bits: active effect code as fetched (R34). -/
  fx : BitVec 4
  /-- `fxp`, 8 bits: active effect parameter (R34). -/
  fxp : Byte
  /-- `pitch`, 11 bits: the pitch accumulator (R35). -/
  pitch : BitVec 11
  /-- `vol`, 4 bits: the current volume (R36). -/
  vol : BitVec 4
  /-- `edir`, 1 bit: envelope direction, 1 up (R36). -/
  edir : Bool
  /-- `eper`, 8 bits: ticks per envelope step, 0 = stopped (R36). -/
  eper : Byte
  /-- `ectr`, 8 bits: envelope phase counter (R36). -/
  ectr : Byte
  /-- `astep`, 2 bits: arpeggio step 0, 1, 2. The value 3 "never occurs" (R37), so the type holds
  the three values only. -/
  astep : Fin 3
  /-- `vphase`, 6 bits: vibrato phase (R37). -/
  vphase : BitVec 6
  /-- `dctr`, 8 bits: duty-cycling phase counter (R37). -/
  dctr : Byte
  /-- `shape`, 4 bits: duty, waveform index or noise mode (R38). -/
  shape : BitVec 4
  /-- `fout`, 11 bits: frequency output latch of the tick (R39). -/
  fout : BitVec 11
  /-- `onset`, 1 bit: fresh note onset (R40). -/
  onset : Bool
  /-- `hold`, 1 bit: mute hold latch (R41). -/
  hold : Bool
  deriving DecidableEq, Repr

/-- A channel register file with every register 0 (R45, R46). -/
def Channel.zero : Channel :=
  { note := 0#7, ins := 0#4, fx := 0#4, fxp := 0#8, pitch := 0#11, vol := 0#4, edir := false,
    eper := 0#8, ectr := 0#8, astep := 0, vphase := 0#6, dctr := 0#8, shape := 0#4, fout := 0#11,
    onset := false, hold := false }

/-- One access of the host to the register `MUTE` (20_memory.md R69). -/
inductive MuteAccess where
  /-- A byte-wide write. -/
  | write (b : Byte)
  /-- A read. -/
  | read
  deriving DecidableEq, Repr

/-- The host's accesses of `MUTE` that fall WHILE a command executes (R69): for each channel, those
after the previous channel's mute sample (for CH1: after the command began) and before this channel's
sample, in order. They give a TICK its four mute samples. -/
structure MidAccesses where
  before1 : List MuteAccess
  before2 : List MuteAccess
  before3 : List MuteAccess
  before4 : List MuteAccess
  deriving DecidableEq, Repr

/-- No host access falls inside the command. -/
def MidAccesses.none : MidAccesses := ⟨[], [], [], []⟩

/-- What the host does to the block (R19, R60): a command on the command port, executed to completion
(R130), an access of `MUTE` between commands (R69, R141), a store to the caller's own memory (R64, R262),
and the misuse M1 of R232. -/
inductive HostEvent where
  /-- The 2-bit code, the pointer operand (used by START only) and the `MUTE` accesses that fall while
  the command executes. -/
  | command (code : BitVec 2) (ptr : Nat) (mid : MidAccesses)
  /-- An access of `MUTE` while no command executes. -/
  | access (a : MuteAccess)
  /-- The caller stores a byte in its own memory: this is how a song comes to be there (R64, R262). -/
  | store (addr : Nat) (b : Byte)
  /-- A second command issued while a first one executes: caller misuse M1 (R130, R232). -/
  | overlapped (code : BitVec 2) (ptr : Nat) (second : BitVec 2) (secondPtr : Nat)
  deriving DecidableEq, Repr

/-- What passes an interface of the block, in the order it happens. The observable sink write trace
of R65 is the `sinkWrite` events in order; the rest is the block's reads and the answers to the
host's reads. -/
inductive BusEvent where
  /-- `BlobRead(off)` (R61). -/
  | blobRead (off : Nat)
  /-- `SinkWrite(n, v)`, the value masked to the register's width (R65). -/
  | sinkWrite (n : Nat) (v : BitVec 11)
  /-- `MuteSample(c)` and the bit it returned (R69). -/
  | muteSample (c : Chan) (m : Bool)
  /-- A host read of `MUTE` and the byte it returned (R69). -/
  | muteRead (b : Byte)
  deriving DecidableEq, Repr

/-- The whole state. -/
@[ext]
structure State where
  /-- `run`, 1 bit (R21). -/
  run : Bool
  /-- `first`, 1 bit (R22). -/
  first : Bool
  /-- `base`, `PTR_W` bits: the song pointer (R23). -/
  base : Nat
  /-- `speed`, 8 bits: ticks per row (R24). -/
  speed : Byte
  /-- `ordlen`, 8 bits: entries of the order list (R24). -/
  ordlen : Byte
  /-- `npat`, 8 bits: patterns (R24). -/
  npat : Byte
  /-- `ninstr`, 8 bits: instruments (R24). -/
  ninstr : Byte
  /-- `nwave`, 8 bits: waveforms (R24). -/
  nwave : Byte
  /-- `ord`, 8 bits: order position (R25). -/
  ord : Byte
  /-- `row`, 6 bits: row within the pattern (R26). -/
  row : BitVec 6
  /-- `tctr`, 8 bits: ticks left in the row (R27). -/
  tctr : Byte
  /-- `MUTE`, 4 bits, bit `c - 1` for channel `c` (R29). -/
  mute : BitVec 4
  /-- `lwid`, 8 bits: the loaded waveform, 0xFF = none (R30). -/
  lwid : Byte
  /-- `ch[1]`, pulse (R31). -/
  ch1 : Channel
  /-- `ch[2]`, pulse (R31). -/
  ch2 : Channel
  /-- `ch[3]`, wave (R31). -/
  ch3 : Channel
  /-- `ch[4]`, noise (R31). -/
  ch4 : Channel
  /-- The model's own: the caller's address space, which holds the song blob (R61). -/
  mem : List Host.Cell
  /-- The model's own: what the host does next, oldest first (R19). -/
  port : List HostEvent
  /-- The model's own: the host's `MUTE` accesses still to come while the current command executes
  (R69). -/
  mid : MidAccesses
  /-- The model's own: the record of the interfaces, oldest first (R65). -/
  bus : List BusEvent
  deriving DecidableEq, Repr

/-- The block raises no exception, takes no trap and reports no error (60_exceptions.md R230), so
there is no fault: the type has no constructor. -/
inductive Fault where
  deriving DecidableEq, Repr

/-- Why a step has no meaning. -/
inductive Refusal where
  /-- Raised by no arm of `exec`: every instruction has its meaning. Safe. -/
  | notModelled (mnemonic : String)
  /-- Raised by `BlobRead` when the caller's memory lists no byte at the address: the blob is not
  readable there, caller misuse M4 (R64, R232), which 93_implementation_defined.md U5 tells a model to
  refuse. Safe. -/
  | blobUnreadable (addr : Nat)
  /-- Raised by the step when the caller's store would change a byte of the blob of the song that is
  playing: caller misuse M4 (R64, R78, R232), which 93_implementation_defined.md U5 tells a model to
  refuse. Safe. -/
  | blobChanged (addr : Nat)
  /-- Raised by the step when the host issued a command while another was executing: caller misuse
  M1 (R130, R232), which 93_implementation_defined.md U1 tells a model to refuse. Safe. -/
  | commandOverlap
  deriving DecidableEq, Repr

/-- Power-on reset (R45). `base` is "unspecified (never read while `run = 0`)" there; the model names
the value 0 (log entry 1). The model's own fields are empty: no byte listed, no host input, nothing
recorded. -/
def State.reset : State :=
  { run := false, first := false, base := 0, speed := 0#8, ordlen := 0#8, npat := 0#8,
    ninstr := 0#8, nwave := 0#8, ord := 0#8, row := 0#6, tctr := 0#8, mute := 0#4,
    lwid := Config.noWave, ch1 := Channel.zero, ch2 := Channel.zero, ch3 := Channel.zero,
    ch4 := Channel.zero, mem := [], port := [], mid := MidAccesses.none, bus := [] }

end Sys2Proof.Machine
end

