-- ==== Sys2Proof/Machine/Operands.lean ====
section
/-! DEFINITION. Operand forms: channel numbers and ranges, the note table, the cell's field tests, the
nibbles of an effect parameter, the instrument fields and the region bases of the blob. -/

namespace Sys2Proof.Machine

/-! ### Channels -/

/-- `c - 1`: the bit of `MUTE` (R29) and the block of sink registers (R66) of channel `c`. -/
def chanIndex : Chan → Nat
  | .ch1 => 0
  | .ch2 => 1
  | .ch3 => 2
  | .ch4 => 3

/-- A pulse channel: CH1 or CH2 (R9). -/
def isPulse : Chan → Bool
  | .ch1 | .ch2 => true
  | .ch3 | .ch4 => false

/-- `PMAX(c)`: the largest frequency or noise period of channel `c` (R16). -/
def pMax : Chan → Nat
  | .ch1 | .ch2 | .ch3 => Config.freqMax
  | .ch4 => Config.nperMax

/-! ### The note table (R104) -/

/-- Octave 3, notes 0 to 11. -/
def noteRomOct3 : List Nat := [44, 157, 263, 363, 457, 547, 631, 711, 786, 856, 923, 986]
/-- Octave 4, notes 12 to 23. -/
def noteRomOct4 : List Nat :=
  [1046, 1102, 1155, 1205, 1253, 1297, 1339, 1379, 1417, 1452, 1486, 1517]
/-- Octave 5, notes 24 to 35. -/
def noteRomOct5 : List Nat :=
  [1547, 1575, 1602, 1627, 1650, 1673, 1694, 1714, 1732, 1750, 1767, 1783]
/-- Octave 6, notes 36 to 47. -/
def noteRomOct6 : List Nat :=
  [1798, 1812, 1825, 1837, 1849, 1860, 1871, 1881, 1890, 1899, 1907, 1915]
/-- Octave 7, notes 48 to 59. -/
def noteRomOct7 : List Nat :=
  [1923, 1930, 1936, 1943, 1949, 1954, 1959, 1964, 1969, 1974, 1978, 1982]
/-- Octave 8, notes 60 to 71. -/
def noteRomOct8 : List Nat :=
  [1985, 1989, 1992, 1995, 1998, 2001, 2004, 2006, 2009, 2011, 2013, 2015]

/-- `NOTE_ROM` (R104), index `12 * (octave - 3) + semitone`. -/
def noteRom : List Nat :=
  noteRomOct3 ++ noteRomOct4 ++ noteRomOct5 ++ noteRomOct6 ++ noteRomOct7 ++ noteRomOct8

/-- `NoteMap(c, n)` (R16, R104), used for `n <= 71` only: the table on CH1 to CH3, the index itself
on CH4. -/
def noteMap (c : Chan) (n : Nat) : BitVec 11 :=
  match c with
  | .ch1 | .ch2 | .ch3 => BitVec.ofNat 11 (noteRom.getD n 0)
  | .ch4 => BitVec.ofNat 11 n

/-! ### Cell fields -/

/-- `hasNote = (N <= 71)` (R99, R160). -/
def hasNote (n : Byte) : Bool := n.toNat ≤ Config.noteMax

/-- `hasIns = (I != 0) and (I <= ninstr)` (R100, R160). -/
def hasIns (i : BitVec 4) (ninstr : Byte) : Bool := i.toNat ≠ 0 && i.toNat ≤ ninstr.toNat

/-- `empty = (not hasNote) and (not hasIns) and (F = 0)` (R102, R160). -/
def emptyCell (n : Byte) (i f : BitVec 4) (ninstr : Byte) : Bool :=
  !hasNote n && !hasIns i ninstr && f == 0#4

/-- `x = P[7:4]` (R101). -/
def paramX (p : Byte) : Nat := (hiNibble p).toNat

/-- `y = P[3:0]` (R101). -/
def paramY (p : Byte) : Nat := (loNibble p).toNat

/-! ### Instrument fields (R94) -/

/-- `ivol`, byte 0 bits 7:4. -/
def instrVol (b0 : Byte) : BitVec 4 := b0.extractLsb' 4 4
/-- `idir`, byte 0 bit 3. -/
def instrDir (b0 : Byte) : Bool := b0.getLsbD 3
/-- `zext_8(iper)`, byte 0 bits 2:0. -/
def instrPer (b0 : Byte) : Byte := (b0.extractLsb' 0 3).setWidth 8
/-- `zext_4(iduty)`, byte 1 bits 7:6. -/
def instrDuty (b1 : Byte) : BitVec 4 := (b1.extractLsb' 6 2).setWidth 4
/-- `zext_4(inmode)`, byte 1 bit 5. -/
def instrNoiseMode (b1 : Byte) : BitVec 4 := (b1.extractLsb' 5 1).setWidth 4
/-- `iwave`, byte 1 bits 3:0. -/
def instrWave (b1 : Byte) : BitVec 4 := b1.extractLsb' 0 4

/-- The `shape` value channel `c` takes from an instrument (R166). -/
def instrShape (c : Chan) (b1 : Byte) : BitVec 4 :=
  match c with
  | .ch1 | .ch2 => instrDuty b1
  | .ch3 => instrWave b1
  | .ch4 => instrNoiseMode b1

/-! ### Waveform samples (R95) -/

/-- Where sample `k` of a waveform stands in its byte `k / 2`: an even sample in bits 7:4, an odd one in bits
3:0 (R95). -/
def sampleOf (k : Nat) (b : Byte) : BitVec 4 := if k % 2 = 0 then hiNibble b else loNibble b

/-! ### Blob offsets (R62, R96) -/

/-- `ORDBASE`. -/
def ordBase : Nat := 8

/-- `INSBASE`. -/
def insBase (s : State) : Nat := 8 + s.ordlen.toNat

/-- `WAVBASE`. -/
def wavBase (s : State) : Nat := insBase s + 2 * s.ninstr.toNat

/-- `PATBASE`. -/
def patBase (s : State) : Nat := wavBase s + 16 * s.nwave.toNat

/-- `BLOBLEN`. -/
def blobLen (s : State) : Nat := patBase s + 768 * s.npat.toNat

/-- `CellAddr(p, r, c)` (R96). -/
def cellAddr (s : State) (p r : Nat) (c : Chan) : Nat :=
  patBase s + 768 * p + 12 * r + 3 * chanIndex c

end Sys2Proof.Machine
end

