-- ==== Sys2Proof/Machine/Ops.lean ====
section
/-! DEFINITION. The operations every meaning is built from: the three interfaces of the block
(20_memory.md: blob reads, sink writes, mute samples and host accesses of `MUTE`), the caller's memory
in its canonical form, the channel register files, and the placing of a program for `withFetchWord`.
There is no operation that takes an exception and none that returns from one: the block has no
exception, trap or interrupt (60_exceptions.md R230, R236 to R238). -/

namespace Sys2Proof.Machine

/-- Sequencing: a refusal ends the step. -/
def andThen {α β : Type} (o : Host.Outcome α Fault Refusal)
    (f : α → Host.Outcome β Fault Refusal) : Host.Outcome β Fault Refusal :=
  match o with
  | .next a => f a
  | .fault r => .fault r
  | .refused r => .refused r

/-! ### Channel register files (R31) -/

/-- `ch[c]`. -/
def State.ch (s : State) : Chan → Channel
  | .ch1 => s.ch1
  | .ch2 => s.ch2
  | .ch3 => s.ch3
  | .ch4 => s.ch4

/-- `ch[c] <- x`. -/
def State.setCh (s : State) (c : Chan) (x : Channel) : State :=
  match c with
  | .ch1 => { s with ch1 := x }
  | .ch2 => { s with ch2 := x }
  | .ch3 => { s with ch3 := x }
  | .ch4 => { s with ch4 := x }

/-- `f` applied to `ch[c]`. -/
def State.modCh (s : State) (c : Chan) (f : Channel → Channel) : State := s.setCh c (f (s.ch c))

/-! ### The caller's memory -/

/-- The byte at an address, or none where no byte is listed: the caller keeps nothing readable there. -/
def Memory.read (m : List Host.Cell) (a : Nat) : Option Byte :=
  match m with
  | [] => none
  | (k, b) :: rest => if k = a then some b else Memory.read rest a

/-- The memory with byte `b` at address `a`, in canonical form. The block never writes memory (R61);
this is how a program is placed. -/
def Memory.write (m : List Host.Cell) (a : Nat) (b : Byte) : List Host.Cell :=
  match m with
  | [] => [(a, b)]
  | (k, v) :: rest =>
    if a < k then (a, b) :: (k, v) :: rest
    else if a = k then (a, b) :: rest
    else (k, v) :: Memory.write rest a b

/-- The bytes `bs` at ascending addresses from `a` on. -/
def Memory.writeAll (m : List Host.Cell) (a : Nat) : List Byte → List Host.Cell
  | [] => m
  | b :: bs => Memory.writeAll (Memory.write m a b) (a + 1) bs

/-- The canonical form: addresses strictly rising. No entry is redundant, because an unlisted address
reads as nothing. -/
abbrev Memory.wf (m : List Host.Cell) : Prop := m.Pairwise (fun x y => x.1 < y.1)

/-! ### The interfaces -/

/-- Record an event of an interface. -/
def emit (e : BusEvent) (s : State) : State := { s with bus := s.bus ++ [e] }

/-- `BlobRead(off)` (R15, R61): the byte at caller address `base + off`. -/
def blobRead (off : Nat) (s : State) : Host.Outcome (Byte × State) Fault Refusal :=
  match Memory.read s.mem (s.base + off) with
  | some b => .next (b, emit (.blobRead off) s)
  | none => .refused (.blobUnreadable (s.base + off))

/-- Sink register `k` of channel `c` (R66): 0 `SHAPE`, 1 `VOL`, 2 `FREQ` or `NPER`, 3 `TRIG`. -/
def sinkReg (c : Chan) (k : Nat) : Nat := 8 * chanIndex c + k

/-- `WAVE[i]` (R66). -/
def waveReg (i : Nat) : Nat := 32 + i

/-- The width of a sink register (R66); 0 for an unassigned number. -/
def sinkWidth (n : Nat) : Nat :=
  match n with
  | 0 | 8 => 2
  | 16 => 4
  | 24 => 1
  | 1 | 9 | 17 | 25 => 4
  | 2 | 10 | 18 => 11
  | 26 => 8
  | 3 | 11 | 19 | 27 => 1
  | _ => if 32 ≤ n ∧ n ≤ 47 then 8 else 0

/-- `v` masked to the width of sink register `n` (R65). -/
def sinkMask (n : Nat) (v : Nat) : BitVec 11 := BitVec.ofNat 11 (v % 2 ^ sinkWidth n)

/-- `SinkWrite(n, v)` (R15, R65). -/
def sinkWrite (n v : Nat) (s : State) : State := emit (.sinkWrite n (sinkMask n v)) s

/-- `MUTE <- b[3:0]` (R29, R69). -/
def storeMute (b : Byte) (s : State) : State := { s with mute := b.extractLsb' 0 4 }

/-- A host read of `MUTE`: the four bits zero-extended (R69). -/
def readMute (s : State) : State := emit (.muteRead (s.mute.setWidth 8)) s

/-- One host access of `MUTE` (R69). -/
def accessMute (a : MuteAccess) (s : State) : State :=
  match a with
  | .write b => storeMute b s
  | .read => readMute s

/-- Host accesses of `MUTE`, in order. -/
def accessAll : List MuteAccess → State → State
  | [], s => s
  | a :: rest, s => accessAll rest (accessMute a s)

/-- The host accesses that fall before channel `c`'s mute sample happen (R69). -/
def landBefore (c : Chan) (s : State) : State :=
  match c with
  | .ch1 => accessAll s.mid.before1 { s with mid := { s.mid with before1 := [] } }
  | .ch2 => accessAll s.mid.before2 { s with mid := { s.mid with before2 := [] } }
  | .ch3 => accessAll s.mid.before3 { s with mid := { s.mid with before3 := [] } }
  | .ch4 => accessAll s.mid.before4 { s with mid := { s.mid with before4 := [] } }

/-- The host accesses that a command took no mute sample after happen all the same, in order. -/
def landAll (s : State) : State :=
  landBefore .ch4 (landBefore .ch3 (landBefore .ch2 (landBefore .ch1 s)))

/-- The bit of channel `c` in `MUTE` (R29). -/
def muteBit (c : Chan) (s : State) : Bool := s.mute.getLsbD (chanIndex c)

/-- `MuteSample(c)` (R15, R69). -/
def muteSample (c : Chan) (s : State) : Bool × State :=
  (muteBit c (landBefore c s), emit (.muteSample c (muteBit c (landBefore c s))) (landBefore c s))

/-! ### Views of the record -/

/-- The sink write trace (R65): the pairs in the order issued. -/
def sinkTraceOf : List BusEvent → List (Nat × BitVec 11)
  | [] => []
  | .sinkWrite n v :: rest => (n, v) :: sinkTraceOf rest
  | _ :: rest => sinkTraceOf rest

/-- The offsets of the blob reads, in order. -/
def readTraceOf : List BusEvent → List Nat
  | [] => []
  | .blobRead off :: rest => off :: readTraceOf rest
  | _ :: rest => readTraceOf rest

/-- The mute samples, in order. -/
def sampleTraceOf : List BusEvent → List (Chan × Bool)
  | [] => []
  | .muteSample c m :: rest => (c, m) :: sampleTraceOf rest
  | _ :: rest => sampleTraceOf rest

/-- The mute samples and the answers to host reads of `MUTE`, in order (R69). -/
def muteTraceOf : List BusEvent → List BusEvent
  | [] => []
  | .muteSample c m :: rest => .muteSample c m :: muteTraceOf rest
  | .muteRead b :: rest => .muteRead b :: muteTraceOf rest
  | _ :: rest => muteTraceOf rest

/-- The value a sink register holds after a trace: the last one written, none if the block never wrote
it (R67; what the sink held before is any value, 93_implementation_defined.md U13). -/
def lastWritten (n : Nat) : List (Nat × BitVec 11) → Option (BitVec 11)
  | [] => none
  | (k, v) :: rest =>
    match lastWritten n rest with
    | some w => some w
    | none => if k = n then some v else none

/-- Sample `k` that the block last put into the waveform memory, none if it put none there: `WAVE[i]` holds
samples `2i` (bits 7:4) and `2i + 1` (bits 3:0) (R66, R95). -/
def residentSample (k : Nat) (w : List (Nat × BitVec 11)) : Option (BitVec 4) :=
  (lastWritten (waveReg (k / 2)) w).map (fun v => sampleOf k (v.setWidth 8))

/-- The platform stores a trace stands for: `MemWrite(SinkMap(n), width(n), v)` (R15), with `SinkMap`
open. -/
def platformStores : List (Nat × BitVec 11) → List (Nat × Nat × BitVec 11)
  | [] => []
  | (n, v) :: rest => (Config.sinkMap n, sinkWidth n, v) :: platformStores rest

/-! ### Placing a program (log entry 3) -/

/-- The header bytes a START of `ptr` reads, written where the caller's memory lists none: version 1
and every count at its minimum (R64, R91). -/
def placeHeader (ptr : Nat) (s : State) : State :=
  let put (m : List Host.Cell) (off : Nat) (b : Byte) : List Host.Cell :=
    match Memory.read m (ptr + off) with
    | some _ => m
    | none => Memory.write m (ptr + off) b
  { s with mem := put (put (put (put (put (put s.mem 0 1#8) 1 1#8) 2 1#8) 3 1#8) 4 0#8) 5 0#8 }

/-- A command first in line at the command port. -/
def placeCommand (code : BitVec 2) (ptr : Nat) (s : State) : State :=
  { s with port := .command code ptr MidAccesses.none :: s.port }

/-- A song of one pattern is playing and its row 0 is the next row boundary: CH1's cell of that row is
`b0 b1 b2`, the other three are the canonical empty cell `FF 00 00` (R102), and a TICK is first in
line at the command port. -/
def placeCell (b0 b1 b2 : Byte) (s : State) : State :=
  let t := { s with
    run := true, first := true, ord := 0#8, row := 0#6, tctr := 1#8, speed := 1#8,
    ordlen := 1#8, npat := 1#8 }
  placeCommand 0b10#2 0 { t with
    mem := Memory.writeAll (Memory.write t.mem (t.base + ordBase) 0#8)
      (t.base + cellAddr t 0 0 .ch1)
      [b0, b1, b2, 0xFF#8, 0#8, 0#8, 0xFF#8, 0#8, 0#8, 0xFF#8, 0#8, 0#8] }

/-- The instruction whose bits are `w`, placed where the next step takes it; a word no decoder accepts
places nothing. -/
def placeWord (s : State) (nbits w : Nat) : State :=
  match decodeTableWord nbits w with
  | none => s
  | some i =>
    match encode i with
    | .cell b0 b1 b2 => placeCell b0 b1 b2 s
    | .command code ptr =>
      placeCommand code ptr (if code = 0b01#2 then placeHeader ptr s else s)

end Sys2Proof.Machine
end

