-- ==== Sys2Proof/Machine/Effects.lean ====
section
/-! DEFINITION. The Effect Processor (42_effects.md): the envelope generator, one arm for each of the
sixteen effect codes, and `EffectStep`. Sums and differences are taken on integers and clamped before
they are stored (R13, R195). -/

namespace Sys2Proof.Machine

/-- The step the envelope generator takes when its period is over: one up or down, or, at the bound,
a stop (R181, R182). -/
def envelopeMove (x : Channel) : Channel :=
  if x.edir then
    if x.vol.toNat = Config.volMax then { x with eper := 0#8 } else { x with vol := x.vol + 1#4 }
  else
    if x.vol.toNat = 0 then { x with eper := 0#8 } else { x with vol := x.vol - 1#4 }

/-- `EnvelopeStep(c)` (R181). -/
def envelopeStep (x : Channel) : Channel :=
  if x.eper = 0#8 then x
  else if x.ectr + 1#8 = x.eper then envelopeMove { x with ectr := 0#8 }
  else { x with ectr := x.ectr + 1#8 }

/-- `fout <- pitch`, the end of every arm but those of `ARP` and `VIB` (R184). -/
def outPitch (x : Channel) : Channel := { x with fout := x.pitch }

/-- `min(v + d, PMAX(c))` on integers (R186, R190). -/
def slideUp (c : Chan) (v : BitVec 11) (d : Nat) : BitVec 11 :=
  BitVec.ofNat 11 (min (v.toNat + d) (pMax c))

/-- `max(v - d, 0)` on integers (R187, R190); subtraction on Nat stops at 0. -/
def slideDown (v : BitVec 11) (d : Nat) : BitVec 11 := BitVec.ofNat 11 (v.toNat - d)

/-- `NON` (R185). -/
def effNon (_ : Chan) (x : Channel) : Channel := outPitch x

/-- `SLU` (R186): accumulate, then output. -/
def effSlu (c : Chan) (x : Channel) : Channel :=
  outPitch { x with pitch := slideUp c x.pitch x.fxp.toNat }

/-- `SLD` (R187): accumulate, then output. -/
def effSld (_ : Chan) (x : Channel) : Channel :=
  outPitch { x with pitch := slideDown x.pitch x.fxp.toNat }

/-- The offset of arpeggio step `k` (R189). -/
def arpOffset (k : Fin 3) (p : Byte) : Nat :=
  match k with
  | 0 => 0
  | 1 => paramX p
  | 2 => paramY p

/-- `ARP` (R189): output, then advance; the note index is clamped at 71. -/
def effArp (c : Chan) (x : Channel) : Channel :=
  { x with
    fout := noteMap c (min (x.note.toNat + arpOffset x.astep x.fxp) Config.noteMax),
    astep := if x.astep = 2 then 0 else x.astep + 1 }

/-- The output of `VIB` in the quadrant `vphase[5:4]` (R190). -/
def vibOut (c : Chan) (x : Channel) : BitVec 11 :=
  match (x.vphase.extractLsb' 4 2).toNat with
  | 1 => slideUp c x.pitch (paramY x.fxp)
  | 3 => slideDown x.pitch (paramY x.fxp)
  | _ => x.pitch

/-- `VIB` (R190): output, then advance the phase modulo 64. -/
def effVib (c : Chan) (x : Channel) : Channel :=
  { x with fout := vibOut c x, vphase := x.vphase + BitVec.ofNat 6 (paramX x.fxp) }

/-- `VFI` (R191): the fade runs in the envelope generator. -/
def effVfi (_ : Chan) (x : Channel) : Channel := outPitch x

/-- `VFO` (R192): the fade runs in the envelope generator. -/
def effVfo (_ : Chan) (x : Channel) : Channel := outPitch x

/-- `(shape + 1) mod 4` (R193). -/
def nextDuty (d : BitVec 4) : BitVec 4 := BitVec.ofNat 4 ((d.toNat + 1) % 4)

/-- `DCY` (R193): cycles the duty of a pulse channel; a no-op on CH3 and CH4 and with `P = 0`. -/
def effDcy (c : Chan) (x : Channel) : Channel :=
  if isPulse c && x.fxp != 0#8 then
    if x.dctr + 1#8 = x.fxp then
      outPitch { x with dctr := 0#8, shape := nextDuty x.shape }
    else outPitch { x with dctr := x.dctr + 1#8 }
  else outPitch x

/-- The reserved codes (R194): "no effect". -/
def effRs8 (_ : Chan) (x : Channel) : Channel := outPitch x
/-- R194. -/
def effRs9 (_ : Chan) (x : Channel) : Channel := outPitch x
/-- R194. -/
def effRsa (_ : Chan) (x : Channel) : Channel := outPitch x
/-- R194. -/
def effRsb (_ : Chan) (x : Channel) : Channel := outPitch x
/-- R194. -/
def effRsc (_ : Chan) (x : Channel) : Channel := outPitch x
/-- R194. -/
def effRsd (_ : Chan) (x : Channel) : Channel := outPitch x
/-- R194. -/
def effRse (_ : Chan) (x : Channel) : Channel := outPitch x
/-- R194. -/
def effRsf (_ : Chan) (x : Channel) : Channel := outPitch x

/-- The arm of an effect code (R180). -/
def effectArm (f : BitVec 4) : Chan → Channel → Channel :=
  match f.toNat with
  | 0 => effNon
  | 1 => effSlu
  | 2 => effSld
  | 3 => effArp
  | 4 => effVib
  | 5 => effVfi
  | 6 => effVfo
  | 7 => effDcy
  | 8 => effRs8
  | 9 => effRs9
  | 10 => effRsa
  | 11 => effRsb
  | 12 => effRsc
  | 13 => effRsd
  | 14 => effRse
  | _ => effRsf     -- 15: the code has four bits

/-- `EffectStep(c)` (R180): the envelope generator, then the arm of the running effect. -/
def effectStep (c : Chan) (x : Channel) : Channel :=
  effectArm x.fx c (envelopeStep x)

/-- Step 3 of TICK (R133): `EffectStep` on every channel. -/
def effectPass (s : State) : State :=
  (((s.modCh .ch1 (effectStep .ch1)).modCh .ch2 (effectStep .ch2)).modCh .ch3
    (effectStep .ch3)).modCh .ch4 (effectStep .ch4)

end Sys2Proof.Machine
end

