-- ==== Sys2Proof/Machine/Trigger.lean ====
section
/-! DEFINITION. The row trigger (41_row_trigger.md): what a cell does to its channel in step 2 of a
TICK. -/

namespace Sys2Proof.Machine

/-- `InsLoad(c, I)` (R163), on the channel's registers. -/
def insLoad (i : BitVec 4) (x : Channel) : Channel := { x with ins := i }

/-- The register writes of `LoadDefaults(c)` from the two instrument bytes (R166). -/
def defaultsFrom (c : Chan) (b0 b1 : Byte) (x : Channel) : Channel :=
  { x with
    vol := instrVol b0, edir := instrDir b0, eper := instrPer b0, ectr := 0#8,
    shape := instrShape c b1 }

/-- `LoadDefaults(c)` (R166): the two bytes of table entry `j = ins - 1`, then the writes. -/
def loadDefaults (c : Chan) (s : State) : Host.Outcome State Fault Refusal :=
  andThen (blobRead (insBase s + 2 * ((s.ch c).ins.toNat - 1)) s) fun r0 =>
  andThen (blobRead (insBase s + 2 * ((s.ch c).ins.toNat - 1) + 1) r0.2) fun r1 =>
  .next (r1.2.modCh c (defaultsFrom c r0.1 r1.1))

/-- The register writes of `NoteOn(c, N)` before the defaults (R165). -/
def noteRegs (c : Chan) (n : Byte) (x : Channel) : Channel :=
  { x with note := n.setWidth 7, pitch := noteMap c n.toNat, onset := true }

/-- `NoteOn(c, N)` (R165), called with `N <= 71`; with `ins = 0` no default is loaded (R167). -/
def noteOn (c : Chan) (n : Byte) (s : State) : Host.Outcome State Fault Refusal :=
  if (s.ch c).ins = 0#4 then .next (s.modCh c (noteRegs c n))
  else loadDefaults c (s.modCh c (noteRegs c n))

/-- `FxLoad(c, F, P)` (R168): the effect replaces the running one, the effect-local state is reset,
and `VFI` (5) and `VFO` (6) reprogram the envelope generator (R169). -/
def fxLoad (f : BitVec 4) (p : Byte) (x : Channel) : Channel :=
  let y := { x with fx := f, fxp := p, astep := 0, vphase := 0#6, dctr := 0#8 }
  if f = 5#4 then { y with edir := true, eper := p, ectr := 0#8 }
  else if f = 6#4 then { y with edir := false, eper := p, ectr := 0#8 }
  else y

/-- `Trigger(c, B0, B1, B2)` on the decoded fields (R160). -/
def trigger (c : Chan) (n : Byte) (i f : BitVec 4) (p : Byte) (s : State) :
    Host.Outcome State Fault Refusal :=
  if emptyCell n i f s.ninstr then .next s
  else
    let s1 := if hasIns i s.ninstr then s.modCh c (insLoad i) else s
    andThen (if hasNote n then noteOn c n s1 else .next s1) fun s2 =>
    .next (s2.modCh c (fxLoad f p))

/-- `Trigger(c, B0, B1, B2)` on the cell's three bytes: `N = B0`, `I = B1[7:4]`, `F = B1[3:0]`,
`P = B2` (R98, R160). -/
def triggerBytes (c : Chan) (b0 b1 b2 : Byte) (s : State) : Host.Outcome State Fault Refusal :=
  trigger c b0 (hiNibble b1) (loNibble b1) b2 s

end Sys2Proof.Machine
end

