-- ==== Sys2Proof/Machine/Cells.lean ====
section
/-! DEFINITION. The meaning of a cell: what it does to its channel in the TICK that fetches it, which is
the row trigger (41_row_trigger.md R160) followed by the channel's first `EffectStep` under it
(42_effects.md R180). In a TICK the two halves run in the passes of steps 2 and 3 (40_commands.md
R133); since a trigger and an effect step touch their own channel only, the row's four cells run one
after the other give the same state. On later ticks the loaded effect goes on in step 3. -/

namespace Sys2Proof.Machine

/-- A cell whose effect code is not 0: the cell is never empty (R102), so the arm that runs is its
own. -/
def cellTick (c : Chan) (n : Byte) (i f : BitVec 4) (p : Byte) (arm : Chan → Channel → Channel)
    (s : State) : Host.Outcome State Fault Refusal :=
  andThen (trigger c n i f p s) fun t => .next (t.modCh c (fun x => arm c (envelopeStep x)))

/-- `NON` (R185, R161): an empty cell leaves the running effect running; any other replaces it. -/
def execNon (c : Chan) (n : Byte) (i : BitVec 4) (p : Byte) (s : State) :
    Host.Outcome State Fault Refusal :=
  andThen (trigger c n i 0x0#4 p s) fun t => .next (t.modCh c (effectStep c))

/-- `SLU` (R186). -/
def execSlu (c : Chan) (n : Byte) (i : BitVec 4) (p : Byte) (s : State) :
    Host.Outcome State Fault Refusal := cellTick c n i 0x1#4 p effSlu s

/-- `SLD` (R187). -/
def execSld (c : Chan) (n : Byte) (i : BitVec 4) (p : Byte) (s : State) :
    Host.Outcome State Fault Refusal := cellTick c n i 0x2#4 p effSld s

/-- `ARP` (R189). -/
def execArp (c : Chan) (n : Byte) (i : BitVec 4) (p : Byte) (s : State) :
    Host.Outcome State Fault Refusal := cellTick c n i 0x3#4 p effArp s

/-- `VIB` (R190). -/
def execVib (c : Chan) (n : Byte) (i : BitVec 4) (p : Byte) (s : State) :
    Host.Outcome State Fault Refusal := cellTick c n i 0x4#4 p effVib s

/-- `VFI` (R191). -/
def execVfi (c : Chan) (n : Byte) (i : BitVec 4) (p : Byte) (s : State) :
    Host.Outcome State Fault Refusal := cellTick c n i 0x5#4 p effVfi s

/-- `VFO` (R192). -/
def execVfo (c : Chan) (n : Byte) (i : BitVec 4) (p : Byte) (s : State) :
    Host.Outcome State Fault Refusal := cellTick c n i 0x6#4 p effVfo s

/-- `DCY` (R193). -/
def execDcy (c : Chan) (n : Byte) (i : BitVec 4) (p : Byte) (s : State) :
    Host.Outcome State Fault Refusal := cellTick c n i 0x7#4 p effDcy s

/-- `RS8` (R194). -/
def execRs8 (c : Chan) (n : Byte) (i : BitVec 4) (p : Byte) (s : State) :
    Host.Outcome State Fault Refusal := cellTick c n i 0x8#4 p effRs8 s

/-- `RS9` (R194). -/
def execRs9 (c : Chan) (n : Byte) (i : BitVec 4) (p : Byte) (s : State) :
    Host.Outcome State Fault Refusal := cellTick c n i 0x9#4 p effRs9 s

/-- `RSA` (R194). -/
def execRsa (c : Chan) (n : Byte) (i : BitVec 4) (p : Byte) (s : State) :
    Host.Outcome State Fault Refusal := cellTick c n i 0xA#4 p effRsa s

/-- `RSB` (R194). -/
def execRsb (c : Chan) (n : Byte) (i : BitVec 4) (p : Byte) (s : State) :
    Host.Outcome State Fault Refusal := cellTick c n i 0xB#4 p effRsb s

/-- `RSC` (R194). -/
def execRsc (c : Chan) (n : Byte) (i : BitVec 4) (p : Byte) (s : State) :
    Host.Outcome State Fault Refusal := cellTick c n i 0xC#4 p effRsc s

/-- `RSD` (R194). -/
def execRsd (c : Chan) (n : Byte) (i : BitVec 4) (p : Byte) (s : State) :
    Host.Outcome State Fault Refusal := cellTick c n i 0xD#4 p effRsd s

/-- `RSE` (R194). -/
def execRse (c : Chan) (n : Byte) (i : BitVec 4) (p : Byte) (s : State) :
    Host.Outcome State Fault Refusal := cellTick c n i 0xE#4 p effRse s

/-- `RSF` (R194). -/
def execRsf (c : Chan) (n : Byte) (i : BitVec 4) (p : Byte) (s : State) :
    Host.Outcome State Fault Refusal := cellTick c n i 0xF#4 p effRsf s

end Sys2Proof.Machine
end

