-- ==== Sys2Proof/Machine/Flags.lean ====
section
/-! DEFINITION. The one-bit status registers (10_state.md R42) that are computed: `run` from a header
and `hold` from a mute sample. There are no condition codes; saturation sets no flag. `first`, `onset`
and `edir` are set and cleared outright where 40_commands.md R136, 41_row_trigger.md R165, R166, R169
and 43_commit.md R215 say so. -/

namespace Sys2Proof.Machine

/-- The header validity predicate (R92) on blob bytes 0 to 5; the value START gives `run` (R131). -/
def headerValid (h0 h1 h2 h3 h4 h5 : Byte) : Bool :=
  h0 == Config.formatVersion && decide (1 ≤ h1.toNat) && decide (1 ≤ h2.toNat) &&
    decide (1 ≤ h3.toNat) && decide (h3.toNat ≤ Config.npatMax) &&
    decide (h4.toNat ≤ Config.ninstrMax) && decide (h5.toNat ≤ Config.nwaveMax)

/-- The hold latch after a mute sample `m` (R211): sampled 1 sets it; sampled 0 clears it only with a
note onset in this tick; else it stays. -/
def holdAfter (m onset hold : Bool) : Bool :=
  if m then true else if onset then false else hold

end Sys2Proof.Machine
end

