-- ==== Sys2Proof/Machine/Commit.lean ====
section
/-! DEFINITION. The commit unit (43_commit.md): mute hold, write set and the Wave-RAM Hazard Guard. -/

namespace Sys2Proof.Machine

/-- `k` more bytes of `LoadWave(w)` from byte `i` on (R217): each read followed by its write. -/
def loadWaveFrom (w i : Nat) : Nat → State → Host.Outcome State Fault Refusal
  | 0, s => .next s
  | k + 1, s =>
    andThen (blobRead (wavBase s + 16 * w + i) s) fun r =>
    loadWaveFrom w (i + 1) k (sinkWrite (waveReg i) r.1.toNat r.2)

/-- `LoadWave(w)` (R217): the sixteen bytes in ascending order. -/
def loadWave (w : Nat) (s : State) : Host.Outcome State Fault Refusal :=
  loadWaveFrom w 0 Config.waveBytes s

/-- The condition of a waveform load (R216): a note trigger, an index the table has, and another
waveform resident. -/
def waveNeeded (s : State) : Bool :=
  s.ch3.onset && decide (s.ch3.shape.toNat < s.nwave.toNat) && s.lwid != s.ch3.shape.setWidth 8

/-- `WaveGuard()` (R216, R218). -/
def waveGuard (s : State) : Host.Outcome State Fault Refusal :=
  if waveNeeded s then
    andThen (loadWave s.ch3.shape.toNat s) fun t =>
    .next { t with lwid := s.ch3.shape.setWidth 8 }
  else .next s

/-- The write set of channel `c` (R210, R213, R214): `SHAPE`, `VOL`, `FREQ`, and `TRIG` on an onset. -/
def writeSet (c : Chan) (s : State) : State :=
  let t := sinkWrite (sinkReg c 2) (s.ch c).fout.toNat
    (sinkWrite (sinkReg c 1) (s.ch c).vol.toNat (sinkWrite (sinkReg c 0) (s.ch c).shape.toNat s))
  if (s.ch c).onset then sinkWrite (sinkReg c 3) 1 t else t

/-- The part of `Commit(c)` after the hold latch: the writes of a channel that is not held. -/
def commitWrites (c : Chan) (s : State) : Host.Outcome State Fault Refusal :=
  if (s.ch c).hold then .next s
  else andThen (if c = .ch3 then waveGuard s else .next s) fun t => .next (writeSet c t)

/-- The mute sample and the hold latch of `Commit(c)` (R211). -/
def latchHold (c : Chan) (s : State) : State :=
  (muteSample c s).2.modCh c
    (fun x => { x with hold := holdAfter (muteSample c s).1 x.onset x.hold })

/-- `Commit(c)` (R210): sample and latch, write, and clear `onset` (R215). -/
def commit (c : Chan) (s : State) : Host.Outcome State Fault Refusal :=
  andThen (commitWrites c (latchHold c s)) fun t =>
  .next (t.modCh c (fun x => { x with onset := false }))

/-- Step 4 of TICK (R133): every channel in order. -/
def commitPass (s : State) : Host.Outcome State Fault Refusal :=
  andThen (commit .ch1 s) fun s1 =>
  andThen (commit .ch2 s1) fun s2 =>
  andThen (commit .ch3 s2) fun s3 => commit .ch4 s3

end Sys2Proof.Machine
end

