-- ==== Sys2Proof/Machine/Commands.lean ====
section
/-! DEFINITION. The four commands and the Playback Controller (40_commands.md). -/

namespace Sys2Proof.Machine

/-- `NOP` (R142). -/
def execNop (s : State) : Host.Outcome State Fault Refusal := .next s

/-- `RESETWAVE` (R140). -/
def execResetwave (s : State) : Host.Outcome State Fault Refusal :=
  .next { s with lwid := Config.noWave }

/-- The registers START leaves once the six header bytes are read (R131, R46). -/
def startRegs (h0 h1 h2 h3 h4 h5 : Byte) (s : State) : State :=
  { s with
    speed := h1, ordlen := h2, npat := h3, ninstr := h4, nwave := h5, ord := 0#8, row := 0#6,
    tctr := 1#8, first := true, lwid := Config.noWave, ch1 := Channel.zero, ch2 := Channel.zero,
    ch3 := Channel.zero, ch4 := Channel.zero, run := headerValid h0 h1 h2 h3 h4 h5 }

/-- `START ptr` (R131, R132). -/
def execStart (ptr : Nat) (s : State) : Host.Outcome State Fault Refusal :=
  andThen (blobRead 0 { s with base := ptr }) fun r0 =>
  andThen (blobRead 1 r0.2) fun r1 =>
  andThen (blobRead 2 r1.2) fun r2 =>
  andThen (blobRead 3 r2.2) fun r3 =>
  andThen (blobRead 4 r3.2) fun r4 =>
  andThen (blobRead 5 r4.2) fun r5 =>
  .next (startRegs r0.1 r1.1 r2.1 r3.1 r4.1 r5.1 r5.2)

/-- `AdvancePosition()` (R137). -/
def advancePosition (s : State) : State :=
  if s.row = 63#6 then
    if s.ord.toNat + 1 = s.ordlen.toNat then { s with row := 0#6, ord := 0#8 }
    else { s with row := 0#6, ord := s.ord + 1#8 }
  else { s with row := s.row + 1#6 }

/-- The position writes of a row boundary (R135, R136): reload the tick counter, then advance, except
at the first boundary after START. -/
def rowBoundary (s : State) : State :=
  let t := { s with tctr := s.speed }
  if s.first then { t with first := false } else advancePosition t

/-- The three bytes of the cell at offset `a`, read and triggered on channel `c` (R138). -/
def fetchCell (a : Nat) (c : Chan) (s : State) : Host.Outcome State Fault Refusal :=
  andThen (blobRead a s) fun r0 =>
  andThen (blobRead (a + 1) r0.2) fun r1 =>
  andThen (blobRead (a + 2) r1.2) fun r2 =>
  triggerBytes c r0.1 r1.1 r2.1 r2.2

/-- `p = min(e, npat - 1)`: an order entry out of range is clamped (R138, R233 DF2). -/
def clampPattern (e : Byte) (s : State) : Nat := min e.toNat (s.npat.toNat - 1)

/-- `FetchRow()` (R138): the order entry, then the four cells, each triggered before the next is read. -/
def fetchRow (s : State) : Host.Outcome State Fault Refusal :=
  andThen (blobRead (ordBase + s.ord.toNat) s) fun e =>
  andThen (fetchCell (cellAddr s (clampPattern e.1 s) s.row.toNat .ch1) .ch1 e.2) fun s1 =>
  andThen (fetchCell (cellAddr s (clampPattern e.1 s) s.row.toNat .ch2) .ch2 s1) fun s2 =>
  andThen (fetchCell (cellAddr s (clampPattern e.1 s) s.row.toNat .ch3) .ch3 s2) fun s3 =>
  fetchCell (cellAddr s (clampPattern e.1 s) s.row.toNat .ch4) .ch4 s3

/-- Steps 1 and 2 of TICK (R133, R135): count the tick down and, at zero, fetch the next row. -/
def countTick (s : State) : Host.Outcome State Fault Refusal :=
  if s.tctr - 1#8 = 0#8 then fetchRow (rowBoundary s)
  else .next { s with tctr := s.tctr - 1#8 }

/-- `TICK` (R133, R134): the tick counter and the row, the effects of every channel, the commits. -/
def execTick (s : State) : Host.Outcome State Fault Refusal :=
  if s.run then andThen (countTick s) fun t => commitPass (effectPass t) else .next s

end Sys2Proof.Machine
end

