-- ==== Sys2Proof/Machine/Dispatch.lean ====
section
/-! DEFINITION. The meaning of every instruction, one arm per constructor. -/

namespace Sys2Proof.Machine

def exec (i : Instr) (s : State) : Host.Outcome State Fault Refusal :=
  match i with
  | .non c n x p => Sys2Proof.Machine.execNon c n x p s
  | .slu c n x p => Sys2Proof.Machine.execSlu c n x p s
  | .sld c n x p => Sys2Proof.Machine.execSld c n x p s
  | .arp c n x p => Sys2Proof.Machine.execArp c n x p s
  | .vib c n x p => Sys2Proof.Machine.execVib c n x p s
  | .vfi c n x p => Sys2Proof.Machine.execVfi c n x p s
  | .vfo c n x p => Sys2Proof.Machine.execVfo c n x p s
  | .dcy c n x p => Sys2Proof.Machine.execDcy c n x p s
  | .rs8 c n x p => Sys2Proof.Machine.execRs8 c n x p s
  | .rs9 c n x p => Sys2Proof.Machine.execRs9 c n x p s
  | .rsa c n x p => Sys2Proof.Machine.execRsa c n x p s
  | .rsb c n x p => Sys2Proof.Machine.execRsb c n x p s
  | .rsc c n x p => Sys2Proof.Machine.execRsc c n x p s
  | .rsd c n x p => Sys2Proof.Machine.execRsd c n x p s
  | .rse c n x p => Sys2Proof.Machine.execRse c n x p s
  | .rsf c n x p => Sys2Proof.Machine.execRsf c n x p s
  | .nop => Sys2Proof.Machine.execNop s
  | .start ptr => Sys2Proof.Machine.execStart ptr s
  | .tick => Sys2Proof.Machine.execTick s
  | .resetwave => Sys2Proof.Machine.execResetwave s

end Sys2Proof.Machine
end

