-- ==== Sys2Proof/Machine/HostPort.lean ====
section
/-! DEFINITION. What one step does with what the host does next: a command is decoded and executed to
completion (40_commands.md R130), a `MUTE` access takes effect (20_memory.md R69, R141), the
caller stores a byte of its own memory (R64), an overlapped command has no meaning (93_implementation_defined.md U1). -/

namespace Sys2Proof.Machine

/-- The idle port: the code NOP (R142). -/
def takeIdle (s : State) : Host.Outcome State Fault Refusal := exec (decodeCommand 0b00#2 0) s

/-- A command: the host's `MUTE` accesses that fall inside it are at hand to its mute samples, and
those it takes no sample after have happened when it completes (R69). -/
def takeCommand (code : BitVec 2) (ptr : Nat) (mid : MidAccesses) (s : State) :
    Host.Outcome State Fault Refusal :=
  andThen (exec (decodeCommand code ptr) { s with mid := mid }) fun t => .next (landAll t)

/-- The address lies in the blob of the song that is playing (R64). -/
def inPlayingBlob (a : Nat) (s : State) : Bool :=
  s.run && decide (s.base ≤ a) && decide (a < s.base + blobLen s)

/-- The caller stores a byte of its own memory. From a START with a valid header to the next START the
bytes of the blob stay unchanged (R64); a store that would change one has no meaning (U5). -/
def storeByte (a : Nat) (b : Byte) (s : State) : Host.Outcome State Fault Refusal :=
  if inPlayingBlob a s = true ∧ Memory.read s.mem a ≠ some b then .refused (.blobChanged a)
  else .next { s with mem := Memory.write s.mem a b }

/-- What the host does next. -/
def takeEvent (e : HostEvent) (s : State) : Host.Outcome State Fault Refusal :=
  match e with
  | .command code ptr mid => takeCommand code ptr mid s
  | .access a => .next (accessMute a s)
  | .store a b => storeByte a b s
  | .overlapped _ _ _ _ => .refused .commandOverlap

end Sys2Proof.Machine
end

