-- ==== Sys2Proof/Machine/Step.lean ====
section
/-! DEFINITION. One step of the machine, and the placing of an instruction where the next step takes
it. -/

namespace Sys2Proof.Machine

/-- One step: the block takes what the host does next (40_commands.md R130). With nothing pending the
command port is at its idle value, whose code is NOP (R142, R244). -/
def step (s : State) : Host.Outcome State Fault Refusal :=
  match s.port with
  | [] => takeIdle s
  | e :: rest => takeEvent e { s with port := rest }

/-- `s` with the instruction whose bits are `w` placed so that the very next step runs it: a command
first in line at the command port, or a cell in CH1's column of the row that the TICK first in line
fetches (log entry 3). -/
def State.withFetchWord (s : State) (nbits w : Nat) : State := placeWord s nbits w

end Sys2Proof.Machine
end

