-- ==== Sys2Proof/Machine/Song.lean ====
section
/-! DEFINITION. The song blob as data and its encoding (30_encoding.md R90 to R97). The block only reads
blobs; this is what a blob that the authoring tool produced holds, written out from the layout rules. -/

namespace Sys2Proof.Machine

/-- An entry of the instrument table (R94). -/
structure Instrument where
  vol : BitVec 4
  dir : Bool
  per : BitVec 3
  duty : BitVec 2
  noiseMode : Bool
  wave : BitVec 4
  deriving DecidableEq, Repr

/-- The two bytes of an instrument; the reserved bit 4 of byte 1 is 0 (R94, R106). -/
def Instrument.bytes (x : Instrument) : List Byte :=
  [x.vol ++ BitVec.ofBool x.dir ++ x.per,
   x.duty ++ BitVec.ofBool x.noiseMode ++ 0#1 ++ x.wave]

/-- The bytes of a waveform from its samples: the earlier of two samples in the high nibble (R95). -/
def waveBytesOf : List (BitVec 4) → List Byte
  | a :: b :: rest => byteOfNibbles a b :: waveBytesOf rest
  | _ => []

/-- A song: what the blob holds (R90). A waveform is its 32 samples (R95), a pattern its rows, a row its
cells (R96). -/
structure Song where
  speed : Byte
  orders : List Byte
  instruments : List Instrument
  waves : List (List (BitVec 4))
  patterns : List (List (List Instr))
  deriving DecidableEq, Repr

/-- The three bytes of a cell (R98). -/
def cellBytes (i : Instr) : List Byte :=
  match encode i with
  | .cell b0 b1 b2 => [b0, b1, b2]
  | .command _ _ => []

/-- The header, offsets 0 to 7 (R91). -/
def Song.header (g : Song) : List Byte :=
  [Config.formatVersion, g.speed, BitVec.ofNat 8 g.orders.length,
   BitVec.ofNat 8 g.patterns.length, BitVec.ofNat 8 g.instruments.length,
   BitVec.ofNat 8 g.waves.length, 0#8, 0#8]

/-- The bytes of a pattern: 64 rows of four cells (R96). -/
def patternBytes (q : List (List Instr)) : List Byte := (q.flatMap id).flatMap cellBytes

/-- The blob: header, order list, instrument table, waveform table, pattern table, contiguous (R97). -/
def Song.bytes (g : Song) : List Byte :=
  g.header ++ g.orders ++ g.instruments.flatMap Instrument.bytes ++ g.waves.flatMap waveBytesOf ++
    g.patterns.flatMap patternBytes

/-- A row holds the four cells in channel order (R96). -/
def rowOk (r : List Instr) : Bool :=
  r.map Instr.column == [some .ch1, some .ch2, some .ch3, some .ch4]

/-- A song the authoring tool may produce: every count and every order entry in its legal range (R91 to
R96). -/
def Song.ok (g : Song) : Bool :=
  decide (1 ≤ g.speed.toNat) && decide (1 ≤ g.orders.length) && decide (g.orders.length ≤ 255) &&
  decide (1 ≤ g.patterns.length) && decide (g.patterns.length ≤ Config.npatMax) &&
  decide (g.instruments.length ≤ Config.ninstrMax) && decide (g.waves.length ≤ Config.nwaveMax) &&
  g.orders.all (fun e => decide (e.toNat < g.patterns.length)) &&
  g.waves.all (fun w => decide (w.length = Config.waveSamples)) &&
  g.patterns.all (fun q => decide (q.length = Config.rows) && q.all rowOk)

end Sys2Proof.Machine
end

