-- ==== Sys2Proof/Machine/Text.lean ====
section
/-! DEFINITION. The tracker-style text form of cells, rows and patterns (30_encoding.md R109 to R111), as
lists of characters: writing a cell, and reading a cell, a row and a pattern. -/

namespace Sys2Proof.Machine

/-- A hex digit, capital (R109). -/
def hexChar (v : Nat) : Char :=
  (['0', '1', '2', '3', '4', '5', '6', '7', '8', '9', 'A', 'B', 'C', 'D', 'E', 'F']).getD v '?'

/-- The value of a capital hex digit. -/
def hexVal (ch : Char) : Option Nat :=
  if '0' ≤ ch ∧ ch ≤ '9' then some (ch.toNat - '0'.toNat)
  else if 'A' ≤ ch ∧ ch ≤ 'F' then some (ch.toNat - 'A'.toNat + 10)
  else none

/-- The value of a decimal digit. -/
def decVal (ch : Char) : Option Nat :=
  if '0' ≤ ch ∧ ch ≤ '9' then some (ch.toNat - '0'.toNat) else none

/-- The letter part of the note names, semitones 0 to 11 (R111). -/
def semitoneNames : List (Char × Char) :=
  [('C', '-'), ('C', '#'), ('D', '-'), ('D', '#'), ('E', '-'), ('F', '-'), ('F', '#'), ('G', '-'),
   ('G', '#'), ('A', '-'), ('A', '#'), ('B', '-')]

/-- The name of note `n`, 0 to 71: `n = 12 * (octave - 3) + semitone` (R111). -/
def noteName (n : Nat) : List Char :=
  let s := semitoneNames.getD (n % 12) ('?', '?')
  [s.1, s.2, hexChar (3 + n / 12)]

/-- The position of a semitone name in a list. -/
def semitoneIndex (s : Char × Char) : List (Char × Char) → Option Nat
  | [] => none
  | t :: rest => if t = s then some 0 else (semitoneIndex s rest).map (· + 1)

/-- The note field of the text form: a note name or `...` (R109). -/
def readNote : List Char → Option Byte
  | ['.', '.', '.'] => some 0xFF#8
  | [a, b, o] =>
    match semitoneIndex (a, b) semitoneNames, decVal o with
    | some s, some v =>
      if 3 ≤ v ∧ v ≤ 8 then some (BitVec.ofNat 8 (12 * (v - 3) + s)) else none
    | _, _ => none
  | _ => none

/-- The instrument field: one hex digit 1 to F, or `.` for 0 (R109). -/
def readIns : List Char → Option (BitVec 4)
  | ['.'] => some 0#4
  | [d] =>
    match hexVal d with
    | some v => if v = 0 then none else some (BitVec.ofNat 4 v)
    | none => none
  | _ => none

/-- Two hex digits. -/
def readHexByte : List Char → Option Byte
  | [a, b] =>
    match hexVal a, hexVal b with
    | some x, some y => some (BitVec.ofNat 8 (16 * x + y))
    | _, _ => none
  | _ => none

/-- The effect field in digits: `...` for `F = 0`, `P = 0`, else code and parameter (R109). -/
def readFx : List Char → Option (BitVec 4 × Byte)
  | ['.', '.', '.'] => some (0#4, 0#8)
  | f :: p =>
    match hexVal f, readHexByte p with
    | some v, some b => some (BitVec.ofNat 4 v, b)
    | _, _ => none
  | [] => none

/-- The effect mnemonics, by code (R103). -/
def fxMnemonics : List (List Char) :=
  [['N', 'O', 'N'], ['S', 'L', 'U'], ['S', 'L', 'D'], ['A', 'R', 'P'], ['V', 'I', 'B'],
   ['V', 'F', 'I'], ['V', 'F', 'O'], ['D', 'C', 'Y'], ['R', 'S', '8'], ['R', 'S', '9'],
   ['R', 'S', 'A'], ['R', 'S', 'B'], ['R', 'S', 'C'], ['R', 'S', 'D'], ['R', 'S', 'E'],
   ['R', 'S', 'F']]

/-- The code of an effect mnemonic, by position. -/
def mnemonicCode (m : List Char) : List (List Char) → Option Nat
  | [] => none
  | t :: rest => if t = m then some 0 else (mnemonicCode m rest).map (· + 1)

/-- The pieces of a text between occurrences of a separator. -/
def splitAtChar (sep : Char) : List Char → List (List Char)
  | [] => [[]]
  | ch :: rest =>
    if ch = sep then [] :: splitAtChar sep rest
    else
      match splitAtChar sep rest with
      | [] => [[ch]]
      | w :: ws => (ch :: w) :: ws

/-- The words of a text: its non-empty pieces between spaces. -/
def wordsOf (t : List Char) : List (List Char) := (splitAtChar ' ' t).filter (fun w => !w.isEmpty)

/-- A cell in text form in column `c` (R109), or a pseudo-instruction: `FXSTOP i` is the cell `... i ...`
and `HOLDFX` the cell `... . 800` (R110). -/
def readCell (c : Chan) (t : List Char) : Option Instr :=
  match wordsOf t with
  | [n, i, fx] => do
    let nb ← readNote n
    let iv ← readIns i
    let f ← readFx fx
    some (cellOfFields c nb iv f.1 f.2)
  | [n, i, m, p] => do
    let nb ← readNote n
    let iv ← readIns i
    let f ← mnemonicCode m fxMnemonics
    let b ← readHexByte p
    some (cellOfFields c nb iv (BitVec.ofNat 4 f) b)
  | [w, i] =>
    if w = ['F', 'X', 'S', 'T', 'O', 'P'] then do
      let iv ← readIns i
      if iv = 0#4 then none else some (cellOfFields c 0xFF#8 iv 0#4 0#8)
    else none
  | [w] =>
    if w = ['H', 'O', 'L', 'D', 'F', 'X'] then some (cellOfFields c 0xFF#8 0#4 8#4 0#8) else none
  | _ => none

/-- The text of a cell with the fields `n i f p`; a note byte 72 to 254 has none (R109). -/
def cellText (n : Byte) (i f : BitVec 4) (p : Byte) : Option (List Char) :=
  let fx := if f = 0#4 ∧ p = 0#8 then ['.', '.', '.']
    else [hexChar f.toNat, hexChar (hiNibble p).toNat, hexChar (loNibble p).toNat]
  let ins := if i = 0#4 then '.' else hexChar i.toNat
  if n = 0xFF#8 then some (['.', '.', '.'] ++ ' ' :: ins :: ' ' :: fx)
  else if hasNote n then some (noteName n.toNat ++ ' ' :: ins :: ' ' :: fx)
  else none

/-- A row: its four cells in channel order, separated by `|` (R109). -/
def readRow (t : List Char) : Option (List Instr) :=
  match splitAtChar '|' t with
  | [a, b, x, d] => do
    let c1 ← readCell .ch1 a
    let c2 ← readCell .ch2 b
    let c3 ← readCell .ch3 x
    let c4 ← readCell .ch4 d
    some [c1, c2, c3, c4]
  | _ => none

/-- The canonical empty cell `FF 00 00` (R102). -/
def emptyCellOf (c : Chan) : Instr := cellOfFields c 0xFF#8 0#4 0#4 0#8

/-- The row of four empty cells. -/
def emptyRow : List Instr :=
  [emptyCellOf .ch1, emptyCellOf .ch2, emptyCellOf .ch3, emptyCellOf .ch4]

/-- A decimal number. -/
def readDec : List Char → Nat → Option Nat
  | [], acc => some acc
  | d :: rest, acc =>
    match decVal d with
    | some v => readDec rest (10 * acc + v)
    | none => none

/-- A line of a pattern: the row number, a colon and the row (R109). The model's choice (log entry 18): the
row number is decimal, of any number of digits, with no space before it or before the colon. -/
def readPatternLine (t : List Char) : Option (Nat × List Instr) :=
  match splitAtChar ':' t with
  | [k, r] =>
    match k with
    | [] => none
    | _ :: _ => do
      let n ← readDec k 0
      let row ← readRow r
      if n < Config.rows then some (n, row) else none
  | _ => none

/-- The written rows put into a pattern. -/
def placeLines : List (List Char) → List (List Instr) → Option (List (List Instr))
  | [], q => some q
  | t :: rest, q =>
    match readPatternLine t with
    | some (n, row) => placeLines rest (q.set n row)
    | none => none

/-- A pattern from its lines; rows not written are empty (R109). -/
def readPattern (lines : List (List Char)) : Option (List (List Instr)) :=
  placeLines lines (List.replicate Config.rows emptyRow)

end Sys2Proof.Machine
end

