-- ==== Sys2Proof/WellFormed.lean ====
section
/-! DEFINITION. Well-formed instructions. Every one of the 2^24 cell words is legal (30_encoding.md
R105: no encoding traps), and the operand types hold exactly the widths of R98, so the one thing to
check is that the pointer of START fits the `PTR_W` wires of the command port (R107). -/

namespace Sys2Proof

/-- A pointer value of `PTR_W` bits (R23, R107). -/
abbrev PtrFits (ptr : Nat) : Prop := ptr < 2 ^ Config.ptrW

/-- The check on an instruction. -/
def Instr.WellFormed : Instr → Prop
  | .non _ _ _ _ | .slu _ _ _ _ | .sld _ _ _ _ | .arp _ _ _ _ => True
  | .vib _ _ _ _ | .vfi _ _ _ _ | .vfo _ _ _ _ | .dcy _ _ _ _ => True
  | .rs8 _ _ _ _ | .rs9 _ _ _ _ | .rsa _ _ _ _ | .rsb _ _ _ _ => True
  | .rsc _ _ _ _ | .rsd _ _ _ _ | .rse _ _ _ _ | .rsf _ _ _ _ => True
  | .nop | .tick | .resetwave => True
  | .start ptr => PtrFits ptr

end Sys2Proof
end

