-- ==== Sys2Proof/Safety.lean ====
section
/-! DEFINITION. What counts as a safe state and a safe run, in the terms the statements use: the
readable blob the host owes (20_memory.md R64), the invariants of 10_state.md (R28, R36, R37, R47, R48),
runs of TICKs, and the row of a TICK as four decoded cells. -/

namespace Sys2Proof.Machine

/-! ### What the host owes -/

/-- The six header bytes of the blob at `ptr` are readable (R64). -/
def HeaderReadable (ptr : Nat) (s : State) : Prop :=
  ∀ off, off < 6 → (Memory.read s.mem (ptr + off)).isSome

/-- The rest of the playing blob is readable (R64). -/
def BlobReadable (s : State) : Prop :=
  ∀ off, ordBase ≤ off → off < blobLen s → (Memory.read s.mem (s.base + off)).isSome

/-- The instrument field a cell leaves active on its channel (R163, R164). -/
def insAfter (c : Chan) (i : BitVec 4) (s : State) : BitVec 4 :=
  if hasIns i s.ninstr then i else (s.ch c).ins

/-- The cell reads an instrument: it has a note and an instrument is active (R165, R167). -/
def loadsDefaults (c : Chan) (n : Byte) (i : BitVec 4) (s : State) : Bool :=
  hasNote n && insAfter c i s != 0#4

/-- The offset of byte `k` of the instrument a cell reads (R166). -/
def defaultsOffset (c : Chan) (i : BitVec 4) (s : State) (k : Nat) : Nat :=
  insBase s + 2 * ((insAfter c i s).toNat - 1) + k

/-- The instrument bytes a cell reads, if any, are readable. -/
def CellReadable (c : Chan) (n : Byte) (i : BitVec 4) (s : State) : Prop :=
  loadsDefaults c n i s = true →
    ∀ k, k < 2 → (Memory.read s.mem (s.base + defaultsOffset c i s k)).isSome

/-- Byte `k` of the instrument a cell reads; what stands for a byte that is not readable does not
matter, because the cell is then refused. -/
def defaultsByte (c : Chan) (i : BitVec 4) (s : State) (k : Nat) : Byte :=
  (Memory.read s.mem (s.base + defaultsOffset c i s k)).getD 0#8

/-- The reads a cell makes: its instrument's two bytes, if it loads them (R166). -/
def defaultsReads (c : Chan) (n : Byte) (i : BitVec 4) (s : State) : List BusEvent :=
  if loadsDefaults c n i s then
    [.blobRead (defaultsOffset c i s 0), .blobRead (defaultsOffset c i s 1)]
  else []

/-- The channel after `InsLoad` and `NoteOn` of a cell, as R163, R165, R166 and R167 give it. -/
def afterNote (c : Chan) (n : Byte) (i : BitVec 4) (s : State) : Channel :=
  let x := s.ch c
  let l := loadsDefaults c n i s
  let b0 := defaultsByte c i s 0
  let b1 := defaultsByte c i s 1
  { x with
    ins := insAfter c i s
    note := if hasNote n then n.setWidth 7 else x.note
    pitch := if hasNote n then noteMap c n.toNat else x.pitch
    onset := if hasNote n then true else x.onset
    vol := if l then instrVol b0 else x.vol
    edir := if l then instrDir b0 else x.edir
    eper := if l then instrPer b0 else x.eper
    ectr := if l then 0#8 else x.ectr
    shape := if l then instrShape c b1 else x.shape }

/-- The channel after the whole trigger of a non-empty cell whose code is neither `VFI` nor `VFO`
(R168). -/
def afterLoad (c : Chan) (n : Byte) (i f : BitVec 4) (p : Byte) (s : State) : Channel :=
  { afterNote c n i s with fx := f, fxp := p, astep := 0, vphase := 0#6, dctr := 0#8 }

/-- The state after a cell that leaves `x` on channel `c`: nothing else changes but the record, which
grows by the cell's reads (R171). -/
def afterCell (c : Chan) (n : Byte) (i : BitVec 4) (s : State) (x : Channel) : State :=
  { s.setCh c x with bus := s.bus ++ defaultsReads c n i s }

/-- A host event whose pointers and addresses fit `PTR_W` bits (R23, R107). -/
def EventOk : HostEvent → Prop
  | .command _ ptr _ => PtrFits ptr
  | .access _ => True
  | .store a _ => PtrFits a
  | .overlapped _ ptr _ ptr2 => PtrFits ptr ∧ PtrFits ptr2

/-! ### Invariants -/

/-- The invariants of a channel register file (R48, R36, R37, R38, R47). `vol <= 15` and `astep <= 2`
hold by the registers' types. -/
structure ChannelInv (c : Chan) (ninstr : Byte) (x : Channel) : Prop where
  note_le : x.note.toNat ≤ Config.noteMax
  ins_le : x.ins.toNat ≤ ninstr.toNat
  pitch_le : x.pitch.toNat ≤ pMax c
  fout_le : x.fout.toNat ≤ pMax c
  ectr_lt : x.eper ≠ 0#8 → x.ectr.toNat < x.eper.toNat
  dctr_lt : x.fx = 7#4 → x.fxp ≠ 0#8 → x.dctr.toNat < x.fxp.toNat
  dctr_zero : isPulse c = false → x.dctr = 0#8
  shape_pulse : isPulse c = true → x.shape.toNat ≤ 3
  shape_noise : c = .ch4 → x.shape.toNat ≤ 1

/-- The header registers and the position while a song plays (R24, R28). -/
structure PlayInv (s : State) : Prop where
  speed_pos : 1 ≤ s.speed.toNat
  ordlen_pos : 1 ≤ s.ordlen.toNat
  npat_pos : 1 ≤ s.npat.toNat
  npat_le : s.npat.toNat ≤ Config.npatMax
  ninstr_le : s.ninstr.toNat ≤ Config.ninstrMax
  nwave_le : s.nwave.toNat ≤ Config.nwaveMax
  tctr_pos : 1 ≤ s.tctr.toNat
  ord_lt : s.ord.toNat < s.ordlen.toNat

/-- The invariant of the block when a command begins, whatever accesses of `MUTE` fall inside it. -/
structure BlockInv (s : State) : Prop where
  chan : ∀ c, ChannelInv c s.ninstr (s.ch c)
  idle : ∀ c, (s.ch c).onset = false
  play : s.run = true → PlayInv s
  wave : s.lwid = Config.noWave ∨ s.lwid.toNat < s.nwave.toNat
  mem : Memory.wf s.mem
  base : PtrFits s.base
  port : ∀ e ∈ s.port, EventOk e

/-- The invariant of the machine between commands: none of a command's accesses of `MUTE` is left. -/
structure MachineInv (s : State) : Prop extends BlockInv s where
  mid : s.mid = MidAccesses.none

/-! ### Host accesses of `MUTE` inside a command (R69, log entry 9) -/

/-- `MUTE` after host accesses, in order: a write stores bits 3:0, a read stores nothing. -/
def muteAfter : List MuteAccess → BitVec 4 → BitVec 4
  | [], m => m
  | .write b :: rest, _ => muteAfter rest (b.extractLsb' 0 4)
  | .read :: rest, m => muteAfter rest m

/-- What the record shows of host accesses: the answer of each read, `MUTE` zero-extended. -/
def muteAnswers : List MuteAccess → BitVec 4 → List BusEvent
  | [], _ => []
  | .write b :: rest, _ => muteAnswers rest (b.extractLsb' 0 4)
  | .read :: rest, m => .muteRead (m.setWidth 8) :: muteAnswers rest m

/-- The answer to a host read. -/
def isMuteAnswer : BusEvent → Bool
  | .muteRead _ => true
  | .blobRead _ | .sinkWrite _ _ | .muteSample _ _ => false

/-- All accesses of a command, in order. -/
def MidAccesses.all (m : MidAccesses) : List MuteAccess :=
  m.before1 ++ m.before2 ++ m.before3 ++ m.before4

/-- The accesses of a command before channel `c`'s sample. -/
def MidAccesses.upTo (m : MidAccesses) : Chan → List MuteAccess
  | .ch1 => m.before1
  | .ch2 => m.before1 ++ m.before2
  | .ch3 => m.before1 ++ m.before2 ++ m.before3
  | .ch4 => m.before1 ++ m.before2 ++ m.before3 ++ m.before4

/-- The mute bit channel `c` samples in a TICK that begins in `s`. -/
def sampledBit (c : Chan) (s : State) : Bool :=
  (muteAfter (s.mid.upTo c) s.mute).getLsbD (chanIndex c)

/-! ### Runs -/

/-- `k` TICKs. -/
def ticks : Nat → State → Host.Outcome State Fault Refusal
  | 0, s => .next s
  | k + 1, s => andThen (exec .tick s) (ticks k)

/-- `EffectStep` of channel `c`, `k` times, as on `k` TICKs with no new cell. -/
def effectSteps (c : Chan) : Nat → Channel → Channel
  | 0, x => x
  | k + 1, x => effectSteps c k (effectStep c x)

/-! ### The row of a TICK as four instructions -/

/-- The cell at offset `a` of column `c`, fetched, decoded and executed. -/
def runCellAt (a : Nat) (c : Chan) (s : State) : Host.Outcome State Fault Refusal :=
  andThen (blobRead a s) fun r0 =>
  andThen (blobRead (a + 1) r0.2) fun r1 =>
  andThen (blobRead (a + 2) r1.2) fun r2 =>
  exec (cellOfBytes c r0.1 r1.1 r2.1) r2.2

/-- The order entry, then the four cells of the row, each executed before the next is fetched. -/
def runRow (s : State) : Host.Outcome State Fault Refusal :=
  andThen (blobRead (ordBase + s.ord.toNat) s) fun e =>
  andThen (runCellAt (cellAddr s (clampPattern e.1 s) s.row.toNat .ch1) .ch1 e.2) fun s1 =>
  andThen (runCellAt (cellAddr s (clampPattern e.1 s) s.row.toNat .ch2) .ch2 s1) fun s2 =>
  andThen (runCellAt (cellAddr s (clampPattern e.1 s) s.row.toNat .ch3) .ch3 s2) fun s3 =>
  runCellAt (cellAddr s (clampPattern e.1 s) s.row.toNat .ch4) .ch4 s3

/-- The note byte of channel `c`'s cell in the row that a row-boundary TICK fetches in `s` (R137, R138), if
readable. -/
def nextNoteByte (c : Chan) (s : State) : Option Byte :=
  match Memory.read s.mem (s.base + (ordBase + (rowBoundary s).ord.toNat)) with
  | none => none
  | some e =>
    Memory.read s.mem
      (s.base + cellAddr s (clampPattern e s) (rowBoundary s).row.toNat c)

/-! ### Parts of a state -/

/-- Two states with the same registers, the same `MUTE` and the same accesses still to come: they may
differ in where the blob lies, in the rest of the caller's memory, in the inputs not yet taken and in
the record. -/
def SameRegisters (s t : State) : Prop :=
  t = { s with base := t.base, mem := t.mem, port := t.port, bus := t.bus }

/-- The sink registers of channel `c` (R66): its four, and the waveform memory for CH3. -/
def ownsSinkReg (c : Chan) (n : Nat) : Bool :=
  decide (8 * chanIndex c ≤ n) && decide (n ≤ 8 * chanIndex c + 3) ||
    (decide (c = .ch3) && decide (32 ≤ n) && decide (n ≤ 47))

/-- The writes of channel `c` in a trace. -/
def writesOf (c : Chan) (w : List (Nat × BitVec 11)) : List (Nat × BitVec 11) :=
  w.filter (fun x => ownsSinkReg c x.1)

/-- A step with no fault and no refusal. -/
def Completes (o : Host.Outcome State Fault Refusal) : Prop := ∃ t, o = .next t

end Sys2Proof.Machine
end

