-- ==== Sys2Proof/Certificates/Slice0/Obligations.lean ====
section
/-! DEFINITION. The statements for the provers, each from the numbered rules of the spec. Where a
statement rests on a choice of the model and not on a rule, its docstring names the log entry. -/

open Sys2Proof Sys2Proof.Machine

/-! ### Encodings -/

/-- R98, R103, R107: no field is dropped; the decoder gives back every instruction from its words, in the
column it stands in, whatever bytes follow a cell. -/
def Obligations.DecodeAfterEncode : Prop :=
  ∀ (i : Instr) (rest : List Byte),
    match encode i, i.column with
    | .cell b0 b1 b2, some c => decodeCell c (b0 :: b1 :: b2 :: rest) = .ok (i, rest)
    | .command code ptr, none => decodeCommand code ptr = i
    | _, _ => False

/-- R98, R105, R107: every three bytes are a cell and every 2-bit code a command, each with one
meaning. The model's choice (log entry 16): a command may come as a byte that is its code alone, and a
byte above 3 and fewer than three bytes are rejected by name. -/
def Obligations.EncodeAfterDecode : Prop :=
  (∀ (c : Chan) (b0 b1 b2 : Byte) (rest : List Byte), ∃ i,
    decodeCell c (b0 :: b1 :: b2 :: rest) = .ok (i, rest) ∧ encode i = .cell b0 b1 b2 ∧
      i.column = some c) ∧
  (∀ (c : Chan) (l : List Byte), l.length < 3 → decodeCell c l = .error .truncatedCell) ∧
  (∀ (code : BitVec 2) (ptr : Nat), (code ≠ 0b01#2 → ptr = 0) →
    encode (decodeCommand code ptr) = .command code ptr) ∧
  (∀ (b : Byte) (ptr : Nat), (4 ≤ b.toNat → decodeCommandByte b ptr = .error .notACommandCode) ∧
    (b.toNat < 4 → decodeCommandByte b ptr = .ok (decodeCommand (BitVec.ofNat 2 b.toNat) ptr)))

/-- R98: `N`, `I`, `F`, `P` are bits 23:16, 15:12, 11:8 and 7:0 of the 24-bit word `W = {B0, B1, B2}`,
and every cell is three bytes long. The second clause is the model's choice (log entry 16): a 24-bit word
of the opcode table, which gives no column, is read as a cell of CH1. -/
def Obligations.CellFieldBits : Prop :=
  ∀ (c : Chan) (b0 b1 b2 : Byte) (rest : List Byte),
    decodeCell c (b0 :: b1 :: b2 :: rest) =
      .ok (cellOfFields c ((b0 ++ b1 ++ b2).extractLsb' 16 8) ((b0 ++ b1 ++ b2).extractLsb' 12 4)
        ((b0 ++ b1 ++ b2).extractLsb' 8 4) ((b0 ++ b1 ++ b2).extractLsb' 0 8), rest) ∧
    decodeTableWord 24 (b0 ++ b1 ++ b2).toNat = some (cellOfBytes .ch1 b0 b1 b2)

/-- R109, R235, R98, R103, R107: words of the spec's own examples and of the command table. That a command
code stands alone in a byte is the model's choice (log entry 16). -/
def Obligations.SpecWordsDecode : Prop :=
  decodeCell .ch1 [0x0C#8, 0x10#8, 0x00#8] = .ok (.non .ch1 12#8 1#4 0#8, []) ∧
  decodeCell .ch2 [0xFF#8, 0x01#8, 0x05#8] = .ok (.slu .ch2 0xFF#8 0#4 5#8, []) ∧
  decodeCell .ch3 [0x1F#8, 0x34#8, 0x37#8] = .ok (.vib .ch3 31#8 3#4 0x37#8, []) ∧
  decodeCell .ch4 [0x50#8, 0xF9#8, 0x00#8] = .ok (.rs9 .ch4 80#8 15#4 0#8, []) ∧
  decodeCommandByte 0#8 7 = .ok .nop ∧ decodeCommandByte 1#8 7 = .ok (.start 7) ∧
  decodeCommandByte 2#8 7 = .ok .tick ∧ decodeCommandByte 3#8 7 = .ok .resetwave

/-- R109, R111: reading back the text of a cell that has one gives the cell. Which cells have a text (those
whose note byte is a note or 0xFF, and no other) and the conventions of digits and spaces are the
model's reading (log entry 18). -/
def Obligations.TextFormRoundTrip : Prop :=
  ∀ (c : Chan) (n : Byte) (i f : BitVec 4) (p : Byte) (txt : List Char),
    cellText n i f p = some txt → readCell c txt = some (cellOfFields c n i f p)

/-- R91 to R97: a song laid out by the rules and placed at `ptr` is a valid blob of `BLOBLEN` bytes,
whose header START reads; the bytes of the order list are the song's entries (R93), the two bytes at
`INSBASE + 2j` hold the fields of instrument `j` where the trigger of each kind of channel takes them
(R94), byte `k / 2` at `WAVBASE + 16w` holds sample `k` of waveform `w` (R95), and the three bytes at
`CellAddr(p, r, c)` are the song's cell (R96). -/
def Obligations.SongBlobLayout : Prop :=
  ∀ (g : Song) (ptr : Nat) (s : State), g.ok = true →
    ∃ t, exec (.start ptr) { s with mem := Memory.writeAll [] ptr g.bytes } = .next t ∧
      t.run = true ∧ t.speed = g.speed ∧ t.ordlen.toNat = g.orders.length ∧
      t.npat.toNat = g.patterns.length ∧ t.ninstr.toNat = g.instruments.length ∧
      t.nwave.toNat = g.waves.length ∧ blobLen t = g.bytes.length ∧ BlobReadable t ∧
      (∀ k e, g.orders[k]? = some e → Memory.read t.mem (ptr + (ordBase + k)) = some e) ∧
      (∀ j x, g.instruments[j]? = some x → ∃ b0 b1,
        Memory.read t.mem (ptr + (insBase t + 2 * j)) = some b0 ∧
        Memory.read t.mem (ptr + (insBase t + 2 * j + 1)) = some b1 ∧
        instrVol b0 = x.vol ∧ instrDir b0 = x.dir ∧ (instrPer b0).toNat = x.per.toNat ∧
        (instrShape .ch1 b1).toNat = x.duty.toNat ∧ (instrShape .ch2 b1).toNat = x.duty.toNat ∧
        instrShape .ch3 b1 = x.wave ∧ (instrShape .ch4 b1).toNat = x.noiseMode.toNat) ∧
      (∀ (w : Nat) (l : List (BitVec 4)), g.waves[w]? = some l → l.length = 32 ∧ ∀ k, k < 32 → ∃ b,
        Memory.read t.mem (ptr + (wavBase t + 16 * w + k / 2)) = some b ∧
        l[k]? = some (if k % 2 = 0 then b.extractLsb' 4 4 else b.extractLsb' 0 4)) ∧
      ∀ p r q row i (c : Chan), g.patterns[p]? = some q → q[r]? = some row →
        row[chanIndex c]? = some i → ∃ b0 b1 b2,
          Memory.read t.mem (ptr + cellAddr t p r c) = some b0 ∧
          Memory.read t.mem (ptr + cellAddr t p r c + 1) = some b1 ∧
          Memory.read t.mem (ptr + cellAddr t p r c + 2) = some b2 ∧ cellOfBytes c b0 b1 b2 = i

/-! ### Parameters and regions -/

/-- R104, R16: CH1 to CH3 share the table, which rises strictly and stays within `FREQ_MAX`; C-4 is
1046; on CH4 a note selects the index of its own number. -/
def Obligations.NoteMapRanges : Prop :=
  (∀ c n, n ≤ 71 → (noteMap c n).toNat ≤ pMax c) ∧
  (∀ n, n ≤ 71 → noteMap .ch2 n = noteMap .ch1 n ∧ noteMap .ch3 n = noteMap .ch1 n ∧
    (noteMap .ch4 n).toNat = n) ∧
  (∀ n, n < 71 → (noteMap .ch1 n).toNat < (noteMap .ch1 (n + 1)).toNat) ∧
  noteMap .ch1 0 = 44#11 ∧ noteMap .ch1 12 = 1046#11 ∧ noteMap .ch1 71 = 2015#11

/-- R62: the region bases, and the length of a valid blob. -/
def Obligations.RegionBases : Prop :=
  ∀ s : State, ordBase = 8 ∧ insBase s = 8 + s.ordlen.toNat ∧
    wavBase s = insBase s + 2 * s.ninstr.toNat ∧ patBase s = wavBase s + 16 * s.nwave.toNat ∧
    blobLen s = patBase s + 768 * s.npat.toNat ∧ (PlayInv s → blobLen s ≤ 49701)

/-! ### Reset and START -/

/-- R45: the power-on values. `base` is unspecified there and is not mentioned here. -/
def Obligations.PowerOnValues : Prop :=
  State.reset.run = false ∧ State.reset.first = false ∧
  State.reset.speed = 0#8 ∧ State.reset.ordlen = 0#8 ∧ State.reset.npat = 0#8 ∧
  State.reset.ninstr = 0#8 ∧ State.reset.nwave = 0#8 ∧
  State.reset.ord = 0#8 ∧ State.reset.row = 0#6 ∧ State.reset.tctr = 0#8 ∧
  State.reset.mute = 0b0000#4 ∧ State.reset.lwid = 0xFF#8 ∧
  ∀ c, State.reset.ch c =
    { note := 0#7, ins := 0#4, fx := 0#4, fxp := 0#8, pitch := 0#11, vol := 0#4, edir := false,
      eper := 0#8, ectr := 0#8, astep := 0, vphase := 0#6, dctr := 0#8, shape := 0#4,
      fout := 0#11, onset := false, hold := false }

/-- The invariant of the machine holds after reset. It rests on the model's own reset value of `base`
(log entry 1) and on the model's own fields. -/
def Obligations.ResetInvariant : Prop := MachineInv State.reset

/-- R46, R92: the whole state after START. The record grows by the six header reads and nothing else
changes. -/
def Obligations.StartState : Prop :=
  ∀ (ptr : Nat) (s : State), HeaderReadable ptr s → ∃ h0 h1 h2 h3 h4 h5 : Byte,
    Memory.read s.mem ptr = some h0 ∧ Memory.read s.mem (ptr + 1) = some h1 ∧
    Memory.read s.mem (ptr + 2) = some h2 ∧ Memory.read s.mem (ptr + 3) = some h3 ∧
    Memory.read s.mem (ptr + 4) = some h4 ∧ Memory.read s.mem (ptr + 5) = some h5 ∧
    exec (.start ptr) s = .next { s with
      base := ptr, speed := h1, ordlen := h2, npat := h3, ninstr := h4, nwave := h5,
      ord := 0#8, row := 0#6, tctr := 1#8, first := true, lwid := 0xFF#8,
      ch1 := Channel.zero, ch2 := Channel.zero, ch3 := Channel.zero, ch4 := Channel.zero,
      run := decide (h0 = 0x01#8 ∧ 1 ≤ h1.toNat ∧ 1 ≤ h2.toNat ∧ 1 ≤ h3.toNat ∧
        h3.toNat ≤ 64 ∧ h4.toNat ≤ 15 ∧ h5.toNat ≤ 16),
      bus := s.bus ++ [.blobRead 0, .blobRead 1, .blobRead 2, .blobRead 3, .blobRead 4,
        .blobRead 5] }

/-- R131: START twice in a row with the same pointer gives the same state as once (the record apart). -/
def Obligations.StartTwiceSameState : Prop :=
  ∀ (ptr : Nat) (s t : State), exec (.start ptr) s = .next t →
    ∃ es, exec (.start ptr) t = .next { t with bus := t.bus ++ es } ∧ sinkTraceOf es = []

/-- R132, R134: after a START that finds an invalid header every TICK is a no-op. -/
def Obligations.InvalidHeaderNeverPlays : Prop :=
  ∀ (ptr : Nat) (s : State) (h0 h1 h2 h3 h4 h5 : Byte),
    Memory.read s.mem ptr = some h0 → Memory.read s.mem (ptr + 1) = some h1 →
    Memory.read s.mem (ptr + 2) = some h2 → Memory.read s.mem (ptr + 3) = some h3 →
    Memory.read s.mem (ptr + 4) = some h4 → Memory.read s.mem (ptr + 5) = some h5 →
    ¬(h0 = 0x01#8 ∧ 1 ≤ h1.toNat ∧ 1 ≤ h2.toNat ∧ 1 ≤ h3.toNat ∧ h3.toNat ≤ 64 ∧
      h4.toNat ≤ 15 ∧ h5.toNat ≤ 16) →
    ∃ t, exec (.start ptr) s = .next t ∧ t.run = false ∧ t.speed = h1 ∧ t.ordlen = h2 ∧
      t.npat = h3 ∧ t.ninstr = h4 ∧ t.nwave = h5 ∧ ∀ k, ticks k t = .next t

/-! ### NOP, RESETWAVE and an idle TICK -/

/-- R142: the command NOP, whose code is 0b00. -/
def Obligations.NopChangesNothing : Prop :=
  ∀ s, exec .nop s = .next s ∧ ∀ ptr, exec (decodeCommand 0b00#2 ptr) s = .next s

/-- R140: the resident waveform is forgotten; nothing else changes, playing or not. -/
def Obligations.ResetwaveForgets : Prop :=
  ∀ s, exec .resetwave s = .next { s with lwid := 0xFF#8 }

/-- R134. -/
def Obligations.TickWithoutSong : Prop := ∀ s, s.run = false → exec .tick s = .next s

/-! ### TICK -/

/-- R133, R135, R180, R210, R213, R80: a TICK that is no row boundary. It counts down, runs every
channel's effects, and writes every channel that is not held, in order; it reads nothing, triggers
nothing, leaves no access of `MUTE` to come and changes nothing else. Any accesses of `MUTE` may fall
inside it; where they fall is told by the samples (log entry 9). -/
def Obligations.TickBetweenRows : Prop :=
  ∀ s : State, BlockInv s → s.run = true → s.tctr ≠ 1#8 →
    ∃ (x : Chan → Channel) (es : List BusEvent),
      (∀ c, x c = { effectStep c (s.ch c) with
        hold := sampledBit c s || (s.ch c).hold }) ∧
      exec .tick s = .next { s with
        tctr := s.tctr - 1#8, ch1 := x .ch1, ch2 := x .ch2, ch3 := x .ch3, ch4 := x .ch4,
        mute := muteAfter s.mid.all s.mute, mid := MidAccesses.none, bus := s.bus ++ es } ∧
      readTraceOf es = [] ∧
      sampleTraceOf es = [.ch1, .ch2, .ch3, .ch4].map (fun c => (c, sampledBit c s)) ∧
      sinkTraceOf es = [.ch1, .ch2, .ch3, .ch4].flatMap (fun c =>
        if (x c).hold then [] else
          [(8 * chanIndex c, (x c).shape.setWidth 11), (8 * chanIndex c + 1, (x c).vol.setWidth 11),
            (8 * chanIndex c + 2, (x c).fout)])

/-- R135, R136, R137: the position after a TICK that is a row boundary. -/
def Obligations.RowBoundaryPosition : Prop :=
  ∀ s : State, BlockInv s → s.run = true → BlobReadable s → s.tctr = 1#8 →
    ∃ t, exec .tick s = .next t ∧ t.tctr = s.speed ∧ t.first = false ∧
      (s.first = true → t.row = s.row ∧ t.ord = s.ord) ∧
      (s.first = false → s.row.toNat ≠ 63 → t.row.toNat = s.row.toNat + 1 ∧ t.ord = s.ord) ∧
      (s.first = false → s.row.toNat = 63 → t.row.toNat = 0 ∧
        (s.ord.toNat + 1 = s.ordlen.toNat → t.ord.toNat = 0) ∧
        (s.ord.toNat + 1 ≠ s.ordlen.toNat → t.ord.toNat = s.ord.toNat + 1))

/-- R139: who writes the position, and the position after `k` TICKs from a valid START. -/
def Obligations.PositionClosedForm : Prop :=
  (∀ (i : Instr) (s t : State), exec i s = .next t →
    (∀ ptr, i ≠ .start ptr) → i ≠ .tick →
    t.ord = s.ord ∧ t.row = s.row ∧ t.tctr = s.tctr ∧ t.first = s.first) ∧
  (∀ (ptr : Nat) (s t : State), exec (.start ptr) s = .next t →
    t.ord = 0#8 ∧ t.row = 0#6 ∧ t.tctr = 1#8 ∧ t.first = true) ∧
  (∀ (ptr : Nat) (s s0 t : State) (k : Nat), exec (.start ptr) s = .next s0 → s0.run = true →
    1 ≤ k → ticks k s0 = .next t →
    t.row.toNat = (k - 1) / s0.speed.toNat % 64 ∧
    t.ord.toNat = (k - 1) / s0.speed.toNat / 64 % s0.ordlen.toNat ∧
    t.tctr.toNat = s0.speed.toNat - (k - 1) % s0.speed.toNat ∧ t.first = false)

/-- R133, R138, R160, R180: a row-boundary TICK fetches, decodes and executes the row's four cells, as
instructions of their columns, and then commits. (On the machine the triggers come before the effect
steps; a cell's execution is its trigger and its channel's effect step.) -/
def Obligations.RowRunsDecodedCells : Prop :=
  ∀ s : State, s.run = true → s.tctr = 1#8 →
    exec .tick s = andThen (runRow (rowBoundary s)) commitPass

/-- R138, R96, R233: the reads of a row-boundary TICK begin with the order entry; those in the pattern
table are the twelve bytes of the row, of the pattern the entry names or, where it is out of range, of
the last pattern. -/
def Obligations.RowFetchAddresses : Prop :=
  ∀ s t : State, s.run = true → s.tctr = 1#8 → BlockInv s → exec .tick s = .next t →
    ∃ es e, t.bus = s.bus ++ es ∧ Memory.read s.mem (s.base + 8 + t.ord.toNat) = some e ∧
      (readTraceOf es).head? = some (8 + t.ord.toNat) ∧
      (readTraceOf es).filter (fun off => decide (patBase s ≤ off)) =
        (List.range 12).map (fun k =>
          patBase s + 768 * (if e.toNat < s.npat.toNat then e.toNat else s.npat.toNat - 1) +
            12 * t.row.toNat + k)

/-- R143: a TICK of a playing song whose blob is readable completes; no song, however malformed, makes
it stop. -/
def Obligations.TickCompletes : Prop :=
  ∀ s : State, BlockInv s → (s.run = true → BlobReadable s) → ∃ t, exec .tick s = .next t

/-- R63: START reads offsets 0 to 5 and nothing else; while a song plays every read lies in
`[8, BLOBLEN)`. -/
def Obligations.BlobReadsInBounds : Prop :=
  (∀ (ptr : Nat) (s t : State), exec (.start ptr) s = .next t →
    ∃ es, t.bus = s.bus ++ es ∧ readTraceOf es = [0, 1, 2, 3, 4, 5]) ∧
  (∀ s t : State, BlockInv s → exec .tick s = .next t →
    ∃ es, t.bus = s.bus ++ es ∧ ∀ off ∈ readTraceOf es, 8 ≤ off ∧ off < blobLen s) ∧
  (∀ s t : State, exec .nop s = .next t ∨ exec .resetwave s = .next t → t.bus = s.bus)

/-- R143, R69: the accesses of a command are bounded, and a TICK of a playing song samples each channel's
mute bit once, in order. -/
def Obligations.AccessBounds : Prop :=
  (∀ s t : State, exec .tick s = .next t → ∃ es, t.bus = s.bus ++ es ∧
    (readTraceOf es).length ≤ 37 ∧ (sinkTraceOf es).length ≤ 32 ∧
    (s.run = true → (sampleTraceOf es).map Prod.fst = [.ch1, .ch2, .ch3, .ch4])) ∧
  (∀ (ptr : Nat) (s t : State), exec (.start ptr) s = .next t → ∃ es, t.bus = s.bus ++ es ∧
    (readTraceOf es).length = 6 ∧ sinkTraceOf es = [] ∧ sampleTraceOf es = [])

/-- R69, R75: whatever accesses of `MUTE` fall inside a TICK, and wherever, each channel samples its bit of
`MUTE` as the accesses before its sample left it, so a write is seen by the channels sampled after it and
by no other; each host read returns `MUTE` as it then stands; all accesses have happened at the end.
Placing the accesses by the samples they precede is the model's reading (log entry 9). -/
def Obligations.MidTickMuteWrite : Prop :=
  ∀ s t : State, s.run = true → exec .tick s = .next t →
    ∃ m1 m2 m3 m4 : BitVec 4,
      m1 = muteAfter s.mid.before1 s.mute ∧ m2 = muteAfter s.mid.before2 m1 ∧
      m3 = muteAfter s.mid.before3 m2 ∧ m4 = muteAfter s.mid.before4 m3 ∧
      t.mute = m4 ∧ t.mid = MidAccesses.none ∧ ∃ es, t.bus = s.bus ++ es ∧
      sampleTraceOf es = [(.ch1, m1.getLsbD 0), (.ch2, m2.getLsbD 1), (.ch3, m3.getLsbD 2),
        (.ch4, m4.getLsbD 3)] ∧
      muteTraceOf es =
        muteAnswers s.mid.before1 s.mute ++ .muteSample .ch1 (m1.getLsbD 0) ::
        (muteAnswers s.mid.before2 m1 ++ .muteSample .ch2 (m2.getLsbD 1) ::
        (muteAnswers s.mid.before3 m2 ++ .muteSample .ch3 (m3.getLsbD 2) ::
        (muteAnswers s.mid.before4 m3 ++ [.muteSample .ch4 (m4.getLsbD 3)])))

/-! ### Commit -/

/-- R211: the hold latch, and that a channel is written exactly when it is not held after it. -/
def Obligations.HoldLatch : Prop :=
  ∀ (c : Chan) (s t : State), commit c s = .next t → ∃ es m, t.bus = s.bus ++ es ∧
    sampleTraceOf es = [(c, m)] ∧
    (m = true → (t.ch c).hold = true) ∧
    (m = false → (s.ch c).onset = true → (t.ch c).hold = false) ∧
    (m = false → (s.ch c).onset = false → (t.ch c).hold = (s.ch c).hold) ∧
    (sinkTraceOf es = [] ↔ (t.ch c).hold = true)

/-- R213, R214, R215, R66: the write set of a channel that is not held, with its register numbers; on
CH3 the waveform memory aside. `onset` is cleared; no other register of the channel but the latch
changes, and no other channel. -/
def Obligations.CommitWriteSet : Prop :=
  ∀ (c : Chan) (s t : State), ChannelInv c s.ninstr (s.ch c) → commit c s = .next t →
    t.ch c = { s.ch c with hold := (t.ch c).hold, onset := false } ∧
    (∀ d, d ≠ c → t.ch d = s.ch d) ∧
    ∃ es, t.bus = s.bus ++ es ∧ ((t.ch c).hold = false →
      (sinkTraceOf es).filter (fun w => decide (w.1 < 32)) =
        [(8 * chanIndex c, (s.ch c).shape.setWidth 11),
          (8 * chanIndex c + 1, (s.ch c).vol.setWidth 11),
          (8 * chanIndex c + 2, (s.ch c).fout)] ++
        if (s.ch c).onset then [(8 * chanIndex c + 3, 1#11)] else [])

/-- R216, R217, R218: the wave guard. The sixteen bytes of the waveform go to `WAVE[0..15]` in order, before
the other writes of CH3, exactly when CH3 is not held, has an onset, its index is in the table and
another waveform is resident; only then does `lwid` change. The waveform memory then holds the 32 samples
of the waveform (R95, R66). -/
def Obligations.WaveGuardLoads : Prop :=
  ∀ s t : State, commit .ch3 s = .next t → ∃ es, t.bus = s.bus ++ es ∧
    (((t.ch .ch3).hold = false ∧ (s.ch .ch3).onset = true ∧
        (s.ch .ch3).shape.toNat < s.nwave.toNat ∧ s.lwid.toNat ≠ (s.ch .ch3).shape.toNat) →
      t.lwid.toNat = (s.ch .ch3).shape.toNat ∧
      readTraceOf es =
        (List.range 16).map (fun k => wavBase s + 16 * (s.ch .ch3).shape.toNat + k) ∧
      ∃ bs : List Byte, bs.length = 16 ∧
        (∀ k, k < 16 → Memory.read s.mem
          (s.base + (wavBase s + 16 * (s.ch .ch3).shape.toNat + k)) = bs[k]?) ∧
        (sinkTraceOf es).take 16 = (bs.zipIdx.map (fun x => (32 + x.2, x.1.setWidth 11))) ∧
        ∀ k, k < 32 → residentSample k (sinkTraceOf t.bus) =
          (bs[k / 2]?).map (fun b => if k % 2 = 0 then b.extractLsb' 4 4 else b.extractLsb' 0 4)) ∧
    (¬((t.ch .ch3).hold = false ∧ (s.ch .ch3).onset = true ∧
        (s.ch .ch3).shape.toNat < s.nwave.toNat ∧ s.lwid.toNat ≠ (s.ch .ch3).shape.toNat) →
      t.lwid = s.lwid ∧ readTraceOf es = [] ∧ ∀ w ∈ sinkTraceOf es, w.1 < 32)

/-- R212, R219, R67: a channel whose mute bit is sampled 1 in a TICK is not written in it, note trigger or
not; its sink registers keep what was last written. -/
def Obligations.MutedChannelSilent : Prop :=
  ∀ (s t : State) (c : Chan), exec .tick s = .next t → ∃ es, t.bus = s.bus ++ es ∧
    ((c, true) ∈ sampleTraceOf es → (t.ch c).hold = true ∧ writesOf c (sinkTraceOf es) = [] ∧
      ∀ n, ownsSinkReg c n = true →
        lastWritten n (sinkTraceOf t.bus) = lastWritten n (sinkTraceOf s.bus))

/-- R212, R219: after its mute bit was cleared a held channel stays unwritten until a TICK that triggers a
note on it: on every TICK between rows, and on a row boundary whose cell for the channel has no valid
note, whatever `MUTE` is and whatever accesses of it fall inside the TICK. -/
def Obligations.UnmuteWaitsForNote : Prop :=
  ∀ (s : State) (c : Chan), BlockInv s → s.run = true → (s.ch c).hold = true →
    (s.tctr = 1#8 → BlobReadable s ∧ ∀ b, nextNoteByte c s = some b → 72 ≤ b.toNat) →
    ∃ t es, exec .tick s = .next t ∧ t.bus = s.bus ++ es ∧ (t.ch c).hold = true ∧
      writesOf c (sinkTraceOf es) = []

/-- R212, R219: the TICK that triggers a note on a channel and samples its mute bit 0 writes the channel's
full set, `TRIG` included, whether or not the channel was held; on CH3 the waveform memory aside. The bit
it samples is told by the accesses of `MUTE` placed before its sample, which is the model's reading of
R69 (log entry 9). -/
def Obligations.UnmuteResumesAtNote : Prop :=
  ∀ (s : State) (c : Chan) (b : Byte), BlockInv s → s.run = true → BlobReadable s → s.tctr = 1#8 →
    nextNoteByte c s = some b → b.toNat ≤ 71 → sampledBit c s = false →
    ∃ t es, exec .tick s = .next t ∧ t.bus = s.bus ++ es ∧ (t.ch c).hold = false ∧
      (t.ch c).note.toNat = b.toNat ∧
      (writesOf c (sinkTraceOf es)).filter (fun w => decide (w.1 < 32)) =
        [(8 * chanIndex c, (t.ch c).shape.setWidth 11), (8 * chanIndex c + 1, (t.ch c).vol.setWidth 11),
          (8 * chanIndex c + 2, (t.ch c).fout), (8 * chanIndex c + 3, 1#11)]

/-- R144: a TICK depends on the registers, `MUTE` and the blob bytes in `[8, BLOBLEN)` alone: two states
that agree on these get the same registers and add the same events, wherever their blobs lie. -/
def Obligations.TickDeterminedByBlob : Prop :=
  ∀ s s' t : State, BlockInv s → SameRegisters s s' →
    (∀ off, 8 ≤ off → off < blobLen s →
      Memory.read s'.mem (s'.base + off) = Memory.read s.mem (s.base + off)) →
    exec .tick s = .next t → ∃ t' es, exec .tick s' = .next t' ∧ SameRegisters t t' ∧
      t.bus = s.bus ++ es ∧ t'.bus = s'.bus ++ es

/-- R219: the writes of a channel in a TICK do not depend on the registers of another channel. -/
def Obligations.ChannelsIndependent : Prop :=
  ∀ (s t t' : State) (c d : Chan) (x : Channel), c ≠ d →
    exec .tick s = .next t → exec .tick (s.setCh d x) = .next t' →
    ∃ es es', t.bus = s.bus ++ es ∧ t'.bus = s.bus ++ es' ∧
      writesOf c (sinkTraceOf es) = writesOf c (sinkTraceOf es') ∧ t.ch c = t'.ch c

/-! ### Cells -/

/-- R185, R161: `NON`. An empty cell changes nothing by its trigger: the running effect goes on. Any other
`NON` cell ends the running effect and outputs the pitch. R94, R166: with a note and an instrument of the
table, the channel it steps from has taken the instrument's fields: volume from byte 0 bits 7:4,
direction from bit 3, period from bits 2:0, and the shape from byte 1 bits 7:6 (CH1, CH2), 3:0 (CH3) or 5
(CH4). -/
def Obligations.NonCell : Prop :=
  ∀ (c : Chan) (n : Byte) (i : BitVec 4) (p : Byte) (s : State), CellReadable c n i s →
    (hasNote n = false → hasIns i s.ninstr = false →
      exec (.non c n i p) s = .next (s.setCh c (effectStep c (s.ch c)))) ∧
    (hasNote n = true ∨ hasIns i s.ninstr = true → ∃ x,
      exec (.non c n i p) s = .next (afterCell c n i s x) ∧
      x = { envelopeStep (afterLoad c n i 0#4 p s) with fout := (afterNote c n i s).pitch }) ∧
    (∀ b0 b1 : Byte, n.toNat ≤ 71 → 1 ≤ i.toNat → i.toNat ≤ s.ninstr.toNat →
      Memory.read s.mem (s.base + (insBase s + 2 * (i.toNat - 1))) = some b0 →
      Memory.read s.mem (s.base + (insBase s + 2 * (i.toNat - 1) + 1)) = some b1 →
      ∃ x y, exec (.non c n i p) s = .next (afterCell c n i s x) ∧
        x = { envelopeStep y with fout := y.pitch } ∧ y.ins = i ∧ y.note.toNat = n.toNat ∧
        y.pitch = noteMap c n.toNat ∧ y.onset = true ∧ y.fx = 0#4 ∧ y.fxp = p ∧
        y.vol.toNat = b0.toNat / 16 ∧ y.edir = decide (b0.toNat / 8 % 2 = 1) ∧
        y.eper.toNat = b0.toNat % 8 ∧ y.ectr = 0#8 ∧
        y.shape.toNat = (match c with
          | .ch1 | .ch2 => b1.toNat / 64
          | .ch3 => b1.toNat % 16
          | .ch4 => b1.toNat / 32 % 2))

/-- R186: `SLU` on the tick that loads it: integer sum, clamped, accumulated before the output. -/
def Obligations.SluCell : Prop :=
  ∀ (c : Chan) (n : Byte) (i : BitVec 4) (p : Byte) (s : State), CellReadable c n i s → ∃ x,
    exec (.slu c n i p) s = .next (afterCell c n i s x) ∧
    x = { envelopeStep (afterLoad c n i 1#4 p s) with pitch := x.pitch, fout := x.pitch } ∧
    x.pitch.toNat = min ((afterNote c n i s).pitch.toNat + p.toNat) (if c = .ch4 then 255 else 2047)

/-- R187: `SLD` on the tick that loads it. -/
def Obligations.SldCell : Prop :=
  ∀ (c : Chan) (n : Byte) (i : BitVec 4) (p : Byte) (s : State), CellReadable c n i s → ∃ x,
    exec (.sld c n i p) s = .next (afterCell c n i s x) ∧
    x = { envelopeStep (afterLoad c n i 2#4 p s) with pitch := x.pitch, fout := x.pitch } ∧
    (x.pitch.toNat : Int) = max (((afterNote c n i s).pitch.toNat : Int) - p.toNat) 0

/-- R189: `ARP`. The loading tick plays offset 0 and steps; on every tick the output is the table note of
`note` plus the step's offset, clamped at 71, and the step goes 0, 1, 2, 0. -/
def Obligations.ArpCell : Prop :=
  (∀ (c : Chan) (n : Byte) (i : BitVec 4) (p : Byte) (s : State), CellReadable c n i s → ∃ x,
    exec (.arp c n i p) s = .next (afterCell c n i s x) ∧
    x = { envelopeStep (afterLoad c n i 3#4 p s) with
      fout := noteMap c (min (afterNote c n i s).note.toNat 71), astep := 1 }) ∧
  (∀ (c : Chan) (x : Channel), x.fx = 3#4 → effectStep c x = { envelopeStep x with
    fout := noteMap c (min (x.note.toNat + if x.astep = 0 then 0
      else if x.astep = 1 then x.fxp.toNat / 16 else x.fxp.toNat % 16) 71),
    astep := if x.astep = 0 then 1 else if x.astep = 1 then 2 else 0 })

/-- R190: `VIB`. The loading tick has phase 0 and offset 0; on every tick the output is the pitch, plus or
minus the depth in quadrants 1 and 3, clamped, and the phase advances by the rate modulo 64. -/
def Obligations.VibCell : Prop :=
  (∀ (c : Chan) (n : Byte) (i : BitVec 4) (p : Byte) (s : State), CellReadable c n i s → ∃ x,
    exec (.vib c n i p) s = .next (afterCell c n i s x) ∧
    x = { envelopeStep (afterLoad c n i 4#4 p s) with
      fout := (afterNote c n i s).pitch, vphase := x.vphase } ∧ x.vphase.toNat = p.toNat / 16) ∧
  (∀ (c : Chan) (x : Channel), x.fx = 4#4 → ∃ y, effectStep c x = y ∧
    y = { envelopeStep x with fout := y.fout, vphase := y.vphase } ∧
    y.vphase.toNat = (x.vphase.toNat + x.fxp.toNat / 16) % 64 ∧
    (x.vphase.toNat / 16 = 0 ∨ x.vphase.toNat / 16 = 2 → y.fout = x.pitch) ∧
    (x.vphase.toNat / 16 = 1 → y.fout.toNat =
      min (x.pitch.toNat + x.fxp.toNat % 16) (if c = .ch4 then 255 else 2047)) ∧
    (x.vphase.toNat / 16 = 3 → (y.fout.toNat : Int) =
      max ((x.pitch.toNat : Int) - (x.fxp.toNat % 16 : Nat)) 0))

/-- R191, R169: `VFI` reprograms the envelope upward at load time, after the instrument's defaults; the
envelope runs on the loading tick, and the output is the pitch. -/
def Obligations.VfiCell : Prop :=
  ∀ (c : Chan) (n : Byte) (i : BitVec 4) (p : Byte) (s : State), CellReadable c n i s → ∃ x,
    exec (.vfi c n i p) s = .next (afterCell c n i s x) ∧
    x = { envelopeStep { afterLoad c n i 5#4 p s with edir := true, eper := p, ectr := 0#8 } with
      fout := (afterNote c n i s).pitch } ∧
    x.vol.toNat = min ((afterNote c n i s).vol.toNat + if p = 1#8 then 1 else 0) 15

/-- R192, R169: `VFO`, downward. -/
def Obligations.VfoCell : Prop :=
  ∀ (c : Chan) (n : Byte) (i : BitVec 4) (p : Byte) (s : State), CellReadable c n i s → ∃ x,
    exec (.vfo c n i p) s = .next (afterCell c n i s x) ∧
    x = { envelopeStep { afterLoad c n i 6#4 p s with edir := false, eper := p, ectr := 0#8 } with
      fout := (afterNote c n i s).pitch } ∧
    x.vol.toNat = (afterNote c n i s).vol.toNat - if p = 1#8 then 1 else 0

/-- R193: `DCY`. On CH1 and CH2 with a period that is not 0 the counter counts up and, at the period,
returns to 0 and steps the duty modulo 4; on CH3 and CH4 and with `P = 0` nothing cycles. -/
def Obligations.DcyCell : Prop :=
  (∀ (c : Chan) (n : Byte) (i : BitVec 4) (p : Byte) (s : State), CellReadable c n i s → ∃ x,
    exec (.dcy c n i p) s = .next (afterCell c n i s x) ∧
    x = { envelopeStep (afterLoad c n i 7#4 p s) with
      fout := (afterNote c n i s).pitch, dctr := x.dctr, shape := x.shape } ∧
    (isPulse c = true → p = 1#8 →
      x.dctr = 0#8 ∧ x.shape.toNat = ((afterNote c n i s).shape.toNat + 1) % 4) ∧
    (isPulse c = true → 2 ≤ p.toNat → x.dctr = 1#8 ∧ x.shape = (afterNote c n i s).shape) ∧
    (isPulse c = false ∨ p = 0#8 → x.dctr = 0#8 ∧ x.shape = (afterNote c n i s).shape)) ∧
  (∀ (c : Chan) (x : Channel), x.fx = 7#4 → (x.fxp ≠ 0#8 → x.dctr.toNat < x.fxp.toNat) →
    ∃ y, effectStep c x = y ∧
    y = { envelopeStep x with fout := x.pitch, dctr := y.dctr, shape := y.shape } ∧
    (isPulse c = true → x.fxp ≠ 0#8 → x.dctr.toNat + 1 = x.fxp.toNat →
      y.dctr.toNat = 0 ∧ y.shape.toNat = (x.shape.toNat + 1) % 4) ∧
    (isPulse c = true → x.fxp ≠ 0#8 → x.dctr.toNat + 1 ≠ x.fxp.toNat →
      y.dctr.toNat = x.dctr.toNat + 1 ∧ y.shape = x.shape) ∧
    (isPulse c = false ∨ x.fxp = 0#8 → y.dctr = x.dctr ∧ y.shape = x.shape))

/-- R194, R105: the eight reserved codes act as no effect: the pitch is output, the code is stored, and the
channel is otherwise as `NON` would leave it. -/
def Obligations.ReservedCells : Prop :=
  ∀ (c : Chan) (n : Byte) (i : BitVec 4) (p : Byte) (s : State), CellReadable c n i s →
    ∀ r ∈ [(Instr.rs8 c n i p, 0x8#4), (Instr.rs9 c n i p, 0x9#4), (Instr.rsa c n i p, 0xA#4),
      (Instr.rsb c n i p, 0xB#4), (Instr.rsc c n i p, 0xC#4), (Instr.rsd c n i p, 0xD#4),
      (Instr.rse c n i p, 0xE#4), (Instr.rsf c n i p, 0xF#4)],
    exec r.1 s = .next (afterCell c n i s
      { envelopeStep (afterLoad c n i r.2 p s) with fout := (afterNote c n i s).pitch }) ∧
    (hasNote n = true ∨ hasIns i s.ninstr = true → ∀ u, exec (.non c n i p) s = .next u →
      exec r.1 s = .next (u.setCh c { u.ch c with fx := r.2 }))

/-- R171: no cell, whatever its code, writes the sink, samples or changes `MUTE`, changes `hold`, another
channel, the position, the header registers, `lwid` or memory; it reads its instrument's bytes alone. -/
def Obligations.CellFrame : Prop :=
  ∀ (c : Chan) (n : Byte) (i f : BitVec 4) (p : Byte) (s t : State),
    exec (cellOfFields c n i f p) s = .next t →
    t = { s.setCh c (t.ch c) with bus := s.bus ++ defaultsReads c n i s } ∧
    (t.ch c).hold = (s.ch c).hold ∧ (t.ch c).ins = insAfter c i s ∧
    (hasNote n = false → (t.ch c).note = (s.ch c).note ∧ (t.ch c).onset = (s.ch c).onset) ∧
    (emptyCell n i f s.ninstr = false → (t.ch c).fx = f ∧ (t.ch c).fxp = p)

/-- R170, R164, R99, R100: a note byte 72 to 254 acts exactly as no note and an instrument field above
`ninstr` exactly as no instrument, in a cell of any code. -/
def Obligations.OutOfRangeFieldsIgnored : Prop :=
  ∀ (c : Chan) (n : Byte) (i f : BitVec 4) (p : Byte) (s : State),
    (72 ≤ n.toNat → exec (cellOfFields c n i f p) s = exec (cellOfFields c 0xFF#8 i f p) s) ∧
    (s.ninstr.toNat < i.toNat →
      exec (cellOfFields c n i f p) s = exec (cellOfFields c n 0#4 f p) s)

/-- A cell stops, by name, exactly when it loads an instrument one of whose two bytes the caller's memory
does not list (R64, 93_implementation_defined.md U5; log entry 2). -/
def Obligations.CellStopsOnUnreadable : Prop :=
  ∀ (c : Chan) (n : Byte) (i f : BitVec 4) (p : Byte) (s : State),
    (∃ r, exec (cellOfFields c n i f p) s = .refused r) ↔ ¬CellReadable c n i s

/-! ### The effects over time -/

/-- R181, R182: the envelope generator, in the effect step of any code. -/
def Obligations.EnvelopeGenerator : Prop :=
  ∀ (c : Chan) (x : Channel), (x.eper ≠ 0#8 → x.ectr.toNat < x.eper.toNat) →
    ∃ y, effectStep c x = y ∧ y.edir = x.edir ∧
    (x.eper = 0#8 → y.vol = x.vol ∧ y.eper = x.eper ∧ y.ectr = x.ectr) ∧
    (x.eper ≠ 0#8 → x.ectr.toNat + 1 ≠ x.eper.toNat →
      y.vol = x.vol ∧ y.eper = x.eper ∧ y.ectr.toNat = x.ectr.toNat + 1) ∧
    (x.eper ≠ 0#8 → x.ectr.toNat + 1 = x.eper.toNat → y.ectr = 0#8 ∧
      (x.edir = true → x.vol.toNat = 15 → y.vol = x.vol ∧ y.eper = 0#8) ∧
      (x.edir = true → x.vol.toNat ≠ 15 → y.vol.toNat = x.vol.toNat + 1 ∧ y.eper = x.eper) ∧
      (x.edir = false → x.vol.toNat = 0 → y.vol = x.vol ∧ y.eper = 0#8) ∧
      (x.edir = false → x.vol.toNat ≠ 0 → y.vol.toNat + 1 = x.vol.toNat ∧ y.eper = x.eper))

/-- R183: the closed form of the envelope: `vol = sat(v0 + d * floor(k / e), 0, 15)`. -/
def Obligations.EnvelopeClosedForm : Prop :=
  ∀ (c : Chan) (x : Channel) (k : Nat), x.ectr = 0#8 → 1 ≤ x.eper.toNat →
    (x.edir = true → (effectSteps c k x).vol.toNat = min (x.vol.toNat + k / x.eper.toNat) 15) ∧
    (x.edir = false → (effectSteps c k x).vol.toNat = x.vol.toNat - k / x.eper.toNat)

/-- R188: the slide law, from the tick that loads the slide (`N = 1`) on: the pitch, and the output, are
exactly `N` deltas from where the slide began, clamped. -/
def Obligations.SlideLaw : Prop :=
  ∀ (c : Chan) (n : Byte) (i : BitVec 4) (p : Byte) (s t : State) (k : Nat),
    (exec (.slu c n i p) s = .next t →
      (effectSteps c k (t.ch c)).pitch.toNat =
        min ((afterNote c n i s).pitch.toNat + (k + 1) * p.toNat) (pMax c) ∧
      (effectSteps c k (t.ch c)).fout = (effectSteps c k (t.ch c)).pitch) ∧
    (exec (.sld c n i p) s = .next t →
      (effectSteps c k (t.ch c)).pitch.toNat =
        (afterNote c n i s).pitch.toNat - (k + 1) * p.toNat ∧
      (effectSteps c k (t.ch c)).fout = (effectSteps c k (t.ch c)).pitch)

/-- R189, R190, R193: the modular counters `k` ticks after a load: the arpeggio step is `k mod 3`, the
vibrato phase `k * rate mod 64`, the duty `(d0 + floor(k / P)) mod 4`. -/
def Obligations.PeriodicEffects : Prop :=
  ∀ (c : Chan) (x : Channel) (k : Nat),
    (x.fx = 3#4 → x.astep = 0 → (effectSteps c k x).astep.val = k % 3) ∧
    (x.fx = 4#4 → x.vphase = 0#6 →
      (effectSteps c k x).vphase.toNat = k * (x.fxp.toNat / 16) % 64) ∧
    (x.fx = 7#4 → x.dctr = 0#8 → isPulse c = true → x.fxp ≠ 0#8 → x.shape.toNat ≤ 3 →
      (effectSteps c k x).shape.toNat = (x.shape.toNat + k / x.fxp.toNat) % 4)

/-! ### The whole machine -/

/-- R28, R48, R36, R37, R47: every step keeps the invariant, from every state that meets it. -/
def Obligations.StepKeepsInvariant : Prop :=
  ∀ s t : State, MachineInv s → step s = .next t → MachineInv t

/-- R61, R29, R75: no instruction writes the blob or the host's inputs, and none writes `MUTE` (without a
host access inside it); the record only grows. -/
def Obligations.NeverWritesBlobOrMute : Prop :=
  ∀ (i : Instr) (s t : State), exec i s = .next t →
    (∀ a, Memory.read t.mem a = Memory.read s.mem a) ∧ t.mem = s.mem ∧ t.port = s.port ∧
    (s.mid = MidAccesses.none → t.mute = s.mute) ∧ ∃ es, t.bus = s.bus ++ es

/-- R21, R23, R24: `run`, `base` and the cached header registers are written by START alone. -/
def Obligations.OnlyStartWritesHeader : Prop :=
  ∀ (i : Instr) (s t : State), exec i s = .next t → (∀ ptr, i ≠ .start ptr) →
    t.run = s.run ∧ t.base = s.base ∧ t.speed = s.speed ∧ t.ordlen = s.ordlen ∧
    t.npat = s.npat ∧ t.ninstr = s.ninstr ∧ t.nwave = s.nwave

/-- R30: only START, RESETWAVE and a wave load write `lwid`; after any instruction it is the sentinel, its
old value, or an index of the waveform table. -/
def Obligations.LoadedWaveIdentity : Prop :=
  ∀ (i : Instr) (s t : State), exec i s = .next t →
    t.lwid = s.lwid ∨ t.lwid = 0xFF#8 ∧ ((∃ ptr, i = .start ptr) ∨ i = .resetwave) ∨
    (i = .tick ∧ t.lwid.toNat < s.nwave.toNat ∧ t.lwid.toNat = (t.ch .ch3).shape.toNat)

/-- R65, R80, R213: only a TICK of a playing song writes the sink. -/
def Obligations.OnlyTickWritesSink : Prop :=
  ∀ (i : Instr) (s t : State), exec i s = .next t → (i ≠ .tick ∨ s.run = false) →
    sinkTraceOf t.bus = sinkTraceOf s.bus

/-! ### Steps -/

/-- R130: a step takes the command first in line, decodes and executes it to completion. That the host's
commands stand in a list (log entry 6) and that its `MUTE` accesses after which the command took no
sample happen at the command's end (log entry 9) is the model's reading. -/
def Obligations.StepRunsCommand : Prop :=
  ∀ (s : State) (code : BitVec 2) (ptr : Nat) (mid : MidAccesses) (rest : List HostEvent),
    s.port = .command code ptr mid :: rest →
    step s = andThen (exec (decodeCommand code ptr) { s with port := rest, mid := mid })
      (fun t => .next (landAll t))

/-- R69, R29: whatever command runs and whatever accesses of `MUTE` fall inside it, `MUTE` afterwards is what
those accesses left, none is still to come, and each host read was answered with `MUTE` as it then
stood. That accesses no sample follows happen at the command's end is the model's reading (log entry
9). -/
def Obligations.StepCommandMute : Prop :=
  ∀ (s t : State) (code : BitVec 2) (ptr : Nat) (mid : MidAccesses) (rest : List HostEvent),
    s.port = .command code ptr mid :: rest → step s = .next t →
    t.mute = muteAfter mid.all s.mute ∧ t.mid = MidAccesses.none ∧ t.port = rest ∧
    ∃ es, t.bus = s.bus ++ es ∧
      (muteTraceOf es).filter isMuteAnswer =
        muteAnswers mid.all s.mute

/-- R69, R141: a host write stores bits 3:0 and causes no sink write; a host read returns `MUTE`
zero-extended. The list in which the host's actions stand is the model's (log entry 6). -/
def Obligations.StepMuteAccess : Prop :=
  ∀ (s : State) (rest : List HostEvent) (b : Byte),
    (s.port = .access (.write b) :: rest →
      step s = .next { s with port := rest, mute := BitVec.ofNat 4 (b.toNat % 16) }) ∧
    (s.port = .access .read :: rest →
      step s = .next { s with
        port := rest, bus := s.bus ++ [.muteRead (BitVec.ofNat 8 s.mute.toNat)] })

/-- R64, R78: a store of the caller to its own memory stores that byte and nothing else, unless it would
change the blob of the song that is playing; that is caller misuse and has no meaning (R232 M4, U5). That stores
arrive as host events is the model's choice (log entry 6). -/
def Obligations.StepCallerStore : Prop :=
  ∀ (s : State) (rest : List HostEvent) (a : Nat) (b : Byte), s.port = .store a b :: rest →
    ((s.run = true → a < s.base ∨ s.base + blobLen s ≤ a ∨ Memory.read s.mem a = some b) →
      ∃ m, step s = .next { s with port := rest, mem := m } ∧ Memory.read m a = some b ∧
        (∀ a', a' ≠ a → Memory.read m a' = Memory.read s.mem a') ∧
        (Memory.wf s.mem → Memory.wf m)) ∧
    (s.run = true → s.base ≤ a → a < s.base + blobLen s → Memory.read s.mem a ≠ some b →
      step s = .refused (.blobChanged a))

/-- R244, R142: with nothing to do the block keeps all state (an empty port as the idle code: log entry 11). A command issued while another executes has
no meaning (R130, R232; log entry 5). -/
def Obligations.StepIdleAndOverlap : Prop :=
  ∀ s : State, (s.port = [] → step s = .next s) ∧
    (∀ code ptr code2 ptr2 rest, s.port = .overlapped code ptr code2 ptr2 :: rest →
      step s = .refused .commandOverlap)

/-- R230, R64, R143: a step of a machine whose invariant holds and whose host keeps its obligations always
completes: the blob readable while a song plays, the header readable at a START, no overlapped
command, no change of the playing blob. -/
def Obligations.StepCompletes : Prop :=
  ∀ s : State, MachineInv s → (s.run = true → BlobReadable s) →
    (∀ ptr mid rest, s.port = .command 0b01#2 ptr mid :: rest → HeaderReadable ptr s) →
    (∀ code ptr code2 ptr2 rest, s.port ≠ .overlapped code ptr code2 ptr2 :: rest) →
    (∀ a b rest, s.port = .store a b :: rest → s.run = true →
      a < s.base ∨ s.base + blobLen s ≤ a ∨ Memory.read s.mem a = some b) →
    ∃ t, step s = .next t
end

