-- ==== Sys2Proof/Laws/State.lean ====
section
/-! SUPPORT. One lemma per field per update of the state, so that no later proof unfolds a record
update, and the laws of the channel register files. -/

namespace Sys2Proof.Machine

variable (s : State) (c d : Chan) (x y : Channel) (e : BusEvent) (b : Byte)

/-! ### `setCh` -/

@[simp] theorem setCh_run : (s.setCh c x).run = s.run := by cases c <;> rfl
@[simp] theorem setCh_first : (s.setCh c x).first = s.first := by cases c <;> rfl
@[simp] theorem setCh_base : (s.setCh c x).base = s.base := by cases c <;> rfl
@[simp] theorem setCh_speed : (s.setCh c x).speed = s.speed := by cases c <;> rfl
@[simp] theorem setCh_ordlen : (s.setCh c x).ordlen = s.ordlen := by cases c <;> rfl
@[simp] theorem setCh_npat : (s.setCh c x).npat = s.npat := by cases c <;> rfl
@[simp] theorem setCh_ninstr : (s.setCh c x).ninstr = s.ninstr := by cases c <;> rfl
@[simp] theorem setCh_nwave : (s.setCh c x).nwave = s.nwave := by cases c <;> rfl
@[simp] theorem setCh_ord : (s.setCh c x).ord = s.ord := by cases c <;> rfl
@[simp] theorem setCh_row : (s.setCh c x).row = s.row := by cases c <;> rfl
@[simp] theorem setCh_tctr : (s.setCh c x).tctr = s.tctr := by cases c <;> rfl
@[simp] theorem setCh_mute : (s.setCh c x).mute = s.mute := by cases c <;> rfl
@[simp] theorem setCh_lwid : (s.setCh c x).lwid = s.lwid := by cases c <;> rfl
@[simp] theorem setCh_mem : (s.setCh c x).mem = s.mem := by cases c <;> rfl
@[simp] theorem setCh_port : (s.setCh c x).port = s.port := by cases c <;> rfl
@[simp] theorem setCh_mid : (s.setCh c x).mid = s.mid := by cases c <;> rfl
@[simp] theorem setCh_bus : (s.setCh c x).bus = s.bus := by cases c <;> rfl

@[simp] theorem ch_setCh_same : (s.setCh c x).ch c = x := by cases c <;> rfl

theorem ch_setCh_ne (h : d ≠ c) : (s.setCh c x).ch d = s.ch d := by
  cases c <;> cases d <;> first | rfl | exact absurd rfl h

theorem ch_setCh : (s.setCh c x).ch d = if d = c then x else s.ch d := by
  cases c <;> cases d <;> rfl

@[simp] theorem setCh_setCh : (s.setCh c x).setCh c y = s.setCh c y := by cases c <;> rfl

theorem setCh_comm (h : c ≠ d) : (s.setCh c x).setCh d y = (s.setCh d y).setCh c x := by
  cases c <;> cases d <;> first | rfl | exact absurd rfl h

@[simp] theorem setCh_ch : s.setCh c (s.ch c) = s := by cases c <;> rfl

theorem ch1_eq : s.ch1 = s.ch .ch1 := rfl
theorem ch2_eq : s.ch2 = s.ch .ch2 := rfl
theorem ch3_eq : s.ch3 = s.ch .ch3 := rfl
theorem ch4_eq : s.ch4 = s.ch .ch4 := rfl

/-! ### `modCh` -/

variable (f : Channel → Channel)

@[simp] theorem modCh_run : (s.modCh c f).run = s.run := by cases c <;> rfl
@[simp] theorem modCh_first : (s.modCh c f).first = s.first := by cases c <;> rfl
@[simp] theorem modCh_base : (s.modCh c f).base = s.base := by cases c <;> rfl
@[simp] theorem modCh_speed : (s.modCh c f).speed = s.speed := by cases c <;> rfl
@[simp] theorem modCh_ordlen : (s.modCh c f).ordlen = s.ordlen := by cases c <;> rfl
@[simp] theorem modCh_npat : (s.modCh c f).npat = s.npat := by cases c <;> rfl
@[simp] theorem modCh_ninstr : (s.modCh c f).ninstr = s.ninstr := by cases c <;> rfl
@[simp] theorem modCh_nwave : (s.modCh c f).nwave = s.nwave := by cases c <;> rfl
@[simp] theorem modCh_ord : (s.modCh c f).ord = s.ord := by cases c <;> rfl
@[simp] theorem modCh_row : (s.modCh c f).row = s.row := by cases c <;> rfl
@[simp] theorem modCh_tctr : (s.modCh c f).tctr = s.tctr := by cases c <;> rfl
@[simp] theorem modCh_mute : (s.modCh c f).mute = s.mute := by cases c <;> rfl
@[simp] theorem modCh_lwid : (s.modCh c f).lwid = s.lwid := by cases c <;> rfl
@[simp] theorem modCh_mem : (s.modCh c f).mem = s.mem := by cases c <;> rfl
@[simp] theorem modCh_port : (s.modCh c f).port = s.port := by cases c <;> rfl
@[simp] theorem modCh_mid : (s.modCh c f).mid = s.mid := by cases c <;> rfl
@[simp] theorem modCh_bus : (s.modCh c f).bus = s.bus := by cases c <;> rfl

@[simp] theorem ch_modCh_same : (s.modCh c f).ch c = f (s.ch c) := by cases c <;> rfl

theorem ch_modCh_ne (h : d ≠ c) : (s.modCh c f).ch d = s.ch d := by
  cases c <;> cases d <;> first | rfl | exact absurd rfl h

theorem ch_modCh : (s.modCh c f).ch d = if d = c then f (s.ch c) else s.ch d := by
  cases c <;> cases d <;> rfl

/-! ### `emit` -/

@[simp] theorem emit_run : (emit e s).run = s.run := rfl
@[simp] theorem emit_first : (emit e s).first = s.first := rfl
@[simp] theorem emit_base : (emit e s).base = s.base := rfl
@[simp] theorem emit_speed : (emit e s).speed = s.speed := rfl
@[simp] theorem emit_ordlen : (emit e s).ordlen = s.ordlen := rfl
@[simp] theorem emit_npat : (emit e s).npat = s.npat := rfl
@[simp] theorem emit_ninstr : (emit e s).ninstr = s.ninstr := rfl
@[simp] theorem emit_nwave : (emit e s).nwave = s.nwave := rfl
@[simp] theorem emit_ord : (emit e s).ord = s.ord := rfl
@[simp] theorem emit_row : (emit e s).row = s.row := rfl
@[simp] theorem emit_tctr : (emit e s).tctr = s.tctr := rfl
@[simp] theorem emit_mute : (emit e s).mute = s.mute := rfl
@[simp] theorem emit_lwid : (emit e s).lwid = s.lwid := rfl
@[simp] theorem emit_ch1 : (emit e s).ch1 = s.ch1 := rfl
@[simp] theorem emit_ch2 : (emit e s).ch2 = s.ch2 := rfl
@[simp] theorem emit_ch3 : (emit e s).ch3 = s.ch3 := rfl
@[simp] theorem emit_ch4 : (emit e s).ch4 = s.ch4 := rfl
@[simp] theorem emit_mem : (emit e s).mem = s.mem := rfl
@[simp] theorem emit_port : (emit e s).port = s.port := rfl
@[simp] theorem emit_mid : (emit e s).mid = s.mid := rfl
@[simp] theorem emit_bus : (emit e s).bus = s.bus ++ [e] := rfl
@[simp] theorem ch_emit : (emit e s).ch c = s.ch c := by cases c <;> rfl

theorem setCh_emit : (emit e s).setCh c x = emit e (s.setCh c x) := by cases c <;> rfl

theorem modCh_emit : (emit e s).modCh c f = emit e (s.modCh c f) := by cases c <;> rfl

/-! ### `storeMute` -/

@[simp] theorem storeMute_run : (storeMute b s).run = s.run := rfl
@[simp] theorem storeMute_first : (storeMute b s).first = s.first := rfl
@[simp] theorem storeMute_base : (storeMute b s).base = s.base := rfl
@[simp] theorem storeMute_speed : (storeMute b s).speed = s.speed := rfl
@[simp] theorem storeMute_ordlen : (storeMute b s).ordlen = s.ordlen := rfl
@[simp] theorem storeMute_npat : (storeMute b s).npat = s.npat := rfl
@[simp] theorem storeMute_ninstr : (storeMute b s).ninstr = s.ninstr := rfl
@[simp] theorem storeMute_nwave : (storeMute b s).nwave = s.nwave := rfl
@[simp] theorem storeMute_ord : (storeMute b s).ord = s.ord := rfl
@[simp] theorem storeMute_row : (storeMute b s).row = s.row := rfl
@[simp] theorem storeMute_tctr : (storeMute b s).tctr = s.tctr := rfl
@[simp] theorem storeMute_mute : (storeMute b s).mute = b.extractLsb' 0 4 := rfl
@[simp] theorem storeMute_lwid : (storeMute b s).lwid = s.lwid := rfl
@[simp] theorem storeMute_ch1 : (storeMute b s).ch1 = s.ch1 := rfl
@[simp] theorem storeMute_ch2 : (storeMute b s).ch2 = s.ch2 := rfl
@[simp] theorem storeMute_ch3 : (storeMute b s).ch3 = s.ch3 := rfl
@[simp] theorem storeMute_ch4 : (storeMute b s).ch4 = s.ch4 := rfl
@[simp] theorem storeMute_mem : (storeMute b s).mem = s.mem := rfl
@[simp] theorem storeMute_port : (storeMute b s).port = s.port := rfl
@[simp] theorem storeMute_mid : (storeMute b s).mid = s.mid := rfl
@[simp] theorem storeMute_bus : (storeMute b s).bus = s.bus := rfl
@[simp] theorem ch_storeMute : (storeMute b s).ch c = s.ch c := by cases c <;> rfl

/-! ### States that differ in one field of the model's own -/

@[simp] theorem ch_with_bus (l : List BusEvent) : ({ s with bus := l } : State).ch c = s.ch c := by
  cases c <;> rfl

@[simp] theorem ch_with_mid (m : MidAccesses) : ({ s with mid := m } : State).ch c = s.ch c := by
  cases c <;> rfl

@[simp] theorem ch_with_port (p : List HostEvent) : ({ s with port := p } : State).ch c = s.ch c := by
  cases c <;> rfl

@[simp] theorem ch_with_lwid : ({ s with lwid := b } : State).ch c = s.ch c := by cases c <;> rfl

@[simp] theorem ch_with_base (p : Nat) : ({ s with base := p } : State).ch c = s.ch c := by
  cases c <;> rfl

@[simp] theorem ch_with_tctr : ({ s with tctr := b } : State).ch c = s.ch c := by cases c <;> rfl

/-- A state is its channels and its other fields. -/
theorem State.ext_ch {s t : State} (hc : ∀ c, s.ch c = t.ch c)
    (h : { s with ch1 := t.ch1, ch2 := t.ch2, ch3 := t.ch3, ch4 := t.ch4 } = t) : s = t := by
  have h1 : s.ch1 = t.ch1 := hc .ch1
  have h2 : s.ch2 = t.ch2 := hc .ch2
  have h3 : s.ch3 = t.ch3 := hc .ch3
  have h4 : s.ch4 = t.ch4 := hc .ch4
  rw [← h, ← h1, ← h2, ← h3, ← h4]

end Sys2Proof.Machine
end

