-- ==== Sys2Proof/Laws/Channel.lean ====
section
/-! SUPPORT. The laws of the channel functions: which registers each leaves alone, and the value of the
clamped sums. -/

namespace Sys2Proof.Machine

/-! ### Ranges -/

theorem pMax_le (c : Chan) : pMax c ≤ 2047 := by cases c <;> decide

theorem toNat_ofNat11 {v : Nat} (h : v ≤ 2047) : (BitVec.ofNat 11 v).toNat = v := by
  rw [BitVec.toNat_ofNat]; exact Nat.mod_eq_of_lt (by omega)

/-- A clamped sum is the minimum, on integers (R186). -/
@[simp] theorem slideUp_toNat (c : Chan) (v : BitVec 11) (d : Nat) :
    (slideUp c v d).toNat = min (v.toNat + d) (pMax c) :=
  toNat_ofNat11 (Nat.le_trans (Nat.min_le_right _ _) (pMax_le c))

/-- A clamped difference stops at 0 (R187). -/
@[simp] theorem slideDown_toNat (v : BitVec 11) (d : Nat) :
    (slideDown v d).toNat = v.toNat - d := toNat_ofNat11 (by have := v.isLt; omega)

theorem noteRom_le : ∀ v ∈ noteRom, v ≤ 2047 := by decide

/-- `NoteMap` stays within the channel's range (R104). -/
theorem noteMap_le (c : Chan) {n : Nat} (h : n ≤ 71) : (noteMap c n).toNat ≤ pMax c := by
  have hr : ∀ k, k ≤ 71 → (BitVec.ofNat 11 (noteRom.getD k 0)).toNat ≤ 2047 := by
    intro k hk
    rw [BitVec.toNat_ofNat]
    omega
  cases c
  · exact hr n h
  · exact hr n h
  · exact hr n h
  · change (BitVec.ofNat 11 n).toNat ≤ 255
    rw [toNat_ofNat11 (by omega)]
    omega

/-! ### The envelope generator -/

section envelope

variable (x : Channel)

/-- The envelope generator changes `vol`, `eper` and `ectr` only (R181). -/
theorem envelopeStep_frame :
    envelopeStep x =
      { x with
        vol := (envelopeStep x).vol, eper := (envelopeStep x).eper,
        ectr := (envelopeStep x).ectr } := by
  unfold envelopeStep envelopeMove
  split_ifs <;> rfl

@[simp] theorem envelopeStep_note : (envelopeStep x).note = x.note := by rw [envelopeStep_frame]
@[simp] theorem envelopeStep_ins : (envelopeStep x).ins = x.ins := by rw [envelopeStep_frame]
@[simp] theorem envelopeStep_fx : (envelopeStep x).fx = x.fx := by rw [envelopeStep_frame]
@[simp] theorem envelopeStep_fxp : (envelopeStep x).fxp = x.fxp := by rw [envelopeStep_frame]
@[simp] theorem envelopeStep_pitch : (envelopeStep x).pitch = x.pitch := by
  rw [envelopeStep_frame]
@[simp] theorem envelopeStep_edir : (envelopeStep x).edir = x.edir := by rw [envelopeStep_frame]
@[simp] theorem envelopeStep_astep : (envelopeStep x).astep = x.astep := by
  rw [envelopeStep_frame]
@[simp] theorem envelopeStep_vphase : (envelopeStep x).vphase = x.vphase := by
  rw [envelopeStep_frame]
@[simp] theorem envelopeStep_dctr : (envelopeStep x).dctr = x.dctr := by rw [envelopeStep_frame]
@[simp] theorem envelopeStep_shape : (envelopeStep x).shape = x.shape := by
  rw [envelopeStep_frame]
@[simp] theorem envelopeStep_fout : (envelopeStep x).fout = x.fout := by rw [envelopeStep_frame]
@[simp] theorem envelopeStep_onset : (envelopeStep x).onset = x.onset := by
  rw [envelopeStep_frame]
@[simp] theorem envelopeStep_hold : (envelopeStep x).hold = x.hold := by rw [envelopeStep_frame]

end envelope

/-! ### The effect arms -/

/-- Every arm of the effect case is one of nine functions (R180). -/
theorem effectArm_cases (f : BitVec 4) :
    effectArm f = effSlu ∧ f = 1#4 ∨ effectArm f = effSld ∧ f = 2#4 ∨
      effectArm f = effArp ∧ f = 3#4 ∨ effectArm f = effVib ∧ f = 4#4 ∨
      effectArm f = effDcy ∧ f = 7#4 ∨
      (effectArm f = fun _ x => outPitch x) ∧ f ≠ 1#4 ∧ f ≠ 2#4 ∧ f ≠ 3#4 ∧ f ≠ 4#4 ∧ f ≠ 7#4 := by
  obtain ⟨k⟩ := f
  fin_cases k <;> first
    | exact .inl ⟨rfl, rfl⟩
    | exact .inr (.inl ⟨rfl, rfl⟩)
    | exact .inr (.inr (.inl ⟨rfl, rfl⟩))
    | exact .inr (.inr (.inr (.inl ⟨rfl, rfl⟩)))
    | exact .inr (.inr (.inr (.inr (.inl ⟨rfl, rfl⟩))))
    | exact .inr (.inr (.inr (.inr (.inr ⟨rfl, by decide, by decide, by decide, by decide,
        by decide⟩))))

/-- What an effect arm leaves alone (R185 to R194): it changes `fout` and, by its code, `pitch`,
`astep`, `vphase`, or `dctr` and `shape`. -/
theorem effectArm_frame (f : BitVec 4) (c : Chan) (x : Channel) :
    effectArm f c x =
      { x with
        pitch := (effectArm f c x).pitch, astep := (effectArm f c x).astep,
        vphase := (effectArm f c x).vphase, dctr := (effectArm f c x).dctr,
        shape := (effectArm f c x).shape, fout := (effectArm f c x).fout } := by
  rcases effectArm_cases f with h | h | h | h | h | h <;> rw [h.1]
  · rfl
  · rfl
  · rfl
  · rfl
  · unfold effDcy; split_ifs <;> rfl
  · rfl

section step

variable (c : Chan) (x : Channel)

@[simp] theorem effectStep_note : (effectStep c x).note = x.note := by
  rw [effectStep, effectArm_frame, ← envelopeStep_note x]
@[simp] theorem effectStep_ins : (effectStep c x).ins = x.ins := by
  rw [effectStep, effectArm_frame, ← envelopeStep_ins x]
@[simp] theorem effectStep_fx : (effectStep c x).fx = x.fx := by
  rw [effectStep, effectArm_frame, ← envelopeStep_fx x]
@[simp] theorem effectStep_fxp : (effectStep c x).fxp = x.fxp := by
  rw [effectStep, effectArm_frame, ← envelopeStep_fxp x]
@[simp] theorem effectStep_edir : (effectStep c x).edir = x.edir := by
  rw [effectStep, effectArm_frame, ← envelopeStep_edir x]
@[simp] theorem effectStep_onset : (effectStep c x).onset = x.onset := by
  rw [effectStep, effectArm_frame, ← envelopeStep_onset x]
@[simp] theorem effectStep_hold : (effectStep c x).hold = x.hold := by
  rw [effectStep, effectArm_frame, ← envelopeStep_hold x]
@[simp] theorem effectStep_vol : (effectStep c x).vol = (envelopeStep x).vol := by
  rw [effectStep, effectArm_frame]
@[simp] theorem effectStep_eper : (effectStep c x).eper = (envelopeStep x).eper := by
  rw [effectStep, effectArm_frame]
@[simp] theorem effectStep_ectr : (effectStep c x).ectr = (envelopeStep x).ectr := by
  rw [effectStep, effectArm_frame]

end step

/-! ### FxLoad -/

section fxLoad

variable (f : BitVec 4) (p : Byte) (x : Channel)

@[simp] theorem fxLoad_note : (fxLoad f p x).note = x.note := by unfold fxLoad; split_ifs <;> rfl
@[simp] theorem fxLoad_ins : (fxLoad f p x).ins = x.ins := by unfold fxLoad; split_ifs <;> rfl
@[simp] theorem fxLoad_fx : (fxLoad f p x).fx = f := by unfold fxLoad; split_ifs <;> rfl
@[simp] theorem fxLoad_fxp : (fxLoad f p x).fxp = p := by unfold fxLoad; split_ifs <;> rfl
@[simp] theorem fxLoad_pitch : (fxLoad f p x).pitch = x.pitch := by
  unfold fxLoad; split_ifs <;> rfl
@[simp] theorem fxLoad_vol : (fxLoad f p x).vol = x.vol := by unfold fxLoad; split_ifs <;> rfl
@[simp] theorem fxLoad_astep : (fxLoad f p x).astep = 0 := by unfold fxLoad; split_ifs <;> rfl
@[simp] theorem fxLoad_vphase : (fxLoad f p x).vphase = 0#6 := by
  unfold fxLoad; split_ifs <;> rfl
@[simp] theorem fxLoad_dctr : (fxLoad f p x).dctr = 0#8 := by unfold fxLoad; split_ifs <;> rfl
@[simp] theorem fxLoad_shape : (fxLoad f p x).shape = x.shape := by
  unfold fxLoad; split_ifs <;> rfl
@[simp] theorem fxLoad_fout : (fxLoad f p x).fout = x.fout := by unfold fxLoad; split_ifs <;> rfl
@[simp] theorem fxLoad_onset : (fxLoad f p x).onset = x.onset := by
  unfold fxLoad; split_ifs <;> rfl
@[simp] theorem fxLoad_hold : (fxLoad f p x).hold = x.hold := by unfold fxLoad; split_ifs <;> rfl

end fxLoad

end Sys2Proof.Machine
end

