-- ==== Sys2Proof/Laws/Ops.lean ====
section
/-! SUPPORT. What each shared operation can do, said once. -/

namespace Sys2Proof.Machine

/-! ### Sequencing -/

@[simp] theorem andThen_next {α β : Type} (a : α) (f : α → Host.Outcome β Fault Refusal) :
    andThen (.next a) f = f a := rfl

@[simp] theorem andThen_refused {α β : Type} (r : Refusal)
    (f : α → Host.Outcome β Fault Refusal) : andThen (.refused r) f = .refused r := rfl

theorem andThen_eq_next {α β : Type} {o : Host.Outcome α Fault Refusal}
    {f : α → Host.Outcome β Fault Refusal} {b : β} :
    andThen o f = .next b ↔ ∃ a, o = .next a ∧ f a = .next b := by
  cases o with
  | next a => simp [andThen]
  | fault r => cases r
  | refused r => simp [andThen]

theorem andThen_assoc {α β γ : Type} (o : Host.Outcome α Fault Refusal)
    (f : α → Host.Outcome β Fault Refusal) (g : β → Host.Outcome γ Fault Refusal) :
    andThen (andThen o f) g = andThen o (fun a => andThen (f a) g) := by
  cases o <;> rfl

/-! ### Blob reads -/

theorem blobRead_eq_next {off : Nat} {s : State} {r : Byte × State} :
    blobRead off s = .next r ↔
      ∃ b, Memory.read s.mem (s.base + off) = some b ∧ r = (b, emit (.blobRead off) s) := by
  unfold blobRead
  cases h : Memory.read s.mem (s.base + off) with
  | none => simp
  | some b =>
    simp only [Host.Outcome.next.injEq, Option.some.injEq, exists_eq_left']
    exact eq_comm

theorem blobRead_of_read {off : Nat} {s : State} {b : Byte}
    (h : Memory.read s.mem (s.base + off) = some b) :
    blobRead off s = .next (b, emit (.blobRead off) s) := blobRead_eq_next.2 ⟨b, h, rfl⟩

/-! ### Traces of a record -/

@[simp] theorem sinkTraceOf_append (l k : List BusEvent) :
    sinkTraceOf (l ++ k) = sinkTraceOf l ++ sinkTraceOf k := by
  induction l with
  | nil => rfl
  | cons e l ih => cases e <;> simp [sinkTraceOf, ih]

@[simp] theorem readTraceOf_append (l k : List BusEvent) :
    readTraceOf (l ++ k) = readTraceOf l ++ readTraceOf k := by
  induction l with
  | nil => rfl
  | cons e l ih => cases e <;> simp [readTraceOf, ih]

@[simp] theorem sampleTraceOf_append (l k : List BusEvent) :
    sampleTraceOf (l ++ k) = sampleTraceOf l ++ sampleTraceOf k := by
  induction l with
  | nil => rfl
  | cons e l ih => cases e <;> simp [sampleTraceOf, ih]

@[simp] theorem muteTraceOf_append (l k : List BusEvent) :
    muteTraceOf (l ++ k) = muteTraceOf l ++ muteTraceOf k := by
  induction l with
  | nil => rfl
  | cons e l ih => cases e <;> simp [muteTraceOf, ih]

/-! ### Host accesses of `MUTE` -/

/-- Host accesses change `MUTE` and the record only. -/
theorem accessAll_eq (l : List MuteAccess) (s : State) :
    accessAll l s =
      { s with mute := muteAfter l s.mute, bus := s.bus ++ muteAnswers l s.mute } := by
  induction l generalizing s with
  | nil => simp [accessAll, muteAfter, muteAnswers]
  | cons a l ih =>
    cases a with
    | write b =>
      simp only [accessAll, accessMute, muteAfter, muteAnswers, ih]
      rfl
    | read =>
      simp only [accessAll, accessMute, muteAfter, muteAnswers, ih]
      simp [readMute, emit]

@[simp] theorem sinkTraceOf_muteAnswers (l : List MuteAccess) (m : BitVec 4) :
    sinkTraceOf (muteAnswers l m) = [] := by
  induction l generalizing m with
  | nil => rfl
  | cons a l ih => cases a <;> simp [muteAnswers, sinkTraceOf, ih]

@[simp] theorem readTraceOf_muteAnswers (l : List MuteAccess) (m : BitVec 4) :
    readTraceOf (muteAnswers l m) = [] := by
  induction l generalizing m with
  | nil => rfl
  | cons a l ih => cases a <;> simp [muteAnswers, readTraceOf, ih]

@[simp] theorem sampleTraceOf_muteAnswers (l : List MuteAccess) (m : BitVec 4) :
    sampleTraceOf (muteAnswers l m) = [] := by
  induction l generalizing m with
  | nil => rfl
  | cons a l ih => cases a <;> simp [muteAnswers, sampleTraceOf, ih]

@[simp] theorem muteTraceOf_muteAnswers (l : List MuteAccess) (m : BitVec 4) :
    muteTraceOf (muteAnswers l m) = muteAnswers l m := by
  induction l generalizing m with
  | nil => rfl
  | cons a l ih => cases a <;> simp [muteAnswers, muteTraceOf, ih]

/-- The accesses still to come before channel `c`'s sample. -/
def MidAccesses.before (m : MidAccesses) : Chan → List MuteAccess
  | .ch1 => m.before1
  | .ch2 => m.before2
  | .ch3 => m.before3
  | .ch4 => m.before4

/-- The accesses still to come once those before channel `c`'s sample have happened. -/
def MidAccesses.clear (m : MidAccesses) : Chan → MidAccesses
  | .ch1 => { m with before1 := [] }
  | .ch2 => { m with before2 := [] }
  | .ch3 => { m with before3 := [] }
  | .ch4 => { m with before4 := [] }

@[simp] theorem MidAccesses.before_none (c : Chan) : MidAccesses.none.before c = [] := by
  cases c <;> rfl

@[simp] theorem MidAccesses.clear_none (c : Chan) : MidAccesses.none.clear c = .none := by
  cases c <;> rfl

/-- What falls before a mute sample changes `MUTE`, what is still to come, and the record. -/
theorem landBefore_eq (c : Chan) (s : State) :
    landBefore c s =
      { s with
        mid := s.mid.clear c, mute := muteAfter (s.mid.before c) s.mute,
        bus := s.bus ++ muteAnswers (s.mid.before c) s.mute } := by
  cases c <;> simp [landBefore, accessAll_eq, MidAccesses.before, MidAccesses.clear]

@[simp] theorem ch_landBefore (c d : Chan) (s : State) : (landBefore c s).ch d = s.ch d := by
  rw [landBefore_eq]; cases d <;> rfl

/-- With nothing to come, nothing happens. -/
theorem landBefore_none {s : State} (h : s.mid = .none) (c : Chan) : landBefore c s = s := by
  rw [landBefore_eq, h]
  cases s
  simp_all [muteAfter, muteAnswers]

theorem landAll_none {s : State} (h : s.mid = .none) : landAll s = s := by
  simp only [landAll, landBefore_none h]

theorem muteAfter_append (l k : List MuteAccess) (m : BitVec 4) :
    muteAfter (l ++ k) m = muteAfter k (muteAfter l m) := by
  induction l generalizing m with
  | nil => rfl
  | cons a l ih => cases a <;> simp [muteAfter, ih]

theorem muteAnswers_append (l k : List MuteAccess) (m : BitVec 4) :
    muteAnswers (l ++ k) m = muteAnswers l m ++ muteAnswers k (muteAfter l m) := by
  induction l generalizing m with
  | nil => rfl
  | cons a l ih => cases a <;> simp [muteAnswers, muteAfter, ih]

/-- When all is done nothing is still to come; only `MUTE` and the record changed. -/
theorem landAll_eq (s : State) :
    landAll s =
      { s with
        mid := .none, mute := muteAfter s.mid.all s.mute,
        bus := s.bus ++ muteAnswers s.mid.all s.mute } := by
  simp [landAll, landBefore_eq, MidAccesses.before, MidAccesses.clear, MidAccesses.none,
    MidAccesses.all, muteAfter_append, muteAnswers_append]

/-- The mask of a mute sample. -/
def sampledMask (c : Chan) (s : State) : BitVec 4 := muteAfter (s.mid.before c) s.mute

/-- A mute sample changes `MUTE`, what is still to come, and the record. -/
theorem muteSample_eq (c : Chan) (s : State) :
    muteSample c s =
      ((sampledMask c s).getLsbD (chanIndex c),
        { s with
          mid := s.mid.clear c, mute := sampledMask c s,
          bus := s.bus ++ muteAnswers (s.mid.before c) s.mute ++
            [.muteSample c ((sampledMask c s).getLsbD (chanIndex c))] }) := by
  simp [muteSample, muteBit, landBefore_eq, sampledMask, emit]

/-- A sink write is one event. -/
theorem sinkWrite_eq (n v : Nat) (s : State) :
    sinkWrite n v s = { s with bus := s.bus ++ [.sinkWrite n (sinkMask n v)] } := rfl

@[simp] theorem ch_sinkWrite (n v : Nat) (s : State) (c : Chan) :
    (sinkWrite n v s).ch c = s.ch c := by cases c <;> rfl

end Sys2Proof.Machine
end

