-- ==== Sys2Proof/Laws/Trigger.lean ====
section
/-! SUPPORT. Everything a row trigger can do, said once (41_row_trigger.md R160 to R171). -/

namespace Sys2Proof.Machine

@[simp] theorem setCh_insBase (s : State) (c : Chan) (x : Channel) :
    insBase (s.setCh c x) = insBase s := by simp [insBase]

@[simp] theorem emit_insBase (e : BusEvent) (s : State) : insBase (emit e s) = insBase s := rfl

/-- The instrument bytes a trigger loads, if any: the two bytes, when it loads. -/
def defaultsRead (c : Chan) (i : BitVec 4) (s : State) (k : Nat) : Option Byte :=
  Memory.read s.mem (s.base + defaultsOffset c i s k)

/-- The channel after `InsLoad` and the registers of `NoteOn`, before any default is loaded. -/
def noted (c : Chan) (n : Byte) (i : BitVec 4) (ninstr : Byte) (x : Channel) : Channel :=
  let y := if hasIns i ninstr then insLoad i x else x
  if hasNote n then noteRegs c n y else y

/-- The channel after a trigger of a non-empty cell, given the instrument bytes it loaded. -/
def triggered (c : Chan) (n : Byte) (i f : BitVec 4) (p : Byte) (ninstr : Byte)
    (d : Option (Byte × Byte)) (x : Channel) : Channel :=
  let y := noted c n i ninstr x
  fxLoad f p (match d with
    | some b => defaultsFrom c b.1 b.2 y
    | none => y)

theorem noted_ins (c : Chan) (n : Byte) (i : BitVec 4) (s : State) :
    (noted c n i s.ninstr (s.ch c)).ins = insAfter c i s := by
  unfold noted insAfter
  split_ifs <;> rfl

/-- An empty cell changes nothing (R161). -/
theorem trigger_empty {n : Byte} {i f : BitVec 4} {s : State} (c : Chan) (p : Byte)
    (h : emptyCell n i f s.ninstr = true) : trigger c n i f p s = .next s := by
  simp [trigger, h]

/-- A non-empty cell that loads no default reads nothing. -/
theorem trigger_noDefaults {n : Byte} {i f : BitVec 4} {s : State} {c : Chan} (p : Byte)
    (he : emptyCell n i f s.ninstr = false) (hl : loadsDefaults c n i s = false) :
    trigger c n i f p s = .next (s.setCh c (triggered c n i f p s.ninstr none (s.ch c))) := by
  unfold trigger
  rw [he]
  by_cases hn : hasNote n = true
  · have hi : insAfter c i s = 0#4 := by simpa [loadsDefaults, hn] using hl
    by_cases h : hasIns i s.ninstr = true
    · have : (insLoad i (s.ch c)).ins = 0#4 := by simpa [insAfter, h, insLoad] using hi
      simp [h, hn, noteOn, State.modCh, this, triggered, noted]
    · have : (s.ch c).ins = 0#4 := by simpa [insAfter, h] using hi
      simp [h, hn, noteOn, State.modCh, this, triggered, noted]
  · by_cases h : hasIns i s.ninstr = true <;>
      simp [h, hn, State.modCh, triggered, noted]

/-- A cell with a note and an active instrument reads the instrument's two bytes and loads them. -/
theorem trigger_defaults {n : Byte} {i f : BitVec 4} {s : State} {c : Chan} (p : Byte)
    (hl : loadsDefaults c n i s = true) :
    trigger c n i f p s =
      andThen (blobRead (defaultsOffset c i s 0) s) fun r0 =>
      andThen (blobRead (defaultsOffset c i s 1) r0.2) fun r1 =>
      .next (r1.2.setCh c (triggered c n i f p s.ninstr (some (r0.1, r1.1)) (s.ch c))) := by
  obtain ⟨hn, hi⟩ : hasNote n = true ∧ insAfter c i s ≠ 0#4 := by
    simpa [loadsDefaults] using hl
  have he : emptyCell n i f s.ninstr = false := by simp [emptyCell, hn]
  have key : ∀ t : State, t.mem = s.mem → t.base = s.base → insBase t = insBase s →
      (t.ch c).ins = insAfter c i s → t.setCh c (s.ch c) = s →
      andThen (loadDefaults c t) (fun u => .next (u.modCh c (fxLoad f p))) =
      andThen (blobRead (defaultsOffset c i s 0) s) fun r0 =>
      andThen (blobRead (defaultsOffset c i s 1) r0.2) fun r1 =>
      .next (r1.2.setCh c (fxLoad f p (defaultsFrom c r0.1 r1.1 (t.ch c)))) := by
    intro t hm hb hib hins hs
    unfold loadDefaults defaultsOffset
    rw [hins, hib]
    simp only [blobRead, hm, hb, Nat.add_zero]
    cases Memory.read s.mem (s.base + (insBase s + 2 * ((insAfter c i s).toNat - 1))) with
    | none => rfl
    | some b0 =>
      simp only [andThen_next, emit_mem, emit_base, hm, hb]
      cases Memory.read s.mem (s.base + (insBase s + 2 * ((insAfter c i s).toNat - 1) + 1)) with
      | none => rfl
      | some b1 =>
        simp only [andThen_next, State.modCh, ch_emit, setCh_emit, ch_setCh_same, setCh_setCh]
        rw [← hs]
        simp
  unfold trigger
  rw [he]
  simp only [hn, if_true, Bool.false_eq_true, if_false, noteOn]
  have hnot : ∀ u : State, (u.ch c).ins = insAfter c i s → (u.ch c).ins ≠ 0#4 :=
    fun u hu => hu ▸ hi
  by_cases h : hasIns i s.ninstr = true
  · have hins : ((s.modCh c (insLoad i)).ch c).ins = insAfter c i s := by
      simp [insAfter, h, insLoad]
    rw [if_pos h, if_neg (hnot _ hins),
      key _ (by simp) (by simp) (by simp [State.modCh]) (by simpa [noteRegs] using hins)
        (by simp [State.modCh])]
    simp [triggered, noted, h, hn, State.modCh]
  · have hins : (s.ch c).ins = insAfter c i s := by simp [insAfter, h]
    rw [if_neg h, if_neg (hnot _ hins),
      key _ (by simp) (by simp) (by simp [State.modCh]) (by simpa [noteRegs] using hins)
        (by simp [State.modCh])]
    simp [triggered, noted, h, hn, State.modCh]

/-- Everything a trigger can do: when it answers a next state, the channel is the triggered one and the
record has grown by the reads of the instrument bytes it loaded. -/
theorem trigger_eq_next {n : Byte} {i f : BitVec 4} {p : Byte} {s t : State} {c : Chan}
    (h : trigger c n i f p s = .next t) :
    (emptyCell n i f s.ninstr = true ∧ t = s) ∨
    (emptyCell n i f s.ninstr = false ∧ loadsDefaults c n i s = false ∧
      t = s.setCh c (triggered c n i f p s.ninstr none (s.ch c))) ∨
    (loadsDefaults c n i s = true ∧ ∃ b0 b1, defaultsRead c i s 0 = some b0 ∧
      defaultsRead c i s 1 = some b1 ∧
      t = emit (.blobRead (defaultsOffset c i s 1)) (emit (.blobRead (defaultsOffset c i s 0))
        (s.setCh c (triggered c n i f p s.ninstr (some (b0, b1)) (s.ch c))))) := by
  cases hl : loadsDefaults c n i s with
  | false =>
    cases he : emptyCell n i f s.ninstr with
    | true =>
      rw [trigger_empty c p he] at h
      exact .inl ⟨rfl, by simpa using h.symm⟩
    | false =>
      rw [trigger_noDefaults p he hl] at h
      exact .inr (.inl ⟨rfl, rfl, by simpa using h.symm⟩)
  | true =>
    rw [trigger_defaults p hl] at h
    obtain ⟨r0, h0, h⟩ := andThen_eq_next.1 h
    obtain ⟨r1, h1, h⟩ := andThen_eq_next.1 h
    obtain ⟨b0, hb0, rfl⟩ := blobRead_eq_next.1 h0
    obtain ⟨b1, hb1, rfl⟩ := blobRead_eq_next.1 h1
    refine .inr (.inr ⟨rfl, b0, b1, hb0, hb1, ?_⟩)
    simpa [setCh_emit] using h.symm

/-- A trigger whose instrument bytes are readable answers a next state. -/
theorem trigger_completes {n : Byte} {i : BitVec 4} {s : State} {c : Chan} (f : BitVec 4) (p : Byte)
    (h : CellReadable c n i s) : Completes (trigger c n i f p s) := by
  cases hl : loadsDefaults c n i s with
  | false =>
    cases he : emptyCell n i f s.ninstr with
    | true => exact ⟨_, trigger_empty c p he⟩
    | false => exact ⟨_, trigger_noDefaults p he hl⟩
  | true =>
    obtain ⟨b0, h0⟩ := Option.isSome_iff_exists.1 (h hl 0 (by decide))
    obtain ⟨b1, h1⟩ := Option.isSome_iff_exists.1 (h hl 1 (by decide))
    rw [trigger_defaults p hl, blobRead_of_read h0]
    simp only [andThen_next]
    rw [blobRead_of_read (s := emit _ s) h1]
    exact ⟨_, rfl⟩

end Sys2Proof.Machine
end

