-- ==== Sys2Proof/Laws/Cells.lean ====
section
/-! SUPPORT. What executing a cell does, said once for the sixteen codes: the row trigger, then the
channel's `EffectStep`. -/

namespace Sys2Proof.Machine

/-- A cell with an effect code other than 0 is not empty (R102). -/
theorem emptyCell_of_ne {f : BitVec 4} (h : f ≠ 0#4) (n : Byte) (i : BitVec 4) (ninstr : Byte) :
    emptyCell n i f ninstr = false := by simp [emptyCell, h]

@[simp] theorem triggered_fx (c : Chan) (n : Byte) (i f : BitVec 4) (p ninstr : Byte)
    (d : Option (Byte × Byte)) (x : Channel) : (triggered c n i f p ninstr d x).fx = f := by
  simp [triggered]

/-- A non-empty cell leaves its own code active (R168). -/
theorem trigger_fx {c : Chan} {n : Byte} {i f : BitVec 4} {p : Byte} {s t : State}
    (he : emptyCell n i f s.ninstr = false) (h : trigger c n i f p s = .next t) :
    (t.ch c).fx = f := by
  rcases trigger_eq_next h with ⟨h1, _⟩ | ⟨_, _, rfl⟩ | ⟨_, b0, b1, _, _, rfl⟩
  · simp [he] at h1
  · simp
  · simp

/-- A cell whose meaning is `cellTick` with the arm of its code: its trigger, then the channel's
`EffectStep`. -/
theorem cellTick_eq {f : BitVec 4} {arm : Chan → Channel → Channel} (hf : f ≠ 0#4)
    (ha : effectArm f = arm) (c : Chan) (n : Byte) (i : BitVec 4) (p : Byte) (s : State) :
    cellTick c n i f p arm s =
      andThen (trigger c n i f p s) fun t => .next (t.modCh c (effectStep c)) := by
  unfold cellTick
  cases h : trigger c n i f p s with
  | fault r => rfl
  | refused r => rfl
  | next t =>
    have hx := trigger_fx (emptyCell_of_ne hf n i s.ninstr) h
    simp only [andThen_next, State.modCh, effectStep, hx, ha]

/-- Executing a cell: its trigger, then the `EffectStep` of its channel (R160, R180). -/
theorem exec_cellOfFields (c : Chan) (n : Byte) (i f : BitVec 4) (p : Byte) (s : State) :
    exec (cellOfFields c n i f p) s =
      andThen (trigger c n i f p s) fun t => .next (t.modCh c (effectStep c)) := by
  obtain ⟨k⟩ := f
  fin_cases k <;> first
    | rfl
    | exact cellTick_eq (by decide) rfl c n i p s

end Sys2Proof.Machine
end

