-- ==== Sys2Proof/Laws/Commit.lean ====
section
/-! SUPPORT. Everything the commit unit can do, said once (43_commit.md). -/

namespace Sys2Proof.Machine

/-- The events of a channel's write set (R213, R214). -/
def writeEvents (c : Chan) (x : Channel) : List BusEvent :=
  [.sinkWrite (sinkReg c 0) (sinkMask (sinkReg c 0) x.shape.toNat),
    .sinkWrite (sinkReg c 1) (sinkMask (sinkReg c 1) x.vol.toNat),
    .sinkWrite (sinkReg c 2) (sinkMask (sinkReg c 2) x.fout.toNat)] ++
  if x.onset then [.sinkWrite (sinkReg c 3) (sinkMask (sinkReg c 3) 1)] else []

theorem writeSet_eq (c : Chan) (s : State) :
    writeSet c s = { s with bus := s.bus ++ writeEvents c (s.ch c) } := by
  unfold writeSet writeEvents
  cases h : (s.ch c).onset <;> simp [sinkWrite_eq]

@[simp] theorem writeEvents_hold (c : Chan) (x : Channel) (b : Bool) :
    writeEvents c { x with hold := b } = writeEvents c x := rfl

/-- The events of the waveform bytes `bs` from byte `i` on (R217). -/
def waveEvents (off i : Nat) : List Byte → List BusEvent
  | [] => []
  | b :: bs =>
    .blobRead (off + i) :: .sinkWrite (waveReg i) (sinkMask (waveReg i) b.toNat) ::
      waveEvents off (i + 1) bs

/-- A waveform load adds its reads and writes to the record and changes nothing else. -/
theorem loadWaveFrom_eq_next {w i k : Nat} {s t : State} (h : loadWaveFrom w i k s = .next t) :
    ∃ bs, bs.length = k ∧
      (∀ j, j < k → Memory.read s.mem (s.base + (wavBase s + 16 * w + (i + j))) = bs[j]?) ∧
      t = { s with bus := s.bus ++ waveEvents (wavBase s + 16 * w) i bs } := by
  induction k generalizing s i with
  | zero =>
    refine ⟨[], rfl, by simp, ?_⟩
    simpa [loadWaveFrom, waveEvents] using h.symm
  | succ k ih =>
    obtain ⟨r, hr, h⟩ := andThen_eq_next.1 h
    obtain ⟨b, hb, rfl⟩ := blobRead_eq_next.1 hr
    obtain ⟨bs, hl, hread, rfl⟩ := ih h
    refine ⟨b :: bs, by simp [hl], fun j hj => ?_, ?_⟩
    · cases j with
      | zero => simpa using hb
      | succ j =>
        have := hread j (by omega)
        rw [List.getElem?_cons_succ, ← this]
        simp only [sinkWrite, emit_mem, emit_base, wavBase, insBase, emit_ordlen, emit_ninstr]
        congr 1
        omega
    · simp [sinkWrite_eq, emit, waveEvents, wavBase, insBase]

/-- A waveform load whose bytes are readable answers a next state. -/
theorem loadWaveFrom_completes {w i k : Nat} {s : State}
    (h : ∀ j, j < k → (Memory.read s.mem (s.base + (wavBase s + 16 * w + (i + j)))).isSome) :
    Completes (loadWaveFrom w i k s) := by
  induction k generalizing s i with
  | zero => exact ⟨_, rfl⟩
  | succ k ih =>
    obtain ⟨b, hb⟩ := Option.isSome_iff_exists.1 (h 0 (by omega))
    rw [loadWaveFrom, blobRead_of_read (by simpa using hb), andThen_next]
    refine ih fun j hj => ?_
    have := h (j + 1) (by omega)
    rw [show i + (j + 1) = i + 1 + j by omega] at this
    exact this

/-- The events of the wave guard of channel 3: none, or the sixteen reads and writes of a load. -/
theorem waveGuard_eq_next {s t : State} (h : waveGuard s = .next t) :
    (waveNeeded s = false ∧ t = s) ∨
    (waveNeeded s = true ∧ ∃ bs, bs.length = 16 ∧
      (∀ j, j < 16 → Memory.read s.mem
        (s.base + (wavBase s + 16 * s.ch3.shape.toNat + j)) = bs[j]?) ∧
      t = { s with
        lwid := s.ch3.shape.setWidth 8,
        bus := s.bus ++ waveEvents (wavBase s + 16 * s.ch3.shape.toNat) 0 bs }) := by
  unfold waveGuard at h
  cases hn : waveNeeded s with
  | false => rw [hn] at h; exact .inl ⟨rfl, by simpa using h.symm⟩
  | true =>
    rw [hn] at h
    obtain ⟨u, hu, h⟩ := andThen_eq_next.1 h
    obtain ⟨bs, hl, hread, rfl⟩ := loadWaveFrom_eq_next hu
    refine .inr ⟨rfl, bs, hl, fun j hj => by simpa using hread j hj, ?_⟩
    simpa using h.symm

/-- The hold latch of channel `c` after this tick's mute sample (R211). -/
def latched (c : Chan) (s : State) : Bool :=
  holdAfter ((sampledMask c s).getLsbD (chanIndex c)) (s.ch c).onset (s.ch c).hold

theorem latchHold_eq (c : Chan) (s : State) :
    latchHold c s =
      { s.setCh c { s.ch c with hold := latched c s } with
        mid := s.mid.clear c, mute := sampledMask c s,
        bus := s.bus ++ muteAnswers (s.mid.before c) s.mute ++
          [.muteSample c ((sampledMask c s).getLsbD (chanIndex c))] } := by
  unfold latchHold latched
  rw [muteSample_eq]
  cases c <;> rfl

@[simp] theorem ch_latchHold_same (c : Chan) (s : State) :
    (latchHold c s).ch c = { s.ch c with hold := latched c s } := by
  rw [latchHold_eq]; cases c <;> rfl

/-- Everything a commit can do: the mute sample and the latch; then, unless held, the write set, on CH3
after the wave guard; then `onset` is cleared (R210). -/
theorem commit_eq_next {c : Chan} {s t : State} (h : commit c s = .next t) :
    ∃ lw es,
      t = { s.setCh c { s.ch c with hold := latched c s, onset := false } with
        mid := s.mid.clear c, mute := sampledMask c s, lwid := lw,
        bus := s.bus ++ muteAnswers (s.mid.before c) s.mute ++
          [.muteSample c ((sampledMask c s).getLsbD (chanIndex c))] ++ es } ∧
      ((latched c s = true ∧ es = [] ∧ lw = s.lwid) ∨
       (latched c s = false ∧ ∃ ws, es = ws ++ writeEvents c (s.ch c) ∧
        ((¬(c = .ch3 ∧ waveNeeded s = true) ∧ ws = [] ∧ lw = s.lwid) ∨
         (c = .ch3 ∧ waveNeeded s = true ∧ lw = s.ch3.shape.setWidth 8 ∧ ∃ bs, bs.length = 16 ∧
          (∀ j, j < 16 → Memory.read s.mem
            (s.base + (wavBase s + 16 * s.ch3.shape.toNat + j)) = bs[j]?) ∧
          ws = waveEvents (wavBase s + 16 * s.ch3.shape.toNat) 0 bs)))) := by
  obtain ⟨u, hu, h⟩ := andThen_eq_next.1 h
  obtain rfl : t = u.modCh c (fun x => { x with onset := false }) := by simpa using h.symm
  unfold commitWrites at hu
  cases hl : latched c s with
  | true =>
    rw [ch_latchHold_same] at hu
    obtain rfl : u = latchHold c s := by simpa [hl] using hu.symm
    refine ⟨s.lwid, [], ?_, .inl ⟨rfl, rfl, rfl⟩⟩
    rw [latchHold_eq, hl]
    cases c <;> simp [State.modCh, State.setCh, State.ch]
  | false =>
    rw [ch_latchHold_same] at hu
    simp only [hl, Bool.false_eq_true, if_false] at hu
    obtain ⟨v, hv, hu⟩ := andThen_eq_next.1 hu
    obtain rfl : u = writeSet c v := by simpa using hu.symm
    by_cases hc : c = .ch3
    · subst hc
      have hw : waveNeeded (latchHold .ch3 s) = waveNeeded s := by
        rw [latchHold_eq]; rfl
      rcases waveGuard_eq_next (by simpa using hv) with ⟨h0, rfl⟩ | ⟨h1, bs, hb, hread, rfl⟩
      · refine ⟨s.lwid, writeEvents .ch3 (s.ch .ch3), ?_, .inr ⟨rfl, [], rfl, .inl ⟨?_, rfl, rfl⟩⟩⟩
        · rw [writeSet_eq, ch_latchHold_same, writeEvents_hold, latchHold_eq, hl]
          rfl
        · simp [← hw, h0]
      · have hwb : wavBase (latchHold .ch3 s) = wavBase s := by rw [latchHold_eq]; rfl
        have hsh : (latchHold .ch3 s).ch3.shape = s.ch3.shape := by rw [latchHold_eq]; rfl
        have hm : (latchHold .ch3 s).mem = s.mem := by rw [latchHold_eq]; rfl
        have hba : (latchHold .ch3 s).base = s.base := by rw [latchHold_eq]; rfl
        rw [hwb, hsh, hm, hba] at hread
        refine ⟨s.ch3.shape.setWidth 8, _, ?_, .inr ⟨rfl, _, rfl, .inr ⟨rfl, hw ▸ h1, rfl, bs, hb,
          hread, rfl⟩⟩⟩
        rw [hwb, hsh]
        simp only [writeSet_eq, latchHold_eq, hl, List.append_assoc]
        rfl
    · refine ⟨s.lwid, writeEvents c (s.ch c), ?_, .inr ⟨rfl, [], rfl, .inl ⟨?_, rfl, rfl⟩⟩⟩
      · obtain rfl : v = latchHold c s := by simpa [hc] using hv.symm
        rw [writeSet_eq, ch_latchHold_same, writeEvents_hold, latchHold_eq, hl]
        cases c <;> rfl
      · simp [hc]

end Sys2Proof.Machine
end

