-- ==== Sys2Proof/Laws/Commands.lean ====
section
/-! SUPPORT. Everything START, a row fetch and a TICK can do, said once (40_commands.md). -/

namespace Sys2Proof.Machine

/-! ### START -/

/-- The header validity predicate in one proposition (R92). -/
theorem headerValid_eq (h0 h1 h2 h3 h4 h5 : Byte) :
    headerValid h0 h1 h2 h3 h4 h5 =
      decide (h0 = 0x01#8 ∧ 1 ≤ h1.toNat ∧ 1 ≤ h2.toNat ∧ 1 ≤ h3.toNat ∧ h3.toNat ≤ 64 ∧
        h4.toNat ≤ 15 ∧ h5.toNat ≤ 16) := by
  rw [Bool.eq_iff_iff]
  simp only [headerValid, Bool.and_eq_true, decide_eq_true_eq, beq_iff_eq, and_assoc]
  rfl

/-- The events of the header reads (R131). -/
def headerReads : List BusEvent :=
  [.blobRead 0, .blobRead 1, .blobRead 2, .blobRead 3, .blobRead 4, .blobRead 5]

/-- START over a readable header. -/
theorem execStart_of_read {ptr : Nat} {s : State} {h0 h1 h2 h3 h4 h5 : Byte}
    (e0 : Memory.read s.mem ptr = some h0) (e1 : Memory.read s.mem (ptr + 1) = some h1)
    (e2 : Memory.read s.mem (ptr + 2) = some h2) (e3 : Memory.read s.mem (ptr + 3) = some h3)
    (e4 : Memory.read s.mem (ptr + 4) = some h4) (e5 : Memory.read s.mem (ptr + 5) = some h5) :
    execStart ptr s =
      .next (startRegs h0 h1 h2 h3 h4 h5 { s with base := ptr, bus := s.bus ++ headerReads }) := by
  unfold execStart
  rw [blobRead_of_read (by simpa using e0), andThen_next,
    blobRead_of_read (by simpa using e1), andThen_next,
    blobRead_of_read (by simpa using e2), andThen_next,
    blobRead_of_read (by simpa using e3), andThen_next,
    blobRead_of_read (by simpa using e4), andThen_next,
    blobRead_of_read (by simpa using e5), andThen_next]
  simp [emit, headerReads]

/-- Everything START can do when it answers a next state: the header was readable. -/
theorem execStart_eq_next {ptr : Nat} {s t : State} (h : execStart ptr s = .next t) :
    ∃ h0 h1 h2 h3 h4 h5 : Byte,
      Memory.read s.mem ptr = some h0 ∧ Memory.read s.mem (ptr + 1) = some h1 ∧
      Memory.read s.mem (ptr + 2) = some h2 ∧ Memory.read s.mem (ptr + 3) = some h3 ∧
      Memory.read s.mem (ptr + 4) = some h4 ∧ Memory.read s.mem (ptr + 5) = some h5 ∧
      t = startRegs h0 h1 h2 h3 h4 h5 { s with base := ptr, bus := s.bus ++ headerReads } := by
  have h' := h
  simp only [execStart, andThen_eq_next, blobRead_eq_next] at h
  obtain ⟨_, ⟨b0, h0, rfl⟩, _, ⟨b1, h1, rfl⟩, _, ⟨b2, h2, rfl⟩, _, ⟨b3, h3, rfl⟩, _, ⟨b4, h4, rfl⟩,
    _, ⟨b5, h5, rfl⟩, _⟩ := h
  rw [execStart_of_read (s := s) (ptr := ptr) h0 h1 h2 h3 h4 h5] at h'
  exact ⟨_, _, _, _, _, _, h0, h1, h2, h3, h4, h5, by simpa using h'.symm⟩

/-! ### The position -/

section rowBoundary

variable (s : State)

/-- A row boundary writes the position and nothing else (R135 to R137). -/
theorem rowBoundary_frame :
    rowBoundary s =
      { s with
        tctr := s.speed, first := false, row := (rowBoundary s).row, ord := (rowBoundary s).ord } := by
  obtain ⟨run, first, _⟩ := s
  cases first with
  | true => rfl
  | false =>
    simp only [rowBoundary, advancePosition, Bool.false_eq_true, if_false]
    split_ifs <;> rfl

@[simp] theorem rowBoundary_mem : (rowBoundary s).mem = s.mem := by rw [rowBoundary_frame]
@[simp] theorem rowBoundary_base : (rowBoundary s).base = s.base := by rw [rowBoundary_frame]
@[simp] theorem rowBoundary_bus : (rowBoundary s).bus = s.bus := by rw [rowBoundary_frame]
@[simp] theorem rowBoundary_mid : (rowBoundary s).mid = s.mid := by rw [rowBoundary_frame]
@[simp] theorem rowBoundary_mute : (rowBoundary s).mute = s.mute := by rw [rowBoundary_frame]
@[simp] theorem rowBoundary_lwid : (rowBoundary s).lwid = s.lwid := by rw [rowBoundary_frame]
@[simp] theorem rowBoundary_run : (rowBoundary s).run = s.run := by rw [rowBoundary_frame]
@[simp] theorem rowBoundary_ninstr : (rowBoundary s).ninstr = s.ninstr := by rw [rowBoundary_frame]
@[simp] theorem rowBoundary_nwave : (rowBoundary s).nwave = s.nwave := by rw [rowBoundary_frame]
@[simp] theorem rowBoundary_npat : (rowBoundary s).npat = s.npat := by rw [rowBoundary_frame]
@[simp] theorem rowBoundary_ordlen : (rowBoundary s).ordlen = s.ordlen := by rw [rowBoundary_frame]
@[simp] theorem rowBoundary_ch (c : Chan) : (rowBoundary s).ch c = s.ch c := by
  rw [rowBoundary_frame]; cases c <;> rfl
@[simp] theorem rowBoundary_insBase : insBase (rowBoundary s) = insBase s := by simp [insBase]
@[simp] theorem rowBoundary_wavBase : wavBase (rowBoundary s) = wavBase s := by simp [wavBase]
@[simp] theorem rowBoundary_patBase : patBase (rowBoundary s) = patBase s := by simp [patBase]

end rowBoundary

/-! ### The row fetch -/

/-- The reads of one cell's fetch and trigger (R138, R166). -/
def cellReads (c : Chan) (a : Nat) (b0 b1 : Byte) (s : State) : List BusEvent :=
  [.blobRead a, .blobRead (a + 1), .blobRead (a + 2)] ++ defaultsReads c b0 (hiNibble b1) s

/-- A trigger changes its channel and adds its reads to the record (R171). -/
theorem trigger_frame {n : Byte} {i f : BitVec 4} {p : Byte} {s t : State} {c : Chan}
    (h : trigger c n i f p s = .next t) :
    t = { s.setCh c (t.ch c) with bus := s.bus ++ defaultsReads c n i s } := by
  rcases trigger_eq_next h with ⟨he, rfl⟩ | ⟨_, hl, ht⟩ | ⟨hl, b0, b1, _, _, ht⟩
  · have hn : hasNote n = false := by
      by_contra hn; simp [emptyCell, hn] at he
    have hl : loadsDefaults c n i t = false := by simp [loadsDefaults, hn]
    simp [defaultsReads, hl]
  · subst ht
    simp only [ch_setCh_same, defaultsReads, hl, Bool.false_eq_true, if_false, List.append_nil]
    cases c <;> rfl
  · subst ht
    simp only [ch_emit, ch_setCh_same, defaultsReads, hl, if_true]
    cases c <;> simp [emit, State.setCh]

/-- A trigger looks at its channel, the counts of the header and the blob: an event more in the record
makes no difference to it. -/
theorem defaultsReads_emit (c : Chan) (n : Byte) (i : BitVec 4) (e : BusEvent) (s : State) :
    defaultsReads c n i (emit e s) = defaultsReads c n i s := by
  simp [defaultsReads, loadsDefaults, insAfter, defaultsOffset]

/-- The channel after a trigger as a function of the state; none where an instrument byte it loads is
not readable. -/
def triggerCh (c : Chan) (n : Byte) (i f : BitVec 4) (p : Byte) (s : State) : Option Channel :=
  if loadsDefaults c n i s then
    match defaultsRead c i s 0, defaultsRead c i s 1 with
    | some b0, some b1 => some (triggered c n i f p s.ninstr (some (b0, b1)) (s.ch c))
    | _, _ => none
  else if emptyCell n i f s.ninstr then some (s.ch c)
  else some (triggered c n i f p s.ninstr none (s.ch c))

/-- A trigger answers a next state exactly when its channel function has a value, which is then the
channel's; nothing else changes but the record (R160, R171). -/
theorem trigger_iff {c : Chan} {n : Byte} {i f : BitVec 4} {p : Byte} {s t : State} :
    trigger c n i f p s = .next t ↔ ∃ x, triggerCh c n i f p s = some x ∧
      t = { s.setCh c x with bus := s.bus ++ defaultsReads c n i s } := by
  unfold triggerCh
  cases hl : loadsDefaults c n i s with
  | false =>
    have hb : ∀ x, ({ s.setCh c x with bus := s.bus ++ [] } : State) = s.setCh c x := by
      intro x; rw [List.append_nil]; cases c <;> rfl
    simp only [defaultsReads, hl, Bool.false_eq_true, if_false, hb]
    cases he : emptyCell n i f s.ninstr with
    | true => rw [trigger_empty c p he]; simp [eq_comm]
    | false => rw [trigger_noDefaults p he hl]; simp [eq_comm]
  | true =>
    have hd : defaultsReads c n i s =
        [.blobRead (defaultsOffset c i s 0), .blobRead (defaultsOffset c i s 1)] := by
      simp [defaultsReads, hl]
    rw [trigger_defaults p hl]
    simp only [andThen_eq_next, blobRead_eq_next, if_true, hd]
    constructor
    · rintro ⟨_, ⟨b0, h0, rfl⟩, _, ⟨b1, h1, rfl⟩, h⟩
      have g0 : defaultsRead c i s 0 = some b0 := h0
      have g1 : defaultsRead c i s 1 = some b1 := h1
      rw [g0, g1]
      refine ⟨_, rfl, ?_⟩
      obtain rfl := (Host.Outcome.next.inj h)
      cases c <;> simp [emit, State.setCh]
    · rintro ⟨x, hx, rfl⟩
      split at hx
      · next b0 b1 h0 h1 =>
        refine ⟨_, ⟨b0, h0, rfl⟩, _, ⟨b1, h1, rfl⟩, ?_⟩
        obtain rfl := Option.some.inj hx
        cases c <;> simp [emit, State.setCh]
      · exact nomatch hx

theorem insAfter_congr {c : Chan} {i : BitVec 4} {s s' : State} (hc : s'.ch c = s.ch c)
    (hi : s'.ninstr = s.ninstr) : insAfter c i s' = insAfter c i s := by
  unfold insAfter; rw [hi, hc]

theorem loadsDefaults_congr {c : Chan} {n : Byte} {i : BitVec 4} {s s' : State}
    (hc : s'.ch c = s.ch c) (hi : s'.ninstr = s.ninstr) :
    loadsDefaults c n i s' = loadsDefaults c n i s := by
  unfold loadsDefaults; rw [insAfter_congr hc hi]

theorem defaultsOffset_congr {c : Chan} {i : BitVec 4} {s s' : State}
    (hc : s'.ch c = s.ch c) (hi : s'.ninstr = s.ninstr) (ho : s'.ordlen = s.ordlen) (k : Nat) :
    defaultsOffset c i s' k = defaultsOffset c i s k := by
  unfold defaultsOffset insBase; rw [insAfter_congr hc hi, ho]

/-- What a trigger looks at (R160 to R169): its channel, the instrument count, the instrument table. -/
theorem triggerCh_congr {c : Chan} {n : Byte} {i f : BitVec 4} {p : Byte} {s s' : State}
    (hc : s'.ch c = s.ch c) (hi : s'.ninstr = s.ninstr)
    (hm : ∀ k, k < 2 → Memory.read s'.mem (s'.base + defaultsOffset c i s' k) =
      Memory.read s.mem (s.base + defaultsOffset c i s k)) :
    triggerCh c n i f p s' = triggerCh c n i f p s := by
  unfold triggerCh defaultsRead
  rw [hm 0 (by decide), hm 1 (by decide), loadsDefaults_congr hc hi, hi, hc]

theorem defaultsReads_congr {c : Chan} {n : Byte} {i : BitVec 4} {s s' : State}
    (hc : s'.ch c = s.ch c) (hi : s'.ninstr = s.ninstr) (ho : s'.ordlen = s.ordlen) :
    defaultsReads c n i s' = defaultsReads c n i s := by
  unfold defaultsReads
  rw [loadsDefaults_congr hc hi, defaultsOffset_congr hc hi ho, defaultsOffset_congr hc hi ho]

/-- The three bytes of the cell at offset `a` (R138). -/
def CellAt (s : State) (a : Nat) (b : Byte × Byte × Byte) : Prop :=
  Memory.read s.mem (s.base + a) = some b.1 ∧ Memory.read s.mem (s.base + (a + 1)) = some b.2.1 ∧
    Memory.read s.mem (s.base + (a + 2)) = some b.2.2

/-- The channel function of a trigger on a cell's bytes. -/
def triggerBytesCh (c : Chan) (b : Byte × Byte × Byte) (s : State) : Option Channel :=
  triggerCh c b.1 (hiNibble b.2.1) (loNibble b.2.1) b.2.2 s

/-- A channel and events more. -/
def State.addCh (s : State) (c : Chan) (x : Channel) (es : List BusEvent) : State :=
  { s.setCh c x with bus := s.bus ++ es }

section addCh

variable (s : State) (c d : Chan) (x : Channel) (es : List BusEvent)

@[simp] theorem addCh_mem : (s.addCh c x es).mem = s.mem := by cases c <;> rfl
@[simp] theorem addCh_base : (s.addCh c x es).base = s.base := by cases c <;> rfl
@[simp] theorem addCh_ninstr : (s.addCh c x es).ninstr = s.ninstr := by cases c <;> rfl
@[simp] theorem addCh_ordlen : (s.addCh c x es).ordlen = s.ordlen := by cases c <;> rfl
theorem ch_addCh_ne (h : d ≠ c) : (s.addCh c x es).ch d = s.ch d := by
  cases c <;> cases d <;> first | rfl | exact absurd rfl h

end addCh

/-- Everything the fetch of one cell can do, and when it answers a next state, in terms of any state
`s` that agrees on what a trigger looks at. -/
theorem fetchCell_iff {a : Nat} {c : Chan} {s u t : State} (hc : u.ch c = s.ch c)
    (hm : u.mem = s.mem) (hb : u.base = s.base) (hi : u.ninstr = s.ninstr)
    (ho : u.ordlen = s.ordlen) :
    fetchCell a c u = .next t ↔ ∃ b x, CellAt s a b ∧ triggerBytesCh c b s = some x ∧
      t = u.addCh c x (cellReads c a b.1 b.2.1 s) := by
  let v := emit (.blobRead (a + 2)) (emit (.blobRead (a + 1)) (emit (.blobRead a) u))
  have hv : v.ch c = s.ch c := by simpa [v] using hc
  have key : ∀ b : Byte × Byte × Byte,
      triggerCh c b.1 (hiNibble b.2.1) (loNibble b.2.1) b.2.2 v = triggerBytesCh c b s := fun b =>
    triggerCh_congr hv hi (fun k _ => by
      rw [defaultsOffset_congr hv hi ho, show v.mem = s.mem from hm, show v.base = s.base from hb])
  have kr : ∀ (n : Byte) (i : BitVec 4), defaultsReads c n i v = defaultsReads c n i s := fun n i =>
    defaultsReads_congr hv hi ho
  have ke : ∀ (b : Byte × Byte × Byte) (x : Channel),
      ({ State.setCh (emit (.blobRead (a + 2)) (emit (.blobRead (a + 1)) (emit (.blobRead a) u))) c x
        with bus := (emit (.blobRead (a + 2)) (emit (.blobRead (a + 1)) (emit (.blobRead a) u))).bus ++
          defaultsReads c b.1 (hiNibble b.2.1) s } : State) =
      u.addCh c x (cellReads c a b.1 b.2.1 s) := by
    intro b x; cases c <;> simp [cellReads, emit, State.setCh, State.addCh]
  simp only [fetchCell, andThen_eq_next, blobRead_eq_next, triggerBytes, trigger_iff]
  constructor
  · rintro ⟨_, ⟨b0, h0, rfl⟩, _, ⟨b1, h1, rfl⟩, _, ⟨b2, h2, rfl⟩, x, hx, rfl⟩
    refine ⟨(b0, b1, b2), x, ⟨by rw [← hm, ← hb]; exact h0, by rw [← hm, ← hb]; exact h1,
      by rw [← hm, ← hb]; exact h2⟩, by rw [← hx, ← key], ?_⟩
    rw [← ke, ← kr]
  · rintro ⟨⟨b0, b1, b2⟩, x, ⟨h0, h1, h2⟩, hx, rfl⟩
    rw [← hm, ← hb] at h0 h1 h2
    refine ⟨_, ⟨b0, h0, rfl⟩, _, ⟨b1, h1, rfl⟩, _, ⟨b2, h2, rfl⟩, x, by rw [← hx, ← key], ?_⟩
    rw [← ke, ← kr]

/-- The reads of a row fetch in order (R138). -/
def rowReads (p : Nat) (b : Chan → Byte × Byte × Byte) (s : State) : List BusEvent :=
  .blobRead (ordBase + s.ord.toNat) :: [Chan.ch1, .ch2, .ch3, .ch4].flatMap fun c =>
    cellReads c (cellAddr s p s.row.toNat c) (b c).1 (b c).2.1 s

/-- A state with other channels and events more. -/
def State.withChs (s : State) (x : Chan → Channel) (es : List BusEvent) : State :=
  { s with ch1 := x .ch1, ch2 := x .ch2, ch3 := x .ch3, ch4 := x .ch4, bus := s.bus ++ es }

/-- Everything a row fetch can do, and when it answers a next state: every channel is triggered by its
own cell, as if it were alone (R138, R171). -/
theorem fetchRow_iff {s t : State} :
    fetchRow s = .next t ↔ ∃ (e : Byte) (b : Chan → Byte × Byte × Byte) (x : Chan → Channel),
      Memory.read s.mem (s.base + (ordBase + s.ord.toNat)) = some e ∧
      (∀ c, CellAt s (cellAddr s (clampPattern e s) s.row.toNat c) (b c)) ∧
      (∀ c, triggerBytesCh c (b c) s = some (x c)) ∧
      t = s.withChs x (rowReads (clampPattern e s) b s) := by
  have join : ∀ (e : BusEvent) (x1 x2 x3 x4 : Channel) (l1 l2 l3 l4 : List BusEvent),
      ((((emit e s).addCh .ch1 x1 l1).addCh .ch2 x2 l2).addCh .ch3 x3 l3).addCh .ch4 x4 l4 =
        s.withChs (fun | .ch1 => x1 | .ch2 => x2 | .ch3 => x3 | .ch4 => x4)
          (e :: (l1 ++ (l2 ++ (l3 ++ (l4 ++ []))))) := by
    intros
    simp [emit, State.addCh, State.setCh, State.withChs]
  simp only [fetchRow, andThen_eq_next, blobRead_eq_next]
  constructor
  · rintro ⟨_, ⟨e, he, rfl⟩, u1, h1, u2, h2, u3, h3, h4⟩
    obtain ⟨b1, x1, h1, g1, rfl⟩ :=
      (fetchCell_iff (s := s) (by simp) (by simp) (by simp) (by simp) (by simp)).1 h1
    obtain ⟨b2, x2, h2, g2, rfl⟩ := (fetchCell_iff (s := s) (by rw [ch_addCh_ne _ _ _ _ _ (by decide)]; simp)
      (by simp) (by simp) (by simp) (by simp)).1 h2
    obtain ⟨b3, x3, h3, g3, rfl⟩ := (fetchCell_iff (s := s) (by
      rw [ch_addCh_ne _ _ _ _ _ (by decide), ch_addCh_ne _ _ _ _ _ (by decide)]; simp)
      (by simp) (by simp) (by simp) (by simp)).1 h3
    obtain ⟨b4, x4, h4, g4, rfl⟩ := (fetchCell_iff (s := s) (by
      rw [ch_addCh_ne _ _ _ _ _ (by decide), ch_addCh_ne _ _ _ _ _ (by decide),
        ch_addCh_ne _ _ _ _ _ (by decide)]; simp)
      (by simp) (by simp) (by simp) (by simp)).1 h4
    refine ⟨e, fun | .ch1 => b1 | .ch2 => b2 | .ch3 => b3 | .ch4 => b4,
      fun | .ch1 => x1 | .ch2 => x2 | .ch3 => x3 | .ch4 => x4, he, ?_, ?_, join _ _ _ _ _ _ _ _ _⟩
    · intro c; cases c <;> assumption
    · intro c; cases c <;> assumption
  · rintro ⟨e, b, x, he, h, g, rfl⟩
    refine ⟨_, ⟨e, he, rfl⟩, _,
      (fetchCell_iff (s := s) (by simp) (by simp) (by simp) (by simp) (by simp)).2
        ⟨b .ch1, x .ch1, h _, g _, rfl⟩, _,
      (fetchCell_iff (s := s) (by rw [ch_addCh_ne _ _ _ _ _ (by decide)]; simp)
      (by simp) (by simp) (by simp) (by simp)).2 ⟨b .ch2, x .ch2, h _, g _, rfl⟩, _,
      (fetchCell_iff (s := s) (by
      rw [ch_addCh_ne _ _ _ _ _ (by decide), ch_addCh_ne _ _ _ _ _ (by decide)]; simp)
      (by simp) (by simp) (by simp) (by simp)).2 ⟨b .ch3, x .ch3, h _, g _, rfl⟩,
      (fetchCell_iff (s := s) (by
      rw [ch_addCh_ne _ _ _ _ _ (by decide), ch_addCh_ne _ _ _ _ _ (by decide),
        ch_addCh_ne _ _ _ _ _ (by decide)]; simp)
      (by simp) (by simp) (by simp) (by simp)).2 ⟨b .ch4, x .ch4, h _, g _, ?_⟩⟩
    exact (join _ _ _ _ _ _ _ _ _).symm

/-- Everything a cell can do, and when it answers a next state (R160, R171, R180). -/
theorem exec_cell_iff {c : Chan} {n : Byte} {i f : BitVec 4} {p : Byte} {s t : State} :
    exec (cellOfFields c n i f p) s = .next t ↔ ∃ x, triggerCh c n i f p s = some x ∧
      t = s.addCh c (effectStep c x) (defaultsReads c n i s) := by
  have h : ∀ x, ({ s.setCh c x with bus := s.bus ++ defaultsReads c n i s } : State).modCh c
      (effectStep c) = s.addCh c (effectStep c x) (defaultsReads c n i s) := by
    intro x; cases c <;> rfl
  simp only [exec_cellOfFields, andThen_eq_next, trigger_iff]
  constructor
  · rintro ⟨_, ⟨x, hx, rfl⟩, ht⟩
    exact ⟨x, hx, by rw [← h]; exact (Host.Outcome.next.inj ht).symm⟩
  · rintro ⟨x, hx, rfl⟩
    exact ⟨_, ⟨x, hx, rfl⟩, by rw [h]⟩

/-! ### The commits -/

/-- The wave guard of channel `c` loads in this commit (R210, R216). -/
def guardLoads (c : Chan) (s : State) : Bool :=
  !latched c s && decide (c = .ch3) && waveNeeded s

/-- The bytes a commit reads: sixteen of the waveform, or none (R217). -/
def CommitBytes (c : Chan) (s : State) (bs : List Byte) : Prop :=
  if guardLoads c s then bs.length = 16 ∧ ∀ j, j < 16 → Memory.read s.mem
    (s.base + (wavBase s + 16 * s.ch3.shape.toNat + j)) = bs[j]?
  else bs = []

/-- The events of a commit (R210). -/
def commitEvents (c : Chan) (s : State) (bs : List Byte) : List BusEvent :=
  muteAnswers (s.mid.before c) s.mute ++
    .muteSample c ((sampledMask c s).getLsbD (chanIndex c)) ::
      if latched c s then []
      else waveEvents (wavBase s + 16 * s.ch3.shape.toNat) 0 bs ++ writeEvents c (s.ch c)

/-- The state after a commit. -/
def State.afterCommit (s : State) (c : Chan) (bs : List Byte) : State :=
  { s.setCh c { s.ch c with hold := latched c s, onset := false } with
    mid := s.mid.clear c, mute := sampledMask c s,
    lwid := if guardLoads c s then s.ch3.shape.setWidth 8 else s.lwid,
    bus := s.bus ++ commitEvents c s bs }

theorem commit_next {c : Chan} {s t : State} (h : commit c s = .next t) :
    ∃ bs, CommitBytes c s bs ∧ t = s.afterCommit c bs := by
  obtain ⟨lw, es, rfl, ⟨hl, rfl, rfl⟩ | ⟨hl, ws, rfl, ⟨hn, rfl, rfl⟩ | ⟨rfl, hn, rfl, bs, hb, hr, rfl⟩⟩⟩ :=
    commit_eq_next h
  · have hg : guardLoads c s = false := by simp [guardLoads, hl]
    refine ⟨[], by simp [CommitBytes, hg], ?_⟩
    simp [State.afterCommit, commitEvents, hg, hl]
  · have hg : guardLoads c s = false := by
      by_contra hg
      simp [guardLoads, hl] at hg
      exact hn hg
    refine ⟨[], by simp [CommitBytes, hg], ?_⟩
    simp [State.afterCommit, commitEvents, hg, hl, waveEvents]
  · have hg : guardLoads .ch3 s = true := by simp [guardLoads, hl, hn]
    refine ⟨bs, by simp only [CommitBytes, hg, if_true]; exact ⟨hb, hr⟩, ?_⟩
    simp [State.afterCommit, commitEvents, hg, hl]

theorem commit_completes {c : Chan} {s : State} {bs : List Byte} (h : CommitBytes c s bs) :
    Completes (commit c s) := by
  unfold commit commitWrites
  rw [ch_latchHold_same]
  cases hl : latched c s with
  | true => exact ⟨_, rfl⟩
  | false =>
    simp only [Bool.false_eq_true, if_false]
    by_cases hc : c = .ch3
    · subst hc
      simp only [if_true, waveGuard]
      have hw : waveNeeded (latchHold .ch3 s) = waveNeeded s := by
        rw [latchHold_eq]; rfl
      rw [hw]
      cases hn : waveNeeded s with
      | false => exact ⟨_, rfl⟩
      | true =>
        have hg : guardLoads .ch3 s = true := by simp [guardLoads, hl, hn]
        simp only [CommitBytes, hg, if_true] at h
        obtain ⟨hb, hr⟩ := h
        obtain ⟨t, ht⟩ : Completes (loadWave (latchHold .ch3 s).ch3.shape.toNat (latchHold .ch3 s)) := by
          refine loadWaveFrom_completes fun j hj => ?_
          rw [latchHold_eq]
          have := hr j hj
          simp only [Nat.zero_add]
          refine Option.isSome_iff_exists.2 ⟨bs[j]'(by rw [hb]; exact hj), ?_⟩
          rw [← List.getElem?_eq_getElem, ← this]
          rfl
        simp only [if_true]
        rw [ht]
        exact ⟨_, rfl⟩
    · simp only [hc, if_false]
      exact ⟨_, rfl⟩

/-- Everything a commit can do, and when it answers a next state (R210). -/
theorem commit_iff {c : Chan} {s t : State} :
    commit c s = .next t ↔ ∃ bs, CommitBytes c s bs ∧ t = s.afterCommit c bs := by
  refine ⟨commit_next, ?_⟩
  rintro ⟨bs, hb, rfl⟩
  obtain ⟨u, hu⟩ := commit_completes hb
  obtain ⟨bs', hb', rfl⟩ := commit_next hu
  rw [hu]
  suffices bs' = bs by rw [this]
  unfold CommitBytes at hb hb'
  split at hb
  · next hg =>
    rw [if_pos hg] at hb'
    refine List.ext_getElem? fun j => ?_
    by_cases hj : j < 16
    · rw [← hb.2 j hj, ← hb'.2 j hj]
    · rw [List.getElem?_eq_none (by rw [hb'.1]; omega), List.getElem?_eq_none (by rw [hb.1]; omega)]
  · next hg =>
    rw [if_neg hg] at hb'
    rw [hb, hb']

/-- The hold latch of channel `c` after a pass (R211). -/
def passHold (c : Chan) (s : State) : Bool := holdAfter (sampledBit c s) (s.ch c).onset (s.ch c).hold

/-- Channel `c` after a pass. -/
def passCh (c : Chan) (s : State) : Channel := { s.ch c with hold := passHold c s, onset := false }

/-- The wave guard loads in this pass. -/
def passLoads (s : State) : Bool := !passHold .ch3 s && waveNeeded s

/-- The bytes the pass reads. -/
def PassBytes (s : State) (bs : List Byte) : Prop :=
  if passLoads s then bs.length = 16 ∧ ∀ j, j < 16 → Memory.read s.mem
    (s.base + (wavBase s + 16 * s.ch3.shape.toNat + j)) = bs[j]?
  else bs = []

/-- `MUTE` when the commit of channel `c` begins. -/
def passMask (c : Chan) (s : State) : BitVec 4 :=
  match c with
  | .ch1 => s.mute
  | .ch2 => muteAfter (s.mid.upTo .ch1) s.mute
  | .ch3 => muteAfter (s.mid.upTo .ch2) s.mute
  | .ch4 => muteAfter (s.mid.upTo .ch3) s.mute

/-- The events of channel `c` in a pass. -/
def passEvents (c : Chan) (s : State) (bs : List Byte) : List BusEvent :=
  muteAnswers (s.mid.before c) (passMask c s) ++ .muteSample c (sampledBit c s) ::
    if passHold c s then []
    else (if c = .ch3 then waveEvents (wavBase s + 16 * s.ch3.shape.toNat) 0 bs else []) ++
      writeEvents c (s.ch c)

/-- The state after the commits. -/
def State.afterPass (s : State) (bs : List Byte) : State :=
  { s with
    ch1 := passCh .ch1 s, ch2 := passCh .ch2 s, ch3 := passCh .ch3 s, ch4 := passCh .ch4 s,
    mid := .none, mute := muteAfter s.mid.all s.mute,
    lwid := if passLoads s then s.ch3.shape.setWidth 8 else s.lwid,
    bus := s.bus ++ (passEvents .ch1 s bs ++ passEvents .ch2 s bs ++ passEvents .ch3 s bs ++
      passEvents .ch4 s bs) }

section afterCommit

variable (s : State) (c d : Chan) (bs : List Byte)

@[simp] theorem afterCommit_run : (s.afterCommit c bs).run = s.run := by cases c <;> rfl
@[simp] theorem afterCommit_first : (s.afterCommit c bs).first = s.first := by cases c <;> rfl
@[simp] theorem afterCommit_base : (s.afterCommit c bs).base = s.base := by cases c <;> rfl
@[simp] theorem afterCommit_speed : (s.afterCommit c bs).speed = s.speed := by cases c <;> rfl
@[simp] theorem afterCommit_ordlen : (s.afterCommit c bs).ordlen = s.ordlen := by cases c <;> rfl
@[simp] theorem afterCommit_npat : (s.afterCommit c bs).npat = s.npat := by cases c <;> rfl
@[simp] theorem afterCommit_ninstr : (s.afterCommit c bs).ninstr = s.ninstr := by cases c <;> rfl
@[simp] theorem afterCommit_nwave : (s.afterCommit c bs).nwave = s.nwave := by cases c <;> rfl
@[simp] theorem afterCommit_ord : (s.afterCommit c bs).ord = s.ord := by cases c <;> rfl
@[simp] theorem afterCommit_row : (s.afterCommit c bs).row = s.row := by cases c <;> rfl
@[simp] theorem afterCommit_tctr : (s.afterCommit c bs).tctr = s.tctr := by cases c <;> rfl
@[simp] theorem afterCommit_mute : (s.afterCommit c bs).mute = sampledMask c s := by cases c <;> rfl
@[simp] theorem afterCommit_mem : (s.afterCommit c bs).mem = s.mem := by cases c <;> rfl
@[simp] theorem afterCommit_port : (s.afterCommit c bs).port = s.port := by cases c <;> rfl
@[simp] theorem afterCommit_mid : (s.afterCommit c bs).mid = s.mid.clear c := by cases c <;> rfl
@[simp] theorem afterCommit_lwid : (s.afterCommit c bs).lwid =
    if guardLoads c s then s.ch3.shape.setWidth 8 else s.lwid := by cases c <;> rfl
@[simp] theorem afterCommit_bus : (s.afterCommit c bs).bus = s.bus ++ commitEvents c s bs := by
  cases c <;> rfl
@[simp] theorem ch_afterCommit_same : (s.afterCommit c bs).ch c =
    { s.ch c with hold := latched c s, onset := false } := by cases c <;> rfl
theorem ch_afterCommit_ne (h : d ≠ c) : (s.afterCommit c bs).ch d = s.ch d := by
  cases c <;> cases d <;> first | rfl | exact absurd rfl h

end afterCommit

/-- What the third commit sees. -/
def twoCommits (s : State) : State := (s.afterCommit .ch1 []).afterCommit .ch2 []

section twoCommits

variable (s : State)

@[simp] theorem twoCommits_ch3 : (twoCommits s).ch .ch3 = s.ch .ch3 := by
  rw [twoCommits, ch_afterCommit_ne _ _ _ _ (by decide), ch_afterCommit_ne _ _ _ _ (by decide)]
@[simp] theorem twoCommits_wavBase : wavBase (twoCommits s) = wavBase s := by
  simp [twoCommits, wavBase, insBase]
@[simp] theorem twoCommits_mem : (twoCommits s).mem = s.mem := by simp [twoCommits]
@[simp] theorem twoCommits_base : (twoCommits s).base = s.base := by simp [twoCommits]
@[simp] theorem guardLoads_ch1 : guardLoads .ch1 s = false := by simp [guardLoads]
@[simp] theorem guardLoads_ch2 : guardLoads .ch2 s = false := by simp [guardLoads]
@[simp] theorem guardLoads_ch4 : guardLoads .ch4 s = false := by simp [guardLoads]

theorem latched_ch1 : latched .ch1 s = passHold .ch1 s := rfl

theorem latched_ch2 : latched .ch2 (s.afterCommit .ch1 []) = passHold .ch2 s := by
  simp [latched, passHold, sampledBit, sampledMask, MidAccesses.before, MidAccesses.clear,
    MidAccesses.upTo, muteAfter_append, ch_afterCommit_ne]

theorem latched_ch3 : latched .ch3 (twoCommits s) = passHold .ch3 s := by
  unfold latched; rw [twoCommits_ch3]
  simp [twoCommits, passHold, sampledBit, sampledMask, MidAccesses.before, MidAccesses.clear,
    MidAccesses.upTo, muteAfter_append]

theorem latched_ch4 (bs : List Byte) :
    latched .ch4 ((twoCommits s).afterCommit .ch3 bs) = passHold .ch4 s := by
  simp [latched, twoCommits, passHold, sampledBit, sampledMask, MidAccesses.before, MidAccesses.clear,
    MidAccesses.upTo, muteAfter_append, ch_afterCommit_ne]

theorem waveNeeded_twoCommits : waveNeeded (twoCommits s) = waveNeeded s := by
  have h1 : (twoCommits s).nwave = s.nwave := by simp [twoCommits]
  have h2 : (twoCommits s).lwid = s.lwid := by simp [twoCommits]
  unfold waveNeeded
  rw [ch3_eq, twoCommits_ch3, h1, h2, ch3_eq]

theorem commitEvents_ch1 (bs : List Byte) : commitEvents .ch1 s [] = passEvents .ch1 s bs := by
  unfold commitEvents passEvents
  rw [latched_ch1]
  rfl

theorem commitEvents_ch2 (bs : List Byte) :
    commitEvents .ch2 (s.afterCommit .ch1 []) [] = passEvents .ch2 s bs := by
  unfold commitEvents passEvents
  rw [latched_ch2, ch_afterCommit_ne _ _ _ _ (by decide)]
  simp [sampledMask, MidAccesses.before, MidAccesses.clear, passMask, sampledBit, MidAccesses.upTo,
    muteAfter_append, waveEvents]

theorem commitEvents_ch3 (bs : List Byte) :
    commitEvents .ch3 (twoCommits s) bs = passEvents .ch3 s bs := by
  unfold commitEvents passEvents
  rw [latched_ch3, twoCommits_wavBase, ch3_eq, twoCommits_ch3, ch3_eq]
  simp [sampledMask, MidAccesses.before, MidAccesses.clear, passMask, sampledBit, MidAccesses.upTo,
    muteAfter_append, twoCommits]

theorem commitEvents_ch4 (bs : List Byte) :
    commitEvents .ch4 ((twoCommits s).afterCommit .ch3 bs) [] = passEvents .ch4 s bs := by
  have h : ((twoCommits s).afterCommit .ch3 bs).ch .ch4 = s.ch .ch4 := by
    rw [ch_afterCommit_ne _ _ _ _ (by decide), twoCommits, ch_afterCommit_ne _ _ _ _ (by decide),
      ch_afterCommit_ne _ _ _ _ (by decide)]
  unfold commitEvents passEvents
  rw [latched_ch4, h]
  simp [sampledMask, MidAccesses.before, MidAccesses.clear, passMask, sampledBit, MidAccesses.upTo,
    muteAfter_append, twoCommits, waveEvents]

theorem guardLoads_twoCommits : guardLoads .ch3 (twoCommits s) = passLoads s := by
  simp [guardLoads, passLoads, latched_ch3, waveNeeded_twoCommits]

end twoCommits

theorem afterCommit_chain (s : State) (bs : List Byte) :
    ((twoCommits s).afterCommit .ch3 bs).afterCommit .ch4 [] = s.afterPass bs := by
  have h1 := latched_ch1 s
  have h2 := latched_ch2 s
  have h3 := latched_ch3 s
  have h4 := latched_ch4 s bs
  have hg := guardLoads_twoCommits s
  have hch3 := twoCommits_ch3 s
  have hwb := twoCommits_wavBase s
  have c1 : ((twoCommits s).afterCommit .ch3 bs |>.afterCommit .ch4 []).ch .ch1 = passCh .ch1 s := by
    rw [ch_afterCommit_ne _ _ _ _ (by decide), ch_afterCommit_ne _ _ _ _ (by decide), twoCommits,
      ch_afterCommit_ne _ _ _ _ (by decide), ch_afterCommit_same]; rfl
  have c2 : ((twoCommits s).afterCommit .ch3 bs |>.afterCommit .ch4 []).ch .ch2 = passCh .ch2 s := by
    rw [ch_afterCommit_ne _ _ _ _ (by decide), ch_afterCommit_ne _ _ _ _ (by decide), twoCommits,
      ch_afterCommit_same, h2, ch_afterCommit_ne _ _ _ _ (by decide)]; rfl
  have c3 : ((twoCommits s).afterCommit .ch3 bs |>.afterCommit .ch4 []).ch .ch3 = passCh .ch3 s := by
    rw [ch_afterCommit_ne _ _ _ _ (by decide), ch_afterCommit_same, h3, hch3]; rfl
  have c4' : ((twoCommits s).afterCommit .ch3 bs).ch .ch4 = s.ch .ch4 := by
    rw [ch_afterCommit_ne _ _ _ _ (by decide), twoCommits, ch_afterCommit_ne _ _ _ _ (by decide),
      ch_afterCommit_ne _ _ _ _ (by decide)]
  have c4 : ((twoCommits s).afterCommit .ch3 bs |>.afterCommit .ch4 []).ch .ch4 = passCh .ch4 s := by
    rw [ch_afterCommit_same, h4, c4']; rfl
  refine State.ext ?_ ?_ ?_ ?_ ?_ ?_ ?_ ?_ ?_ ?_ ?_ ?_ ?_ c1 c2 c3 c4 ?_ ?_ ?_ ?_
  case refine_12 => 
    simp [State.afterPass, twoCommits, sampledMask, MidAccesses.before, MidAccesses.clear,
      MidAccesses.all, muteAfter_append]
  case refine_13 =>
    simp only [afterCommit_lwid, hg, guardLoads_ch4, Bool.false_eq_true, if_false, ch3_eq, hch3]
    simp [twoCommits, State.afterPass, ch3_eq]
  case refine_16 =>
    simp [State.afterPass, twoCommits, MidAccesses.clear, MidAccesses.none]
  case refine_17 =>
    rw [afterCommit_bus, afterCommit_bus, twoCommits, afterCommit_bus, afterCommit_bus, ← twoCommits,
      commitEvents_ch4, commitEvents_ch3, commitEvents_ch2 s bs, commitEvents_ch1 s bs]
    simp [State.afterPass]
  all_goals simp [State.afterPass, twoCommits]

/-- Everything the commits of a TICK can do, and when they answer a next state (R133, R210). -/
theorem commitPass_iff {s t : State} :
    commitPass s = .next t ↔ ∃ bs, PassBytes s bs ∧ t = s.afterPass bs := by
  have hc : ∀ (c : Chan) (u : State), c ≠ .ch3 → guardLoads c u = false := by
    intro c u h; simp [guardLoads, h]
  have hb : ∀ bs, CommitBytes .ch3 (twoCommits s) bs ↔ PassBytes s bs := by
    intro bs
    unfold CommitBytes PassBytes
    rw [guardLoads_twoCommits, twoCommits_wavBase, twoCommits_mem, twoCommits_base, ch3_eq,
      twoCommits_ch3, ch3_eq]
  have h0 : ∀ (c : Chan) (u v : State), c ≠ .ch3 → (commit c u = .next v ↔ v = u.afterCommit c []) := by
    intro c u v h
    rw [commit_iff]
    simp [CommitBytes, hc c u h]
  simp only [commitPass, andThen_eq_next, h0 .ch1 _ _ (by decide), h0 .ch2 _ _ (by decide),
    h0 .ch4 _ _ (by decide), exists_eq_left]
  change (∃ a, commit .ch3 (twoCommits s) = _ ∧ _) ↔ _
  simp only [commit_iff, hb]
  constructor
  · rintro ⟨_, ⟨bs, h, rfl⟩, rfl⟩; exact ⟨bs, h, afterCommit_chain s bs⟩
  · rintro ⟨bs, h, rfl⟩; exact ⟨_, ⟨bs, h, rfl⟩, (afterCommit_chain s bs).symm⟩

/-! ### The effects of a TICK -/

section withChs

variable (s : State) (x : Chan → Channel) (es : List BusEvent) (c : Chan)

@[simp] theorem withChs_ch : (s.withChs x es).ch c = x c := by cases c <;> rfl
@[simp] theorem withChs_mem : (s.withChs x es).mem = s.mem := rfl
@[simp] theorem withChs_base : (s.withChs x es).base = s.base := rfl
@[simp] theorem withChs_bus : (s.withChs x es).bus = s.bus ++ es := rfl
@[simp] theorem withChs_mid : (s.withChs x es).mid = s.mid := rfl
@[simp] theorem withChs_mute : (s.withChs x es).mute = s.mute := rfl
@[simp] theorem withChs_lwid : (s.withChs x es).lwid = s.lwid := rfl
@[simp] theorem withChs_nwave : (s.withChs x es).nwave = s.nwave := rfl
@[simp] theorem withChs_wavBase : wavBase (s.withChs x es) = wavBase s := rfl

/-- Step 3 of TICK changes the channels and nothing else (R133). -/
theorem effectPass_eq : effectPass s = s.withChs (fun c => effectStep c (s.ch c)) [] := by
  apply State.ext <;> simp [effectPass, State.withChs, State.modCh, State.setCh, State.ch]

theorem withChs_withChs (y : Chan → Channel) (l : List BusEvent) :
    (s.withChs x es).withChs y l = s.withChs y (es ++ l) := by
  simp [State.withChs]

end withChs

/-- The state after steps 3 and 4 of a TICK. -/
def State.afterEffects (s : State) (bs : List Byte) : State :=
  (s.withChs (fun c => effectStep c (s.ch c)) []).afterPass bs

/-- The bytes of a waveform load in steps 3 and 4 of a TICK. -/
def EffectBytes (s : State) (bs : List Byte) : Prop :=
  PassBytes (s.withChs (fun c => effectStep c (s.ch c)) []) bs

/-- Everything steps 1 and 2 of a TICK can do, and when they answer a next state (R133, R135). -/
theorem countTick_iff {s t : State} :
    countTick s = .next t ↔
      (s.tctr ≠ 1#8 ∧ t = { s with tctr := s.tctr - 1#8 }) ∨
      (s.tctr = 1#8 ∧ fetchRow (rowBoundary s) = .next t) := by
  have h : s.tctr - 1#8 = 0#8 ↔ s.tctr = 1#8 := by
    constructor <;> intro h
    · exact (BitVec.sub_eq_iff_eq_add.1 h).trans (BitVec.zero_add _)
    · rw [h]; rfl
  unfold countTick
  by_cases hc : s.tctr = 1#8
  · rw [if_pos (h.2 hc)]; simp [hc]
  · rw [if_neg (fun hx => hc (h.1 hx))]; simp [hc, eq_comm]

/-- Everything a TICK can do, and when it answers a next state (R133, R134). -/
theorem execTick_iff {s t : State} :
    execTick s = .next t ↔ (s.run = false ∧ t = s) ∨
      (s.run = true ∧ ∃ u bs, countTick s = .next u ∧ EffectBytes u bs ∧ t = u.afterEffects bs) := by
  unfold execTick
  cases hr : s.run with
  | false => simp [eq_comm]
  | true =>
    simp only [if_true, andThen_eq_next, effectPass_eq, commitPass_iff]
    constructor
    · rintro ⟨u, hu, bs, hb, rfl⟩; exact .inr ⟨trivial, u, bs, hu, hb, rfl⟩
    · rintro (⟨h, _⟩ | ⟨_, u, bs, hu, hb, rfl⟩)
      · exact nomatch h
      · exact ⟨u, hu, bs, hb, rfl⟩

end Sys2Proof.Machine
end

