-- ==== Sys2Proof/Laws/Memory.lean ====
section
/-! SUPPORT. The laws of the caller's memory: a read after a write, and the canonical form. -/

namespace Sys2Proof.Machine.Memory

theorem read_write_same (m : List Host.Cell) (a : Nat) (b : Byte) :
    read (write m a b) a = some b := by
  induction m with
  | nil => simp [write, read]
  | cons x m ih =>
    obtain ⟨k, v⟩ := x
    simp only [write]
    split
    · simp [read]
    · split
      · simp [read]
      · simp only [read]
        rw [if_neg (by omega), ih]

theorem read_write_ne (m : List Host.Cell) {a a' : Nat} (b : Byte) (h : a' ≠ a) :
    read (write m a b) a' = read m a' := by
  induction m with
  | nil => simp [write, read, h.symm]
  | cons x m ih =>
    obtain ⟨k, v⟩ := x
    simp only [write]
    split
    · simp [read, h.symm]
    · split
      · next hk => subst hk; simp [read, h.symm]
      · simp only [read, ih]

/-- The entries of a written memory are old ones or the written one. -/
theorem mem_write {m : List Host.Cell} {a : Nat} {b : Byte} {x : Host.Cell}
    (h : x ∈ write m a b) : x ∈ m ∨ x.1 = a := by
  induction m with
  | nil => simp only [write, List.mem_singleton] at h; simp [h]
  | cons y m ih =>
    obtain ⟨k, v⟩ := y
    simp only [write] at h
    split at h
    · rcases List.mem_cons.1 h with rfl | h
      · exact .inr rfl
      · exact .inl h
    · split at h
      · rcases List.mem_cons.1 h with rfl | h
        · exact .inr rfl
        · exact .inl (List.mem_cons_of_mem _ h)
      · rcases List.mem_cons.1 h with rfl | h
        · exact .inl (by simp)
        · exact (ih h).imp (List.mem_cons_of_mem _) id

theorem wf_nil : wf [] := List.Pairwise.nil

/-- A write keeps the canonical form. -/
theorem wf_write {m : List Host.Cell} (a : Nat) (b : Byte) (h : wf m) : wf (write m a b) := by
  induction m with
  | nil => simp [write, wf]
  | cons y m ih =>
    obtain ⟨k, v⟩ := y
    have hk := List.pairwise_cons.1 h
    simp only [write]
    split
    · next hlt =>
      refine List.pairwise_cons.2 ⟨fun x hx => ?_, h⟩
      rcases List.mem_cons.1 hx with rfl | hx
      · exact hlt
      · exact Nat.lt_trans hlt (hk.1 x hx)
    · split
      · next heq => subst heq; exact List.pairwise_cons.2 ⟨hk.1, hk.2⟩
      · refine List.pairwise_cons.2 ⟨fun x hx => ?_, ih hk.2⟩
        rcases mem_write hx with hx | hx
        · exact hk.1 x hx
        · dsimp only at hx ⊢; omega

theorem wf_writeAll {m : List Host.Cell} (a : Nat) (bs : List Byte) (h : wf m) :
    wf (writeAll m a bs) := by
  induction bs generalizing m a with
  | nil => exact h
  | cons b bs ih => exact ih (a + 1) (wf_write a b h)

theorem read_writeAll_lt (m : List Host.Cell) (bs : List Byte) {a a' : Nat} (h : a' < a) :
    read (writeAll m a bs) a' = read m a' := by
  induction bs generalizing m a with
  | nil => rfl
  | cons b bs ih =>
    rw [writeAll, ih (write m a b) (Nat.lt_succ_of_lt h), read_write_ne _ _ (by omega)]

/-- The bytes read back in order. -/
theorem read_writeAll (m : List Host.Cell) (a : Nat) (bs : List Byte) (k : Nat)
    (h : k < bs.length) : read (writeAll m a bs) (a + k) = bs[k]? := by
  induction bs generalizing m a k with
  | nil => simp at h
  | cons b bs ih =>
    cases k with
    | zero =>
      rw [Nat.add_zero, writeAll, read_writeAll_lt _ _ (Nat.lt_succ_self a), read_write_same]
      rfl
    | succ k =>
      have := ih (write m a b) (a + 1) k (by simpa using h)
      rw [writeAll, show a + (k + 1) = a + 1 + k by omega, this]
      simp

end Sys2Proof.Machine.Memory
end

