-- ==== Sys2Proof/Laws/HostPort.lean ====
section
/-! SUPPORT. What a store of the caller to its own memory can do (20_memory.md R64, R78). -/

namespace Sys2Proof.Machine

theorem inPlayingBlob_iff {a : Nat} {s : State} : inPlayingBlob a s = true ↔
    s.run = true ∧ s.base ≤ a ∧ a < s.base + blobLen s := by
  simp [inPlayingBlob, and_assoc]

/-- All that a store can do: it stores the byte, unless that changes the playing blob. -/
theorem storeByte_iff {a : Nat} {b : Byte} {s t : State} : storeByte a b s = .next t ↔
    (s.run = true → s.base ≤ a → a < s.base + blobLen s → Memory.read s.mem a = some b) ∧
      t = { s with mem := Memory.write s.mem a b } := by
  unfold storeByte
  split
  · next h =>
    obtain ⟨h1, h2⟩ := h
    obtain ⟨hr, ha, hl⟩ := inPlayingBlob_iff.1 h1
    exact ⟨fun h => by simp at h, fun h => absurd (h.1 hr ha hl) h2⟩
  · next h =>
    refine ⟨fun e => ⟨fun hr ha hl => ?_, by cases e; rfl⟩, fun e => by rw [e.2]⟩
    by_contra hne
    exact h ⟨inPlayingBlob_iff.2 ⟨hr, ha, hl⟩, hne⟩

end Sys2Proof.Machine
end

