-- ==== Sys2Proof/Laws/PerInstr.lean ====
section
/-! SUPPORT. Statements made for every instruction, one lemma per constructor: the opcode bits of its
encoding are those the opcode table gives its row (30_encoding.md R98, R103, R107). -/

namespace Sys2Proof.Laws.OpcodeBits

/-- The length in bits of an instruction's word and its opcode: `F`, bits 11:8 of a cell's 24 (R103), or
the two bits of a command (R107). -/
def tableRow : Instr → Nat × Nat
  | .non _ _ _ _ => (24, 0)
  | .slu _ _ _ _ => (24, 1)
  | .sld _ _ _ _ => (24, 2)
  | .arp _ _ _ _ => (24, 3)
  | .vib _ _ _ _ => (24, 4)
  | .vfi _ _ _ _ => (24, 5)
  | .vfo _ _ _ _ => (24, 6)
  | .dcy _ _ _ _ => (24, 7)
  | .rs8 _ _ _ _ => (24, 8)
  | .rs9 _ _ _ _ => (24, 9)
  | .rsa _ _ _ _ => (24, 10)
  | .rsb _ _ _ _ => (24, 11)
  | .rsc _ _ _ _ => (24, 12)
  | .rsd _ _ _ _ => (24, 13)
  | .rse _ _ _ _ => (24, 14)
  | .rsf _ _ _ _ => (24, 15)
  | .nop => (2, 0)
  | .start _ => (2, 1)
  | .tick => (2, 2)
  | .resetwave => (2, 3)

/-- The encoder writes the opcode of the instruction's row. -/
def Statement (i : Instr) : Prop :=
  match encode i with
  | .cell _ b1 _ => tableRow i = (24, (loNibble b1).toNat)
  | .command code _ => tableRow i = (2, code.toNat)

/-- The low nibble of a byte of two nibbles. -/
theorem loNibble_byteOfNibbles (i f : BitVec 4) : loNibble (byteOfNibbles i f) = f := by
  revert i f; decide

/-- The high nibble of a byte of two nibbles. -/
theorem hiNibble_byteOfNibbles (i f : BitVec 4) : hiNibble (byteOfNibbles i f) = i := by
  revert i f; decide

theorem of_cell {i : Instr} {n : Byte} {x f : BitVec 4} {p : Byte} (h : encode i = cellWords n x f p)
    (ht : tableRow i = (24, f.toNat)) : Statement i := by
  unfold Statement
  rw [h]
  simp only [cellWords, loNibble_byteOfNibbles]
  exact ht

theorem non (c : Chan) (n : Byte) (i : BitVec 4) (p : Byte) :
    Statement (.non c n i p) := of_cell rfl rfl
theorem slu (c : Chan) (n : Byte) (i : BitVec 4) (p : Byte) :
    Statement (.slu c n i p) := of_cell rfl rfl
theorem sld (c : Chan) (n : Byte) (i : BitVec 4) (p : Byte) :
    Statement (.sld c n i p) := of_cell rfl rfl
theorem arp (c : Chan) (n : Byte) (i : BitVec 4) (p : Byte) :
    Statement (.arp c n i p) := of_cell rfl rfl
theorem vib (c : Chan) (n : Byte) (i : BitVec 4) (p : Byte) :
    Statement (.vib c n i p) := of_cell rfl rfl
theorem vfi (c : Chan) (n : Byte) (i : BitVec 4) (p : Byte) :
    Statement (.vfi c n i p) := of_cell rfl rfl
theorem vfo (c : Chan) (n : Byte) (i : BitVec 4) (p : Byte) :
    Statement (.vfo c n i p) := of_cell rfl rfl
theorem dcy (c : Chan) (n : Byte) (i : BitVec 4) (p : Byte) :
    Statement (.dcy c n i p) := of_cell rfl rfl
theorem rs8 (c : Chan) (n : Byte) (i : BitVec 4) (p : Byte) :
    Statement (.rs8 c n i p) := of_cell rfl rfl
theorem rs9 (c : Chan) (n : Byte) (i : BitVec 4) (p : Byte) :
    Statement (.rs9 c n i p) := of_cell rfl rfl
theorem rsa (c : Chan) (n : Byte) (i : BitVec 4) (p : Byte) :
    Statement (.rsa c n i p) := of_cell rfl rfl
theorem rsb (c : Chan) (n : Byte) (i : BitVec 4) (p : Byte) :
    Statement (.rsb c n i p) := of_cell rfl rfl
theorem rsc (c : Chan) (n : Byte) (i : BitVec 4) (p : Byte) :
    Statement (.rsc c n i p) := of_cell rfl rfl
theorem rsd (c : Chan) (n : Byte) (i : BitVec 4) (p : Byte) :
    Statement (.rsd c n i p) := of_cell rfl rfl
theorem rse (c : Chan) (n : Byte) (i : BitVec 4) (p : Byte) :
    Statement (.rse c n i p) := of_cell rfl rfl
theorem rsf (c : Chan) (n : Byte) (i : BitVec 4) (p : Byte) :
    Statement (.rsf c n i p) := of_cell rfl rfl
theorem nop : Statement .nop := rfl
theorem start (ptr : Nat) : Statement (.start ptr) := rfl
theorem tick : Statement .tick := rfl
theorem resetwave : Statement .resetwave := rfl

end Sys2Proof.Laws.OpcodeBits
end

