-- ==== Sys2Proof/Tests/Slice0.lean ====
section
/-! SUPPORT. The model's own tests: ill-formed terms refused, the decoding of words written out from the
spec's encodings, one or two single steps per instruction with the results of 95_test_vectors.md, and for
every statement with hypotheses a concrete state and operands that meet them. -/

namespace Sys2Proof.Tests

open Sys2Proof Sys2Proof.Machine

/-! ### Helpers -/

/-- The next state, if there is one. -/
def nextOf (o : Host.Outcome State Fault Refusal) : Option State :=
  match o with
  | .next t => some t
  | _ => none

/-- A field of the next state. -/
def after {α : Type} (o : Host.Outcome State Fault Refusal) (f : State → α) : Option α :=
  (nextOf o).map f

/-- A step that ended in a next state has one. -/
theorem exists_next {o : Host.Outcome State Fault Refusal} (h : (nextOf o).isSome = true) :
    ∃ t, o = .next t := by
  cases o with
  | next t => exact ⟨t, rfl⟩
  | fault r => cases r
  | refused r => cases h

/-- A playing song with two instruments and nothing else readable: `ordlen = 1`, so the instrument table
stands at offsets 9 to 12. -/
def bench (a0 a1 b0 b1 : Byte) : State :=
  { State.reset with
    run := true, speed := 255#8, ordlen := 1#8, npat := 1#8, ninstr := 2#8, tctr := 9#8,
    mem := [(9, a0), (10, a1), (11, b0), (12, b1)] }

/-- The bench of most vectors: instrument 1 is `A3 80`, instrument 2 is `F0 40`. -/
def bench1 : State := bench 0xA3#8 0x80#8 0xF0#8 0x40#8

/-- Program P1 of 95_test_vectors.md up to the end of row 0, at address 0. -/
def p1Bytes : List Byte :=
  [0x01#8, 0x06#8, 0x02#8, 0x02#8, 0x01#8, 0x00#8, 0x00#8, 0x00#8, 0x00#8, 0x01#8, 0xA0#8, 0x80#8,
   0x0C#8, 0x10#8, 0x00#8, 0xFF#8, 0x00#8, 0x00#8, 0xFF#8, 0x00#8, 0x00#8, 0xFF#8, 0x00#8, 0x00#8]

/-- Power-on with the bytes of P1 readable from address 0 on. -/
def p1Off : State := { State.reset with mem := Memory.writeAll [] 0 p1Bytes }

/-- P1 after START. -/
def p1 : State :=
  { p1Off with
    run := true, first := true, speed := 6#8, ordlen := 2#8, npat := 2#8, ninstr := 1#8,
    tctr := 1#8, bus := headerReads }

/-! ### Ill-formed terms -/

/-- A pointer wider than the port's `PTR_W` wires is refused (R107). -/
theorem test_pointer_too_wide : ¬(Instr.start (2 ^ Config.ptrW)).WellFormed :=
  Nat.lt_irrefl _

/-- The largest pointer is accepted. -/
theorem test_pointer_largest : (Instr.start (2 ^ Config.ptrW - 1)).WellFormed :=
  Nat.sub_lt (Nat.two_pow_pos _) Nat.one_pos

/-- Two bytes are no cell (R98). -/
theorem test_truncated_cell : decodeCell .ch1 [0x0C#8, 0x10#8] = .error .truncatedCell := rfl

/-- 4 is no 2-bit code (R107). -/
theorem test_no_command_code : decodeCommandByte 4#8 0 = .error .notACommandCode := rfl

/-- A word above 24 bits and a word of another length are refused. -/
theorem test_table_word_refused :
    decodeTableWord 24 0x1000000 = none ∧ decodeTableWord 16 2 = none ∧ decodeTableWord 8 4 = none :=
  ⟨rfl, rfl, rfl⟩

/-! ### Decoding: words written out from R98, R103 and R107 -/

/-- `0C 1F PP`: note 12, instrument 1, the codes 0 to 3. -/
theorem test_decode_0_3 :
    cellOfBytes .ch1 0x0C#8 0x10#8 0x07#8 = .non .ch1 12#8 1#4 7#8 ∧
    cellOfBytes .ch1 0x0C#8 0x11#8 0x10#8 = .slu .ch1 12#8 1#4 0x10#8 ∧
    cellOfBytes .ch2 0x00#8 0x12#8 0x14#8 = .sld .ch2 0#8 1#4 0x14#8 ∧
    cellOfBytes .ch2 0x0C#8 0x23#8 0x47#8 = .arp .ch2 12#8 2#4 0x47#8 := ⟨rfl, rfl, rfl, rfl⟩

/-- The codes 4 to 7. -/
theorem test_decode_4_7 :
    cellOfBytes .ch1 0xFF#8 0x04#8 0x37#8 = .vib .ch1 0xFF#8 0#4 0x37#8 ∧
    cellOfBytes .ch3 0x0C#8 0x15#8 0x01#8 = .vfi .ch3 12#8 1#4 1#8 ∧
    cellOfBytes .ch3 0x0C#8 0x16#8 0x02#8 = .vfo .ch3 12#8 1#4 2#8 ∧
    cellOfBytes .ch4 0xFF#8 0x07#8 0x02#8 = .dcy .ch4 0xFF#8 0#4 2#8 := ⟨rfl, rfl, rfl, rfl⟩

/-- The reserved codes 8 to B. -/
theorem test_decode_8_b :
    cellOfBytes .ch1 0xFF#8 0x08#8 0x00#8 = .rs8 .ch1 0xFF#8 0#4 0#8 ∧
    cellOfBytes .ch1 0x50#8 0xF9#8 0x00#8 = .rs9 .ch1 80#8 15#4 0#8 ∧
    cellOfBytes .ch1 0x47#8 0x0A#8 0x80#8 = .rsa .ch1 71#8 0#4 128#8 ∧
    cellOfBytes .ch1 0x47#8 0x8B#8 0x80#8 = .rsb .ch1 71#8 8#4 128#8 := ⟨rfl, rfl, rfl, rfl⟩

/-- The reserved codes C to F. -/
theorem test_decode_c_f :
    cellOfBytes .ch4 0x47#8 0x4C#8 0x01#8 = .rsc .ch4 71#8 4#4 1#8 ∧
    cellOfBytes .ch4 0x47#8 0x2D#8 0x02#8 = .rsd .ch4 71#8 2#4 2#8 ∧
    cellOfBytes .ch4 0x47#8 0x1E#8 0x04#8 = .rse .ch4 71#8 1#4 4#8 ∧
    cellOfBytes .ch1 0x0C#8 0x1F#8 0xFF#8 = .rsf .ch1 12#8 1#4 0xFF#8 := ⟨rfl, rfl, rfl, rfl⟩

/-- The four command codes. -/
theorem test_decode_commands :
    decodeCommand 0b00#2 9 = .nop ∧ decodeCommand 0b01#2 9 = .start 9 ∧
    decodeCommand 0b10#2 9 = .tick ∧ decodeCommand 0b11#2 9 = .resetwave := ⟨rfl, rfl, rfl, rfl⟩

/-- A word as the opcode table numbers it: `0C 11 10` is `0x0C1110`. -/
theorem test_table_word :
    decodeTableWord 24 0x0C1110 = some (.slu .ch1 12#8 1#4 0x10#8) ∧ decodeTableWord 8 2 = some .tick :=
  ⟨rfl, rfl⟩

/-- A placed cell and a placed command are run by the next step. Source: V-NOINS, tick 1. -/
theorem test_placed_cell :
    after (step (State.reset.withFetchWord 24 0x0C0000)) (fun t => (sinkTraceOf t.bus).take 4) =
      some [(0, 0#11), (1, 0#11), (2, 1046#11), (3, 1#11)] := by decide

theorem test_placed_start :
    after (step (State.reset.withFetchWord 8 1)) (fun t => (t.run, t.speed)) = some (true, 1#8) := by
  decide

/-! ### The text form. Source: the examples of R109 to R111 -/

theorem test_text_cell :
    readCell .ch1 "C-4 1 110".toList = some (.slu .ch1 12#8 1#4 0x10#8) ∧
    readCell .ch1 "... . ...".toList = some (.non .ch1 0xFF#8 0#4 0#8) ∧
    readCell .ch1 "A#8 1 ARP 15".toList = some (.arp .ch1 70#8 1#4 0x15#8) := by decide

theorem test_text_pseudo :
    readCell .ch1 "FXSTOP 2".toList = some (.non .ch1 0xFF#8 2#4 0#8) ∧
    readCell .ch1 "HOLDFX".toList = some (.rs8 .ch1 0xFF#8 0#4 0#8) := by decide

/-! ### Cells on the tick that loads them. Source: 95_test_vectors.md 2.2 to 2.4 -/

/-- V-NON1; and the instrument's fields worked out from R94: `09 C0` is volume 0 rising one step each tick
with duty 3, `A3 20` volume 10 falling with period 3 and noise mode 1, `A3 80` on CH3 waveform 0 and
`F1 8B` waveform 11. -/
theorem test_non :
    after (exec (.non .ch1 12#8 1#4 0#8) bench1) (fun t => (t.ch1.fout, t.ch1.vol, t.ch1.shape)) =
      some (1046#11, 10#4, 2#4) ∧
    after (exec (.non .ch2 12#8 2#4 0#8) (bench 0xA3#8 0x80#8 0x09#8 0xC0#8))
      (fun t => (t.ch2.vol, t.ch2.edir, t.ch2.eper, t.ch2.ectr, t.ch2.shape)) =
      some (1#4, true, 1#8, 0#8, 3#4) ∧
    after (exec (.non .ch4 5#8 1#4 0#8) (bench 0xA3#8 0x20#8 0#8 0#8))
      (fun t => (t.ch4.vol, t.ch4.edir, t.ch4.eper, t.ch4.ectr, t.ch4.shape)) =
      some (10#4, false, 3#8, 1#8, 1#4) ∧
    after (exec (.non .ch3 5#8 2#4 0#8) (bench 0xA3#8 0x80#8 0xF1#8 0x8B#8))
      (fun t => (t.ch3.vol, t.ch3.eper, t.ch3.shape)) = some (14#4, 1#8, 11#4) := by decide

/-- V-DEC: an instrument field above `ninstr` is ignored and the cell is empty. -/
theorem test_non_empty : after (exec (.non .ch1 72#8 3#4 7#8) bench1)
    (fun t => (t.ch1.ins, t.ch1.fxp, t.bus)) = some (0#4, 0#8, []) := by decide

/-- V-SLU1. -/
theorem test_slu : after (exec (.slu .ch1 12#8 1#4 0x10#8) bench1) (fun t => t.ch1.fout) =
    some 1062#11 := by decide

/-- V-SLU2: 2015 + 255 is clamped. -/
theorem test_slu_clamp : after (exec (.slu .ch1 71#8 1#4 0xFF#8) bench1) (fun t => t.ch1.fout) =
    some 2047#11 := by decide

/-- V-SLD2: on CH4 note 5 less 3. -/
theorem test_sld : after (exec (.sld .ch4 5#8 1#4 3#8) bench1) (fun t => t.ch4.fout) =
    some 2#11 := by decide

/-- V-SLD1, third tick: 4 - 20 is clamped to 0. -/
theorem test_sld_clamp :
    (effectStep .ch1 { Channel.zero with fx := 2#4, fxp := 20#8, pitch := 4#11 }).fout = 0#11 := by
  decide

/-- V-ARP1, first tick: offset 0, and the step moves on. -/
theorem test_arp : after (exec (.arp .ch1 12#8 1#4 0x47#8) bench1)
    (fun t => (t.ch1.fout, t.ch1.astep)) = some (1046#11, 1) := by decide

/-- V-ARP2, third tick: 70 + 5 is clamped to 71. -/
theorem test_arp_clamp :
    (effectStep .ch1 { Channel.zero with fx := 3#4, fxp := 0x15#8, note := 70#7, astep := 2 }).fout =
      2015#11 := by decide

/-- V-VIB1, third tick: phase 16 is quadrant 1. -/
theorem test_vib :
    (effectStep .ch1 { Channel.zero with
      fx := 4#4, fxp := 0x83#8, pitch := 1046#11, vphase := 16#6 }).fout = 1049#11 := by decide

/-- V-VIB6: on CH4 phase 60 is quadrant 3, and 3 - 7 is clamped to 0. -/
theorem test_vib_clamp :
    (effectStep .ch4 { Channel.zero with
      fx := 4#4, fxp := 0xF7#8, pitch := 3#11, vphase := 60#6 }).fout = 0#11 := by decide

/-- V-VFI1, first tick. -/
theorem test_vfi : after (exec (.vfi .ch1 12#8 1#4 1#8) (bench 0xD0#8 0#8 0#8 0#8))
    (fun t => (t.ch1.vol, t.ch1.fx)) = some (14#4, 5#4) := by decide

/-- V-VFI2: the fade takes over the instrument's envelope. -/
theorem test_vfi_envelope : after (exec (.vfi .ch1 12#8 1#4 0xFF#8) bench1)
    (fun t => (t.ch1.vol, t.ch1.edir, t.ch1.eper)) = some (10#4, true, 0xFF#8) := by decide

/-- V-FADE-PERSIST, tick 1. -/
theorem test_vfo : after (exec (.vfo .ch1 12#8 2#4 1#8) bench1) (fun t => t.ch1.vol) =
    some 14#4 := by decide

/-- V-VFO2: `P = 0` stops the instrument's envelope. -/
theorem test_vfo_zero : after (exec (.vfo .ch1 12#8 1#4 0#8) bench1)
    (fun t => (t.ch1.vol, t.ch1.eper)) = some (10#4, 0#8) := by decide

/-- V-DCY2, first tick. -/
theorem test_dcy : after (exec (.dcy .ch1 12#8 1#4 1#8) bench1) (fun t => t.ch1.shape) =
    some 3#4 := by decide

/-- V-DCY4: a no-op on CH3, whose shape is the waveform index. -/
theorem test_dcy_wave : after (exec (.dcy .ch3 12#8 1#4 1#8) (bench 0xA3#8 0x85#8 0#8 0#8))
    (fun t => (t.ch3.shape, t.ch3.dctr)) = some (5#4, 0#8) := by decide

/-- R194, the cell of V-RSF1 with each reserved code: pitch out, code and parameter stored. -/
def reservedRun (i : Instr) : Option (BitVec 11 × BitVec 4 × BitVec 4 × Byte) :=
  after (exec i bench1) (fun t => (t.ch1.fout, t.ch1.vol, t.ch1.fx, t.ch1.fxp))

theorem test_rs8 : reservedRun (.rs8 .ch1 12#8 1#4 0xFF#8) = some (1046#11, 10#4, 8#4, 0xFF#8) := by
  decide
theorem test_rs9 : reservedRun (.rs9 .ch1 12#8 1#4 0xFF#8) = some (1046#11, 10#4, 9#4, 0xFF#8) := by
  decide
theorem test_rsa : reservedRun (.rsa .ch1 12#8 1#4 0xFF#8) = some (1046#11, 10#4, 10#4, 0xFF#8) := by
  decide
theorem test_rsb : reservedRun (.rsb .ch1 12#8 1#4 0xFF#8) = some (1046#11, 10#4, 11#4, 0xFF#8) := by
  decide
theorem test_rsc : reservedRun (.rsc .ch1 12#8 1#4 0xFF#8) = some (1046#11, 10#4, 12#4, 0xFF#8) := by
  decide
theorem test_rsd : reservedRun (.rsd .ch1 12#8 1#4 0xFF#8) = some (1046#11, 10#4, 13#4, 0xFF#8) := by
  decide
theorem test_rse : reservedRun (.rse .ch1 12#8 1#4 0xFF#8) = some (1046#11, 10#4, 14#4, 0xFF#8) := by
  decide
theorem test_rsf : reservedRun (.rsf .ch1 12#8 1#4 0xFF#8) = some (1046#11, 10#4, 15#4, 0xFF#8) := by
  decide

/-- V-ENV3, tick 16: the first step attempted at 15 stops the generator. -/
theorem test_envelope_stop :
    (envelopeStep { Channel.zero with vol := 15#4, edir := true, eper := 1#8 }).eper = 0#8 := by decide

/-! ### Commands -/

/-- V-IDLE. -/
theorem test_nop : after (exec .nop State.reset) (fun t => (t.run, t.lwid, t.bus)) =
    some (false, 0xFF#8, []) := by decide

/-- V-START, first row: program P1. -/
theorem test_start : after (exec (.start 0) p1Off)
    (fun t => (t.run, t.speed, t.tctr, t.first, readTraceOf t.bus)) =
      some (true, 6#8, 1#8, true, [0, 1, 2, 3, 4, 5]) := by decide

/-- V-START, row 4: the cached registers also of an invalid header. -/
theorem test_start_invalid :
    after (exec (.start 7) { State.reset with
      mem := Memory.writeAll [] 7 [0x02#8, 0x03#8, 0x02#8, 0x02#8, 0x02#8, 0x01#8] })
      (fun t => (t.run, t.speed, t.ninstr, t.nwave)) = some (false, 3#8, 2#8, 1#8) := by decide

/-- V-IDLE: a TICK before any START. -/
theorem test_tick_idle : after (exec .tick State.reset) (fun t => (t.run, t.tctr, t.bus)) =
    some (false, 0#8, []) := by decide

/-- P1, tick 1: the reads in order and the writes of CH1. -/
theorem test_tick : after (exec .tick { p1 with bus := [] })
    (fun t => (readTraceOf t.bus, (sinkTraceOf t.bus).take 4)) =
      some ([8, 12, 13, 14, 10, 11, 15, 16, 17, 18, 19, 20, 21, 22, 23],
        [(0, 2#11), (1, 10#11), (2, 1046#11), (3, 1#11)]) := by decide

/-- P3: `lwid` goes from 0 to 0xFF. -/
theorem test_resetwave : after (exec .resetwave { p1 with lwid := 0#8 }) (fun t => t.lwid) =
    some 0xFF#8 := by decide

/-- V-ADV. -/
theorem test_advance :
    (advancePosition { State.reset with ord := 1#8, row := 63#6, ordlen := 2#8 }).ord = 0#8 ∧
    (advancePosition { State.reset with ord := 253#8, row := 63#6, ordlen := 255#8 }).ord = 254#8 ∧
    (advancePosition { State.reset with ord := 0#8, row := 62#6, ordlen := 2#8 }).row = 63#6 := by
  decide

/-- V-FETCH: program P4, row 0 of the pattern the entry 7 is clamped to. -/
theorem test_fetch_address :
    let s := { State.reset with ordlen := 2#8, ninstr := 2#8, nwave := 1#8, npat := 2#8 }
    cellAddr s (clampPattern 7#8 s) 0 .ch1 = 798 ∧ cellAddr s (clampPattern 7#8 s) 0 .ch4 = 807 := by
  decide

/-! ### Commits. Source: V-COMMIT -/

/-- Channel `c` with the given hold and onset. -/
def pending (shape : BitVec 4) (vol : BitVec 4) (fout : BitVec 11) (onset hold : Bool) : Channel :=
  { Channel.zero with shape := shape, vol := vol, fout := fout, onset := onset, hold := hold }

/-- Row 5: an unmuted channel is written again at its note. -/
theorem test_commit_unhold :
    after (commit .ch2 { State.reset with ch2 := pending 1#4 15#4 1253#11 true true })
      (fun t => (sinkTraceOf t.bus, t.ch2.hold, t.ch2.onset)) =
      some ([(8, 1#11), (9, 15#11), (10, 1253#11), (11, 1#11)], false, false) := by decide

/-- Row 10: an index the table does not have loads nothing (DF6). -/
theorem test_commit_no_wave :
    after (commit .ch3 { State.reset with nwave := 1#8, ch3 := pending 5#4 7#4 1547#11 true false })
      (fun t => (sinkTraceOf t.bus, t.lwid)) =
      some ([(16, 5#11), (17, 7#11), (18, 1547#11), (19, 1#11)], 0xFF#8) := by decide

/-- A state about to load waveform 0, whose sixteen bytes are readable at offset 8. -/
def loading : State :=
  { State.reset with
    nwave := 2#8, ch3 := pending 0#4 8#4 1714#11 true false,
    mem := Memory.writeAll [] 8 (List.replicate 16 0xA5#8) }

/-- Row 7: the waveform first. -/
theorem test_commit_wave :
    after (commit .ch3 loading) (fun t => ((sinkTraceOf t.bus).drop 15, t.lwid)) =
      some ([(47, 0xA5#11), (16, 0#11), (17, 8#11), (18, 1714#11), (19, 1#11)], 0#8) := by decide

/-- R95, R66: of the byte `A5` the earlier sample is `A`, the later one 5. -/
theorem test_wave_samples :
    waveBytesOf [0xA#4, 0x5#4] = [0xA5#8] ∧
    after (commit .ch3 loading) (fun t => (residentSample 30 (sinkTraceOf t.bus),
      residentSample 31 (sinkTraceOf t.bus), residentSample 32 (sinkTraceOf t.bus))) =
      some (some 0xA#4, some 5#4, none) := by decide

/-! ### Host accesses of `MUTE` -/

/-- R69: a write stores bits 3:0, and a read returns them zero-extended. -/
theorem test_mute_write :
    after (step { State.reset with port := [.access (.write 0xF9#8)] }) (fun t => t.mute) =
      some 9#4 ∧
    after (step { State.reset with mute := 9#4, port := [.access .read] }) (fun t => t.bus) =
      some [.muteRead 9#8] := by decide

/-- V-MUTE2: a bit that only CH2's sample sees. -/
theorem test_mute_mid_tick :
    after (step { p1 with
        tctr := 5#8,
        port := [.command 0b10#2 0 ⟨[], [.write 2#8], [.write 0#8], []⟩] })
      (fun t => (sampleTraceOf t.bus, t.ch1.hold, t.ch2.hold, t.ch3.hold, t.mute)) =
      some ([(.ch1, false), (.ch2, true), (.ch3, false), (.ch4, false)], false, true, false, 0#4) := by
  decide

/-- An overlapped command is refused by name (U1). -/
theorem test_overlap :
    step { State.reset with port := [.overlapped 0b10#2 0 0b10#2 0] } = .refused .commandOverlap := rfl

/-- The caller stores a byte of its own memory while no song plays; a store that would change the playing
blob is refused by name (R64, U5). -/
theorem test_store :
    after (step { State.reset with port := [.store 9 7#8] }) (fun t => Memory.read t.mem 9) =
      some (some 7#8) ∧
    step { p1 with port := [.store 11 0#8] } = .refused (.blobChanged 11) := ⟨by decide, rfl⟩

/-- A START of a pointer with nothing readable is refused by name (U5). -/
theorem test_unreadable : exec (.start 3) State.reset = .refused (.blobUnreadable 3) := rfl

/-! ### Witnesses: for every statement with hypotheses, values that meet them together -/

theorem zero_inv (c : Chan) (ninstr : Byte) : ChannelInv c ninstr Channel.zero := by
  cases c <;> constructor <;> simp [Channel.zero]

theorem held_inv (c : Chan) (ninstr : Byte) :
    ChannelInv c ninstr { Channel.zero with hold := true } := by
  cases c <;> constructor <;> simp [Channel.zero]

/-- The invariant of a state whose channels are idle and whose song plays. -/
theorem inv_of {s : State} (hc : ∀ c, ChannelInv c s.ninstr (s.ch c))
    (hi : ∀ c, (s.ch c).onset = false) (hp : PlayInv s) (hl : s.lwid = Config.noWave)
    (hm : Memory.wf s.mem) (hb : s.base = 0) (hq : s.port = []) : BlockInv s where
  chan := hc
  idle := hi
  play := fun _ => hp
  wave := Or.inl hl
  mem := hm
  base := by rw [hb]; exact Nat.two_pow_pos _
  port := by intro e he; rw [hq] at he; cases he

/-- P1 in the middle of row 0. -/
def p1Mid : State := { p1 with first := false, tctr := 5#8 }

theorem p1_inv : MachineInv p1 :=
  ⟨inv_of (fun c => by cases c <;> exact zero_inv _ _) (fun c => by cases c <;> rfl)
    (by constructor <;> decide) rfl (Memory.wf_writeAll _ _ Memory.wf_nil) rfl rfl, rfl⟩

/-- Accesses of `MUTE` in every gap of a TICK, reads among them. -/
def accesses : MidAccesses :=
  ⟨[.write 0x1F#8, .read], [.write 0#8, .write 2#8], [.read], [.write 0x0C#8, .read, .write 8#8]⟩

/-- The middle of row 0 of P1 with those accesses inside the TICK. -/
def p1Busy : State := { p1Mid with mid := accesses }

theorem p1Busy_inv : BlockInv p1Busy :=
  inv_of (fun c => by cases c <;> exact zero_inv _ _) (fun c => by cases c <;> rfl)
    (by constructor <;> decide) rfl (Memory.wf_writeAll _ _ Memory.wf_nil) rfl rfl

/-- `778` readable bytes `v` from address 0 on. -/
@[irreducible] def wholeMem (v : Byte) : List Host.Cell :=
  Memory.writeAll [] 0 (List.replicate 778 v)

theorem wholeMem_wf (v : Byte) : Memory.wf (wholeMem v) := by
  unfold wholeMem; exact Memory.wf_writeAll _ _ Memory.wf_nil

theorem wholeMem_read (v : Byte) {off : Nat} (h : off < 778) :
    Memory.read (wholeMem v) (0 + off) = some v := by
  have hl : off < (List.replicate 778 v).length := by rw [List.length_replicate]; exact h
  unfold wholeMem
  rw [Memory.read_writeAll _ _ _ _ hl, List.getElem?_eq_getElem hl, List.getElem_replicate]

/-- A song of `778` readable bytes, at the last tick of a row. -/
def whole (first : Bool) (row : BitVec 6) (ord : Byte) : State :=
  { State.reset with
    run := true, first := first, speed := 6#8, ordlen := 2#8, npat := 1#8, tctr := 1#8,
    row := row, ord := ord, mem := wholeMem 0xFF#8 }

/-- The same song with other bytes, CH1 held, the accesses inside, and its first row to come. -/
def wholeHeld (v : Byte) : State :=
  { whole true 0#6 0#8 with
    mem := wholeMem v, mid := accesses, ch1 := { Channel.zero with hold := true } }

theorem whole_play (first : Bool) (row : BitVec 6) (ord : Byte) (h : ord.toNat < 2) :
    PlayInv (whole first row ord) :=
  { speed_pos := (by decide : 1 ≤ (6#8).toNat), ordlen_pos := (by decide : 1 ≤ (2#8).toNat),
    npat_pos := (by decide : 1 ≤ (1#8).toNat), npat_le := (by decide : (1#8).toNat ≤ 64),
    ninstr_le := (by decide : (0#8).toNat ≤ 15), nwave_le := (by decide : (0#8).toNat ≤ 16),
    tctr_pos := (by decide : 1 ≤ (1#8).toNat), ord_lt := h }

theorem whole_inv (first : Bool) (row : BitVec 6) (ord : Byte) (h : ord.toNat < 2) :
    BlockInv (whole first row ord) :=
  inv_of (fun c => by cases c <;> exact zero_inv _ _) (fun c => by cases c <;> rfl)
    (whole_play first row ord h) rfl (wholeMem_wf _) rfl rfl

theorem wholeHeld_inv (v : Byte) : BlockInv (wholeHeld v) :=
  have p := whole_play true 0#6 0#8 (by decide)
  inv_of (fun c => by cases c <;> first | exact zero_inv _ _ | exact held_inv _ _)
    (fun c => by cases c <;> rfl) ⟨p.1, p.2, p.3, p.4, p.5, p.6, p.7, p.8⟩ rfl (wholeMem_wf _) rfl rfl

theorem whole_readable (first : Bool) (row : BitVec 6) (ord : Byte) :
    BlobReadable (whole first row ord) := by
  intro off _ h
  have hl : blobLen (whole first row ord) = 778 := rfl
  rw [hl] at h
  exact Option.isSome_iff_exists.2 ⟨_, wholeMem_read _ h⟩

theorem wholeHeld_readable (v : Byte) : BlobReadable (wholeHeld v) := by
  intro off _ h
  have hl : blobLen (wholeHeld v) = 778 := rfl
  rw [hl] at h
  exact Option.isSome_iff_exists.2 ⟨_, wholeMem_read _ h⟩

/-- An order entry out of range is clamped to the one pattern; the note byte of CH1 in row 0 is `v`. -/
theorem wholeHeld_note (v : Byte) : nextNoteByte .ch1 (wholeHeld v) = some v := by
  have h : clampPattern v (wholeHeld v) = 0 := Nat.min_zero _
  have h1 : Memory.read (wholeHeld v).mem
      ((wholeHeld v).base + (ordBase + (rowBoundary (wholeHeld v)).ord.toNat)) = some v :=
    wholeMem_read v (by decide : 8 < 778)
  unfold nextNoteByte
  rw [h1]
  dsimp only
  rw [h]
  exact wholeMem_read v (by decide : 10 < 778)

/-- TextFormRoundTrip: the cell texts of the largest note, of no note, and with every field. -/
theorem test_witness_TextFormRoundTrip :
    cellText 71#8 0#4 0#4 0#8 = some "B-8 . ...".toList ∧
    cellText 0xFF#8 15#4 15#4 0xFF#8 = some "... F FFF".toList := by decide

/-- A song of one empty pattern. -/
def emptySong : Song :=
  { speed := 1#8, orders := [0#8], instruments := [], waves := [],
    patterns := [List.replicate 64 emptyRow] }

/-- A song with one instrument and one waveform, whose samples rise and fall. -/
def tinySong : Song :=
  { emptySong with
    instruments := [{ vol := 10#4, dir := true, per := 3#3, duty := 2#2, noiseMode := true, wave := 0#4 }],
    waves := [(List.range 16 ++ (List.range 16).reverse).map (BitVec.ofNat 4)] }

/-- SongBlobLayout: the song, its order entry, its instrument, its last sample and its last cell. -/
theorem test_witness_SongBlobLayout :
    tinySong.ok = true ∧ tinySong.orders[0]? = some 0#8 ∧ tinySong.instruments[0]?.isSome = true ∧
    (tinySong.waves[0]?.bind (fun l => l[31]?)) = some 0#4 ∧
    tinySong.patterns[0]? = some (List.replicate 64 emptyRow) ∧
    (List.replicate 64 emptyRow)[63]? = some emptyRow ∧
    emptyRow[chanIndex .ch4]? = some (emptyCellOf .ch4) := by decide

/-- RegionBases: a playing song whose counts are the largest of R92. -/
theorem test_witness_RegionBases :
    let s := { State.reset with
      run := true, speed := 1#8, ordlen := 255#8, npat := 64#8, ninstr := 15#8, nwave := 16#8,
      tctr := 1#8 }
    PlayInv s ∧ blobLen s = 49701 := ⟨by constructor <;> decide, rfl⟩

/-- StartState and StepCompletes: a readable header. -/
theorem test_witness_StartState : HeaderReadable 0 p1Off := by
  intro off h
  change (Memory.read (Memory.writeAll [] 0 p1Bytes) (0 + off)).isSome
  have hl : off < p1Bytes.length := Nat.lt_trans h (by decide)
  rw [Memory.read_writeAll _ _ _ _ hl, List.getElem?_eq_getElem hl]
  rfl

/-- StartTwiceSameState, BlobReadsInBounds and AccessBounds: a START that completes. -/
theorem test_witness_StartTwiceSameState : ∃ t, exec (.start 0) p1Off = .next t :=
  exists_next (by decide)

/-- InvalidHeaderNeverPlays: a header that is valid but for the speed 0. -/
theorem test_witness_InvalidHeaderNeverPlays :
    let m := Memory.writeAll [] 0 [0x01#8, 0x00#8, 0x01#8, 0x01#8, 0x00#8, 0x00#8]
    Memory.read m 0 = some 1#8 ∧ Memory.read m 1 = some 0#8 ∧ Memory.read m 2 = some 1#8 ∧
    Memory.read m 3 = some 1#8 ∧ Memory.read m 4 = some 0#8 ∧ Memory.read m 5 = some 0#8 ∧
    ¬(1#8 = 0x01#8 ∧ 1 ≤ (0#8).toNat ∧ 1 ≤ (1#8).toNat ∧ 1 ≤ (1#8).toNat ∧ (1#8).toNat ≤ 64 ∧
      (0#8).toNat ≤ 15 ∧ (0#8).toNat ≤ 16) := by decide

/-- TickWithoutSong. -/
theorem test_witness_TickWithoutSong : State.reset.run = false := rfl

/-- TickBetweenRows: the middle of a row. -/
theorem test_witness_TickBetweenRows :
    BlockInv p1Busy ∧ p1Busy.run = true ∧ p1Busy.tctr ≠ 1#8 := ⟨p1Busy_inv, rfl, by decide⟩

/-- RowBoundaryPosition, the boundary after START. -/
theorem test_witness_RowBoundaryPosition_first :
    let s := whole true 0#6 0#8
    BlockInv s ∧ s.run = true ∧ BlobReadable s ∧ s.tctr = 1#8 ∧ s.first = true :=
  ⟨whole_inv _ _ _ (by decide), rfl, whole_readable _ _ _, rfl, rfl⟩

/-- RowBoundaryPosition, the last row but one. -/
theorem test_witness_RowBoundaryPosition_row :
    let s := whole false 62#6 0#8
    BlockInv s ∧ s.run = true ∧ BlobReadable s ∧ s.tctr = 1#8 ∧ s.first = false ∧
      s.row.toNat ≠ 63 :=
  ⟨whole_inv _ _ _ (by decide), rfl, whole_readable _ _ _, rfl, rfl,
    (by decide : (62#6).toNat ≠ 63)⟩

/-- RowBoundaryPosition, the end of the order list. -/
theorem test_witness_RowBoundaryPosition_wrap :
    let s := whole false 63#6 1#8
    BlockInv s ∧ s.run = true ∧ BlobReadable s ∧ s.tctr = 1#8 ∧ s.first = false ∧
      s.row.toNat = 63 ∧ s.ord.toNat + 1 = s.ordlen.toNat :=
  ⟨whole_inv _ _ _ (by decide), rfl, whole_readable _ _ _, rfl, rfl, rfl, rfl⟩

/-- RowBoundaryPosition, the end of a pattern before the end of the order list. -/
theorem test_witness_RowBoundaryPosition_order :
    let s := whole false 63#6 0#8
    BlockInv s ∧ s.run = true ∧ BlobReadable s ∧ s.tctr = 1#8 ∧ s.first = false ∧
      s.row.toNat = 63 ∧ s.ord.toNat + 1 ≠ s.ordlen.toNat :=
  ⟨whole_inv _ _ _ (by decide), rfl, whole_readable _ _ _, rfl, rfl, rfl,
    (by decide : (0#8).toNat + 1 ≠ (2#8).toNat)⟩

/-- P1's START leaves `p1`. -/
theorem p1_start : exec (.start 0) p1Off = .next p1 := by
  rw [show exec (.start 0) p1Off = execStart 0 p1Off from rfl,
    execStart_of_read (h0 := 0x01#8) (h1 := 0x06#8) (h2 := 0x02#8) (h3 := 0x02#8) (h4 := 0x01#8)
      (h5 := 0x00#8) (by decide) (by decide) (by decide) (by decide) (by decide) (by decide)]
  rfl

theorem p1_tick : ∃ t, exec .tick p1 = .next t := exists_next (by decide)

/-- PositionClosedForm: NOP, START, and a first TICK from a valid START. -/
theorem test_witness_PositionClosedForm :
    (exec .nop p1 = .next p1 ∧ (∀ ptr, Instr.nop ≠ .start ptr) ∧ Instr.nop ≠ .tick) ∧
    exec (.start 0) p1Off = .next p1 ∧ p1.run = true ∧ ∃ t, ticks 1 p1 = .next t :=
  ⟨⟨rfl, (by intro ptr h; cases h), by decide⟩, p1_start, rfl, by
    obtain ⟨t, ht⟩ := p1_tick
    exact ⟨t, by simp [ticks, ht]⟩⟩

/-- RowRunsDecodedCells, RowFetchAddresses, BlobReadsInBounds and AccessBounds: a row boundary that
completes. -/
theorem test_witness_RowFetchAddresses :
    p1.run = true ∧ p1.tctr = 1#8 ∧ BlockInv p1 ∧ ∃ t, exec .tick p1 = .next t :=
  ⟨rfl, rfl, p1_inv.toBlockInv, p1_tick⟩

/-- TickCompletes, StepCompletes: playing, and stopped. -/
theorem test_witness_TickCompletes :
    MachineInv (whole true 0#6 0#8) ∧ BlobReadable (whole true 0#6 0#8) ∧
    BlockInv (wholeHeld 0xFF#8) ∧ BlobReadable (wholeHeld 0xFF#8) ∧
    State.reset.run = false ∧ State.reset.port = [] :=
  ⟨⟨whole_inv _ _ _ (by decide), rfl⟩, whole_readable _ _ _, wholeHeld_inv _, wholeHeld_readable _,
    rfl, rfl⟩

/-- BlobReadsInBounds, third clause. -/
theorem test_witness_BlobReadsInBounds :
    exec .nop p1 = .next p1 ∧ exec .resetwave p1 = .next { p1 with lwid := 0xFF#8 } := ⟨rfl, rfl⟩

/-- MidTickMuteWrite: accesses in every gap, on a row boundary and off one; the samples and the host's
reads off it, worked out by R69: `MUTE` is 15, 2, 2 and 8 at the samples. -/
theorem test_witness_MidTickMuteWrite :
    (∃ t, exec .tick { p1 with mid := accesses } = .next t) ∧
    after (exec .tick { p1Busy with bus := [] }) (fun t => (muteTraceOf t.bus, t.mute)) =
      some ([.muteRead 15#8, .muteSample .ch1 true, .muteSample .ch2 true, .muteRead 2#8,
        .muteSample .ch3 false, .muteRead 12#8, .muteSample .ch4 true], 8#4) :=
  ⟨exists_next (by decide), by decide⟩

/-- HoldLatch: sampled 1; sampled 0 with an onset; sampled 0 without one. -/
theorem test_witness_HoldLatch :
    after (commit .ch4 { State.reset with mute := 8#4 }) (fun t => (sampleTraceOf t.bus, t.ch4.hold)) =
      some ([(.ch4, true)], true) ∧
    after (commit .ch1 { State.reset with ch1 := pending 0#4 0#4 0#11 true true })
      (fun t => (sampleTraceOf t.bus, t.ch1.hold)) = some ([(.ch1, false)], false) ∧
    after (commit .ch1 { State.reset with ch1 := pending 0#4 0#4 0#11 false true })
      (fun t => (sampleTraceOf t.bus, t.ch1.hold)) = some ([(.ch1, false)], true) := by decide

/-- CommitWriteSet: a channel in its ranges that is not held, with the largest values of CH4. -/
theorem test_witness_CommitWriteSet :
    let s := { State.reset with ch4 := pending 1#4 15#4 255#11 true false }
    ChannelInv .ch4 s.ninstr (s.ch .ch4) ∧
      after (commit .ch4 s) (fun t => t.ch4.hold) = some false :=
  ⟨by constructor <;> decide, by decide⟩

/-- WaveGuardLoads: a load, and a commit with no onset, which loads nothing. -/
theorem test_witness_WaveGuardLoads :
    (loading.ch .ch3).onset = true ∧ (loading.ch .ch3).shape.toNat < loading.nwave.toNat ∧
    loading.lwid.toNat ≠ (loading.ch .ch3).shape.toNat ∧
    after (commit .ch3 loading) (fun t => t.ch3.hold) = some false ∧
    (State.reset.ch .ch3).onset = false ∧
    after (commit .ch3 State.reset) (fun t => t.ch3.hold) = some false := by decide

/-- MutedChannelSilent: a muted channel with a note. -/
theorem test_witness_MutedChannelSilent :
    after (exec .tick { p1 with mute := 1#4 }) (fun t => sampleTraceOf t.bus) =
      some [(.ch1, true), (.ch2, false), (.ch3, false), (.ch4, false)] ∧
    ownsSinkReg .ch1 0 = true ∧ ownsSinkReg .ch1 3 = true ∧ ownsSinkReg .ch3 47 = true := by decide

/-- UnmuteWaitsForNote: a held channel in the middle of a row, and on a row boundary whose note byte is
the smallest that is no note; accesses of `MUTE` fall inside. -/
theorem test_witness_UnmuteWaitsForNote :
    let s := { p1Busy with ch2 := { Channel.zero with hold := true } }
    let s' := wholeHeld 72#8
    (BlockInv s ∧ s.run = true ∧ s.tctr ≠ 1#8 ∧ (s.ch .ch2).hold = true) ∧
    BlockInv s' ∧ s'.run = true ∧ s'.tctr = 1#8 ∧ (s'.ch .ch1).hold = true ∧ BlobReadable s' ∧
      ∀ b, nextNoteByte .ch1 s' = some b → 72 ≤ b.toNat :=
  ⟨⟨inv_of (fun c => by cases c <;> first | exact zero_inv _ _ | exact held_inv _ _)
    (fun c => by cases c <;> rfl) (by constructor <;> decide) rfl
    (Memory.wf_writeAll _ _ Memory.wf_nil) rfl rfl, rfl, by decide, rfl⟩,
    wholeHeld_inv _, rfl, rfl, rfl, wholeHeld_readable _, by
      intro b h
      rw [wholeHeld_note, Option.some.injEq] at h
      subst h
      decide⟩

/-- UnmuteResumesAtNote: a held channel on a row boundary with the largest note, its bit cleared by a host
write inside the TICK. -/
theorem test_witness_UnmuteResumesAtNote :
    let s := { wholeHeld 71#8 with mute := 15#4, mid := ⟨[.write 0xF0#8], [], [], []⟩ }
    BlockInv s ∧ s.run = true ∧ BlobReadable s ∧ s.tctr = 1#8 ∧
      nextNoteByte .ch1 s = some 71#8 ∧ (71#8).toNat ≤ 71 ∧ sampledBit .ch1 s = false :=
  have i := wholeHeld_inv 71#8
  have p := i.play rfl
  ⟨inv_of (fun c => by cases c <;> first | exact zero_inv _ _ | exact held_inv _ _)
    (fun c => by cases c <;> rfl) ⟨p.1, p.2, p.3, p.4, p.5, p.6, p.7, p.8⟩ rfl i.mem rfl rfl, rfl,
    wholeHeld_readable _, rfl, wholeHeld_note _, by decide, rfl⟩

/-- TickDeterminedByBlob: the same song with other inputs pending and an empty record. -/
theorem test_witness_TickDeterminedByBlob :
    let s' := { p1 with bus := [], port := [.access .read] }
    BlockInv p1 ∧ SameRegisters p1 s' ∧
    (∀ off, 8 ≤ off → off < blobLen p1 →
      Memory.read s'.mem (s'.base + off) = Memory.read p1.mem (p1.base + off)) ∧
    ∃ t, exec .tick p1 = .next t := ⟨p1_inv.toBlockInv, rfl, fun _ _ _ => rfl, p1_tick⟩

/-- ChannelsIndependent: two channels, one with other registers. -/
theorem test_witness_ChannelsIndependent :
    Chan.ch1 ≠ .ch2 ∧ (∃ t, exec .tick p1 = .next t) ∧
    ∃ t, exec .tick (p1.setCh .ch2 (pending 3#4 15#4 2047#11 false true)) = .next t :=
  ⟨by decide, p1_tick, exists_next (by decide)⟩

theorem bench1_readable (c : Chan) (n : Byte) (i : BitVec 4) (hi : i = 1#4 ∨ i = 2#4) :
    CellReadable c n i bench1 := by
  intro _ k hk
  have h : insAfter c i bench1 = i := by obtain rfl | rfl := hi <;> rfl
  unfold defaultsOffset
  rw [h]
  obtain rfl | rfl := hi <;>
  match k, hk with
  | 0, _ => decide
  | 1, _ => decide

/-- The cell statements: the instrument's bytes are readable, and both cases of NonCell. -/
theorem test_witness_cells :
    CellReadable .ch4 71#8 1#4 bench1 ∧ hasNote 71#8 = true ∧ CellReadable .ch1 72#8 1#4 bench1 ∧
    hasNote 72#8 = false ∧ hasIns 1#4 bench1.ninstr = true ∧ hasIns 3#4 bench1.ninstr = false ∧
    CellReadable .ch1 72#8 3#4 bench1 :=
  ⟨bench1_readable _ _ _ (.inl rfl), by decide, bench1_readable _ _ _ (.inl rfl), by decide,
    by decide, by decide,
    by intro h; exact absurd h (by decide)⟩

/-- NonCell, its third clause: the last note and the last instrument of the table. -/
theorem test_witness_NonCell :
    CellReadable .ch4 71#8 2#4 bench1 ∧ (71#8).toNat ≤ 71 ∧ 1 ≤ (2#4).toNat ∧
    (2#4).toNat ≤ bench1.ninstr.toNat ∧
    Memory.read bench1.mem (bench1.base + (insBase bench1 + 2 * ((2#4).toNat - 1))) = some 0xF0#8 ∧
    Memory.read bench1.mem (bench1.base + (insBase bench1 + 2 * ((2#4).toNat - 1) + 1)) =
      some 0x40#8 :=
  ⟨bench1_readable _ _ _ (.inr rfl), by decide, by decide, by decide, by decide, by decide⟩

/-- ReservedCells, last clause. -/
theorem test_witness_ReservedCells : ∃ u, exec (.non .ch1 12#8 1#4 0xFF#8) bench1 = .next u :=
  exists_next (by decide)

/-- ArpCell: a running arpeggio at its last step. -/
theorem test_witness_ArpCell :
    ({ Channel.zero with fx := 3#4, astep := 2 } : Channel).fx = 3#4 := rfl

/-- VibCell: phases at the edges of each quadrant. -/
theorem test_witness_VibCell :
    (15#6).toNat / 16 = 0 ∧ (16#6).toNat / 16 = 1 ∧ (31#6).toNat / 16 = 1 ∧ (32#6).toNat / 16 = 2 ∧
    (47#6).toNat / 16 = 2 ∧ (48#6).toNat / 16 = 3 ∧ (63#6).toNat / 16 = 3 ∧
    ({ Channel.zero with fx := 4#4, vphase := 63#6 } : Channel).fx = 4#4 := by decide

/-- DcyCell: the last tick of a period, one before it, and a channel that is no pulse channel. -/
theorem test_witness_DcyCell :
    let x := fun d : Byte => ({ Channel.zero with fx := 7#4, fxp := 255#8, dctr := d } : Channel)
    isPulse .ch2 = true ∧ isPulse .ch3 = false ∧ (x 254#8).fx = 7#4 ∧ (x 254#8).fxp ≠ 0#8 ∧
    (x 254#8).dctr.toNat < (x 254#8).fxp.toNat ∧ (x 254#8).dctr.toNat + 1 = (x 254#8).fxp.toNat ∧
    (x 253#8).dctr.toNat < (x 253#8).fxp.toNat ∧ (x 253#8).dctr.toNat + 1 ≠ (x 253#8).fxp.toNat ∧
    2 ≤ (255#8).toNat := by decide

/-- CellFrame, PositionClosedForm and the other statements about a cell that completes. -/
theorem test_witness_CellFrame :
    (∃ t, exec (cellOfFields .ch1 0xFF#8 0#4 1#4 5#8) bench1 = .next t) ∧ hasNote 0xFF#8 = false ∧
    emptyCell 0xFF#8 0#4 1#4 bench1.ninstr = false := ⟨exists_next (by decide), by decide, by decide⟩

/-- OutOfRangeFieldsIgnored: the first values out of range. -/
theorem test_witness_OutOfRangeFieldsIgnored :
    72 ≤ (72#8).toNat ∧ bench1.ninstr.toNat < (3#4).toNat := by decide

/-- CellStopsOnUnreadable: an instrument whose bytes are not listed, and one whose bytes are. -/
theorem test_witness_CellStopsOnUnreadable :
    exec (.non .ch1 12#8 1#4 0#8) { bench1 with mem := [(9, 0#8)] } =
      .refused (.blobUnreadable 10) ∧ CellReadable .ch1 12#8 1#4 bench1 :=
  ⟨rfl, bench1_readable _ _ _ (.inl rfl)⟩

/-- EnvelopeGenerator: stopped, within a period, and at its end at the bounds and inside them. -/
theorem test_witness_EnvelopeGenerator :
    let x := fun (v : BitVec 4) (d : Bool) (p k : Byte) =>
      ({ Channel.zero with vol := v, edir := d, eper := p, ectr := k } : Channel)
    (x 0#4 true 0#8 0#8).eper = 0#8 ∧
    (x 0#4 true 255#8 253#8).ectr.toNat < (x 0#4 true 255#8 253#8).eper.toNat ∧
    (x 0#4 true 255#8 253#8).ectr.toNat + 1 ≠ (x 0#4 true 255#8 253#8).eper.toNat ∧
    (x 15#4 true 1#8 0#8).ectr.toNat + 1 = (x 15#4 true 1#8 0#8).eper.toNat ∧
    (x 15#4 true 1#8 0#8).vol.toNat = 15 ∧ (x 14#4 true 1#8 0#8).vol.toNat ≠ 15 ∧
    (x 0#4 false 1#8 0#8).vol.toNat = 0 ∧ (x 1#4 false 1#8 0#8).vol.toNat ≠ 0 := by decide

/-- EnvelopeClosedForm: both directions. -/
theorem test_witness_EnvelopeClosedForm :
    let x := fun d : Bool => ({ Channel.zero with edir := d, eper := 1#8 } : Channel)
    (x true).ectr = 0#8 ∧ 1 ≤ (x true).eper.toNat ∧ (x true).edir = true ∧ (x false).edir = false := by
  decide

/-- SlideLaw: both slides complete. -/
theorem test_witness_SlideLaw :
    (∃ t, exec (.slu .ch1 12#8 1#4 255#8) bench1 = .next t) ∧
    ∃ t, exec (.sld .ch4 0xFF#8 0#4 255#8) bench1 = .next t :=
  ⟨exists_next (by decide), exists_next (by decide)⟩

/-- PeriodicEffects: a channel freshly loaded with each code. -/
theorem test_witness_PeriodicEffects :
    let x := fun f : BitVec 4 => ({ Channel.zero with fx := f, fxp := 255#8, shape := 3#4 } : Channel)
    ((x 3#4).fx = 3#4 ∧ (x 3#4).astep = 0) ∧ ((x 4#4).fx = 4#4 ∧ (x 4#4).vphase = 0#6) ∧
    (x 7#4).fx = 7#4 ∧ (x 7#4).dctr = 0#8 ∧ isPulse .ch1 = true ∧ (x 7#4).fxp ≠ 0#8 ∧
    (x 7#4).shape.toNat ≤ 3 := by decide

/-- StepKeepsInvariant: an idle step of a playing song. -/
theorem test_witness_StepKeepsInvariant : MachineInv p1 ∧ step p1 = .next p1 := ⟨p1_inv, rfl⟩

/-- NeverWritesBlobOrMute and LoadedWaveIdentity: a row-boundary TICK with no host access inside. -/
theorem test_witness_NeverWritesBlobOrMute :
    p1.mid = MidAccesses.none ∧ ∃ t, exec .tick p1 = .next t := ⟨rfl, p1_tick⟩

/-- OnlyStartWritesHeader: TICK is no START. -/
theorem test_witness_OnlyStartWritesHeader :
    (∃ t, exec .tick p1 = .next t) ∧ ∀ ptr, Instr.tick ≠ .start ptr :=
  ⟨p1_tick, by intro ptr h; cases h⟩

/-- OnlyTickWritesSink: a TICK without a song, and a command that is no TICK. -/
theorem test_witness_OnlyTickWritesSink :
    (exec .tick State.reset = .next State.reset ∧ State.reset.run = false) ∧
    exec .nop p1 = .next p1 ∧ Instr.nop ≠ .tick := ⟨⟨rfl, rfl⟩, rfl, by decide⟩

/-- StepRunsCommand, StepMuteAccess, StepIdleAndOverlap: each kind of input first in line. -/
theorem test_witness_StepRunsCommand :
    let s := fun e => ({ State.reset with port := [e] } : State)
    (s (.command 0b10#2 0 MidAccesses.none)).port = .command 0b10#2 0 MidAccesses.none :: [] ∧
    (s (.access (.write 0xFF#8))).port = .access (.write 0xFF#8) :: [] ∧
    (s (.access .read)).port = .access .read :: [] ∧
    (s (.overlapped 0b01#2 0 0b10#2 0)).port = .overlapped 0b01#2 0 0b10#2 0 :: [] ∧
    State.reset.port = [] := ⟨rfl, rfl, rfl, rfl, rfl⟩

/-- StepCommandMute: a TICK, and a START that takes no sample, with accesses inside. -/
theorem test_witness_StepCommandMute :
    (∃ t, step { p1 with port := [.command 0b10#2 0 accesses] } = .next t) ∧
    after (step { p1Off with port := [.command 0b01#2 0 accesses] })
      (fun t => (muteTraceOf t.bus, t.mute)) =
      some ([.muteRead 15#8, .muteRead 2#8, .muteRead 12#8], 8#4) :=
  ⟨exists_next (by decide), by decide⟩

/-- StepCallerStore: the first and the last byte of the playing blob, changed and not, and the byte after
it. -/
theorem test_witness_StepCallerStore :
    let s := p1
    s.run = true ∧ s.base = 0 ∧ blobLen s = 1548 ∧ Memory.read s.mem 0 = some 1#8 ∧
    Memory.read s.mem 0 ≠ some 2#8 ∧ Memory.read s.mem 1547 ≠ some 0#8 ∧
    s.base + blobLen s ≤ 1548 := by decide

/-- StepCompletes: a START first in line over a readable header. -/
theorem test_witness_StepCompletes :
    let s := { p1Off with port := [.command 0b01#2 0 MidAccesses.none] }
    MachineInv s ∧ s.run = false ∧ HeaderReadable 0 s ∧
    (∀ code ptr code2 ptr2 rest, s.port ≠ .overlapped code ptr code2 ptr2 :: rest) ∧
    ∀ a b rest, s.port ≠ .store a b :: rest :=
  ⟨{ chan := fun c => by cases c <;> exact zero_inv _ _
     idle := fun c => by cases c <;> rfl
     play := fun h => by cases h
     wave := Or.inl rfl
     mem := Memory.wf_writeAll _ _ Memory.wf_nil
     base := Nat.two_pow_pos _
     port := by
       intro e he
       obtain rfl := List.mem_singleton.1 he
       exact Nat.two_pow_pos _
     mid := rfl }, rfl, test_witness_StartState, (by intro _ _ _ _ _ h; cases h),
    (by intro _ _ _ h; cases h)⟩

end Sys2Proof.Tests
end

section
/-! Proofs of the statements about the state (10_state.md). What every instruction leaves alone, read off one
inversion of `exec`, and the invariant of the machine, kept by each operation in turn. -/

namespace Sys2Proof.Machine

/-! ### Missing field rules -/

section fields

variable (s : State) (c : Chan) (x : Channel) (es : List BusEvent)

@[simp] theorem addCh_run : (s.addCh c x es).run = s.run := by cases c <;> rfl
@[simp] theorem addCh_speed : (s.addCh c x es).speed = s.speed := by cases c <;> rfl
@[simp] theorem addCh_npat : (s.addCh c x es).npat = s.npat := by cases c <;> rfl
@[simp] theorem addCh_nwave : (s.addCh c x es).nwave = s.nwave := by cases c <;> rfl
@[simp] theorem addCh_mute : (s.addCh c x es).mute = s.mute := by cases c <;> rfl
@[simp] theorem addCh_lwid : (s.addCh c x es).lwid = s.lwid := by cases c <;> rfl
@[simp] theorem addCh_port : (s.addCh c x es).port = s.port := by cases c <;> rfl
@[simp] theorem addCh_mid : (s.addCh c x es).mid = s.mid := by cases c <;> rfl
@[simp] theorem addCh_bus : (s.addCh c x es).bus = s.bus ++ es := by cases c <;> rfl

@[simp] theorem rowBoundary_speed : (rowBoundary s).speed = s.speed := by rw [rowBoundary_frame]
@[simp] theorem rowBoundary_port : (rowBoundary s).port = s.port := by rw [rowBoundary_frame]
@[simp] theorem rowBoundary_tctr : (rowBoundary s).tctr = s.speed := by rw [rowBoundary_frame]

end fields

/-! ### Everything an instruction can do -/

/-- `Executed i s t`: instruction `i` takes `s` to `t`, one case per command and one for the cells. -/
inductive Executed : Instr → State → State → Prop
  | nop (s : State) : Executed .nop s s
  | resetwave (s : State) : Executed .resetwave s { s with lwid := Config.noWave }
  | start (ptr : Nat) (h0 h1 h2 h3 h4 h5 : Byte) (s : State)
    (e0 : Memory.read s.mem ptr = some h0) (e1 : Memory.read s.mem (ptr + 1) = some h1)
    (e2 : Memory.read s.mem (ptr + 2) = some h2) (e3 : Memory.read s.mem (ptr + 3) = some h3)
    (e4 : Memory.read s.mem (ptr + 4) = some h4) (e5 : Memory.read s.mem (ptr + 5) = some h5) :
    Executed (.start ptr) s
      (startRegs h0 h1 h2 h3 h4 h5 { s with base := ptr, bus := s.bus ++ headerReads })
  | cell (c : Chan) (n : Byte) (i f : BitVec 4) (p : Byte) (x : Channel) (s : State)
    (hx : triggerCh c n i f p s = some x) :
    Executed (cellOfFields c n i f p) s (s.addCh c (effectStep c x) (defaultsReads c n i s))
  | stopped (s : State) (hrun : s.run = false) : Executed .tick s s
  | playing (s u : State) (bs : List Byte) (hrun : s.run = true) (hu : countTick s = .next u)
    (hbs : EffectBytes u bs) : Executed .tick s (u.afterEffects bs)

/-- Every instruction is a cell or one of the four commands (R103, R107). -/
theorem instr_cases (i : Instr) :
    (∃ c n j f p, i = cellOfFields c n j f p) ∨
      i = .nop ∨ (∃ ptr, i = .start ptr) ∨ i = .tick ∨ i = .resetwave := by
  cases i with
  | non c n j p => exact .inl ⟨c, n, j, 0x0#4, p, rfl⟩
  | slu c n j p => exact .inl ⟨c, n, j, 0x1#4, p, rfl⟩
  | sld c n j p => exact .inl ⟨c, n, j, 0x2#4, p, rfl⟩
  | arp c n j p => exact .inl ⟨c, n, j, 0x3#4, p, rfl⟩
  | vib c n j p => exact .inl ⟨c, n, j, 0x4#4, p, rfl⟩
  | vfi c n j p => exact .inl ⟨c, n, j, 0x5#4, p, rfl⟩
  | vfo c n j p => exact .inl ⟨c, n, j, 0x6#4, p, rfl⟩
  | dcy c n j p => exact .inl ⟨c, n, j, 0x7#4, p, rfl⟩
  | rs8 c n j p => exact .inl ⟨c, n, j, 0x8#4, p, rfl⟩
  | rs9 c n j p => exact .inl ⟨c, n, j, 0x9#4, p, rfl⟩
  | rsa c n j p => exact .inl ⟨c, n, j, 0xA#4, p, rfl⟩
  | rsb c n j p => exact .inl ⟨c, n, j, 0xB#4, p, rfl⟩
  | rsc c n j p => exact .inl ⟨c, n, j, 0xC#4, p, rfl⟩
  | rsd c n j p => exact .inl ⟨c, n, j, 0xD#4, p, rfl⟩
  | rse c n j p => exact .inl ⟨c, n, j, 0xE#4, p, rfl⟩
  | rsf c n j p => exact .inl ⟨c, n, j, 0xF#4, p, rfl⟩
  | nop => exact .inr (.inl rfl)
  | start ptr => exact .inr (.inr (.inl ⟨ptr, rfl⟩))
  | tick => exact .inr (.inr (.inr (.inl rfl)))
  | resetwave => exact .inr (.inr (.inr (.inr rfl)))

/-- An instruction that answers a next state is one of the cases of `Executed`. -/
theorem executed_of_exec {i : Instr} {s t : State} (h : exec i s = .next t) : Executed i s t := by
  rcases instr_cases i with ⟨c, n, j, f, p, rfl⟩ | rfl | ⟨ptr, rfl⟩ | rfl | rfl
  · obtain ⟨x, hx, rfl⟩ := exec_cell_iff.1 h
    exact .cell c n j f p x s hx
  · obtain rfl := Host.Outcome.next.inj h
    exact .nop s
  · obtain ⟨h0, h1, h2, h3, h4, h5, e0, e1, e2, e3, e4, e5, rfl⟩ := execStart_eq_next h
    exact .start ptr h0 h1 h2 h3 h4 h5 s e0 e1 e2 e3 e4 e5
  · rcases execTick_iff.1 h with ⟨hr, rfl⟩ | ⟨hr, u, bs, hu, hbs, rfl⟩
    · exact .stopped t hr
    · exact .playing s u bs hr hu hbs
  · obtain rfl := Host.Outcome.next.inj h
    exact .resetwave s

/-! ### What a TICK leaves alone -/

/-- A trigger answers no host read. -/
@[simp] theorem filter_defaultsReads (c : Chan) (n : Byte) (i : BitVec 4) (s : State) :
    (defaultsReads c n i s).filter isMuteAnswer = [] := by
  unfold defaultsReads
  split <;> rfl

@[simp] theorem filter_rowReads (p : Nat) (b : Chan → Byte × Byte × Byte) (s : State) :
    (rowReads p b s).filter isMuteAnswer = [] := by
  simp [rowReads, cellReads, isMuteAnswer]

/-- What steps 1 and 2 of a TICK leave alone: all but the position and the channels; the record
grows, but by no answer to a host read (R133). -/
structure CountFrame (s u : State) : Prop where
  run : u.run = s.run
  base : u.base = s.base
  speed : u.speed = s.speed
  ordlen : u.ordlen = s.ordlen
  npat : u.npat = s.npat
  ninstr : u.ninstr = s.ninstr
  nwave : u.nwave = s.nwave
  mute : u.mute = s.mute
  lwid : u.lwid = s.lwid
  mem : u.mem = s.mem
  port : u.port = s.port
  mid : u.mid = s.mid
  bus : ∃ es, u.bus = s.bus ++ es ∧ es.filter isMuteAnswer = []

/-- Off a row boundary only `tctr` changes; at one, the position and then the channels, cell by cell. -/
theorem countTick_frame {s u : State} (h : countTick s = .next u) : CountFrame s u := by
  rcases countTick_iff.1 h with ⟨-, rfl⟩ | ⟨-, h⟩
  · exact ⟨rfl, rfl, rfl, rfl, rfl, rfl, rfl, rfl, rfl, rfl, rfl, rfl, [], (List.append_nil _).symm, rfl⟩
  · obtain ⟨e, b, x, -, -, -, rfl⟩ := fetchRow_iff.1 h
    exact
      { run := rowBoundary_run s, base := rowBoundary_base s, speed := rowBoundary_speed s
        ordlen := rowBoundary_ordlen s, npat := rowBoundary_npat s, ninstr := rowBoundary_ninstr s
        nwave := rowBoundary_nwave s, mute := rowBoundary_mute s, lwid := rowBoundary_lwid s
        mem := rowBoundary_mem s, port := rowBoundary_port s, mid := rowBoundary_mid s
        bus := ⟨_, by rw [withChs_bus, rowBoundary_bus], filter_rowReads ..⟩ }

/-- Steps 3 and 4 of a TICK leave `lwid`, or load a waveform the table has, the one CH3 expects (R216, R218). -/
theorem afterEffects_lwid (s : State) (bs : List Byte) :
    (s.afterEffects bs).lwid = s.lwid ∨
      (s.afterEffects bs).lwid.toNat = ((s.afterEffects bs).ch .ch3).shape.toNat ∧
        (s.afterEffects bs).lwid.toNat < s.nwave.toNat := by
  have hl : (s.afterEffects bs).lwid =
      if passLoads (s.withChs (fun c => effectStep c (s.ch c)) []) then
        ((s.afterEffects bs).ch .ch3).shape.setWidth 8
      else s.lwid := rfl
  rw [hl]
  split
  · next h =>
    rw [BitVec.toNat_setWidth_of_le (by decide)]
    simp only [passLoads, waveNeeded, Bool.and_eq_true, decide_eq_true_eq] at h
    obtain ⟨-, ⟨-, hlt⟩, -⟩ := h
    exact .inr ⟨rfl, hlt⟩
  · exact .inl rfl

/-- Steps 3 and 4 of a TICK on one channel: its effect step, then the latch, and `onset` cleared. -/
theorem ch_afterEffects (s : State) (bs : List Byte) (c : Chan) :
    ∃ hold, (s.afterEffects bs).ch c =
      { effectStep c (s.ch c) with hold := hold, onset := false } := by
  cases c <;> exact ⟨_, rfl⟩

/-! ### The answers to the host's reads of `MUTE` -/

theorem filter_muteTraceOf (l : List BusEvent) :
    (muteTraceOf l).filter isMuteAnswer = l.filter isMuteAnswer := by
  induction l with
  | nil => rfl
  | cons e l ih => cases e <;> simp [muteTraceOf, isMuteAnswer, List.filter_cons, ih]

@[simp] theorem filter_muteAnswers (l : List MuteAccess) (m : BitVec 4) :
    (muteAnswers l m).filter isMuteAnswer = muteAnswers l m := by
  induction l generalizing m with
  | nil => rfl
  | cons a l ih => cases a <;> simp [muteAnswers, isMuteAnswer, List.filter_cons, ih]

@[simp] theorem filter_waveEvents (off i : Nat) (bs : List Byte) :
    (waveEvents off i bs).filter isMuteAnswer = [] := by
  induction bs generalizing i with
  | nil => rfl
  | cons b bs ih => simp [waveEvents, isMuteAnswer, ih]

@[simp] theorem filter_writeEvents (c : Chan) (x : Channel) :
    (writeEvents c x).filter isMuteAnswer = [] := by
  unfold writeEvents
  split <;> rfl

@[simp] theorem filter_passEvents (c : Chan) (s : State) (bs : List Byte) :
    (passEvents c s bs).filter isMuteAnswer = muteAnswers (s.mid.before c) (passMask c s) := by
  unfold passEvents
  split_ifs <;> simp [isMuteAnswer]

/-- The record of steps 3 and 4 of a TICK holds the answers to all the host's reads inside the command (R69). -/
theorem afterEffects_bus (s : State) (bs : List Byte) :
    ∃ es, (s.afterEffects bs).bus = s.bus ++ es ∧
      es.filter isMuteAnswer = muteAnswers s.mid.all s.mute := by
  refine ⟨_, (congrArg (· ++ _) (List.append_nil s.bus)), ?_⟩
  simp [MidAccesses.all, MidAccesses.before, MidAccesses.upTo, passMask, muteAnswers_append,
    muteAfter_append]

/-! ### What an instruction leaves alone -/

theorem exec_mem_port {i : Instr} {s t : State} (h : exec i s = .next t) :
    t.mem = s.mem ∧ t.port = s.port := by
  cases executed_of_exec h with
  | nop | resetwave | start | stopped => exact ⟨rfl, rfl⟩
  | cell => simp
  | playing _ u bs _ hu _ =>
    have hf := countTick_frame hu
    exact ⟨hf.mem, hf.port⟩

/-- An instruction makes no access of `MUTE` that falls inside it happen and answers no host read, or it
makes all of them happen and answers every read (R29, R69). -/
theorem exec_accesses {i : Instr} {s t : State} (h : exec i s = .next t) :
    ∃ es, t.bus = s.bus ++ es ∧
      (t.mid = s.mid ∧ t.mute = s.mute ∧ es.filter isMuteAnswer = [] ∨
       t.mid = .none ∧ t.mute = muteAfter s.mid.all s.mute ∧
        es.filter isMuteAnswer = muteAnswers s.mid.all s.mute) := by
  cases executed_of_exec h with
  | nop | resetwave | stopped => exact ⟨[], by simp, .inl ⟨rfl, rfl, rfl⟩⟩
  | start => exact ⟨headerReads, rfl, .inl ⟨rfl, rfl, rfl⟩⟩
  | cell c n j f p x =>
    exact ⟨_, addCh_bus .., .inl ⟨addCh_mid .., addCh_mute .., filter_defaultsReads ..⟩⟩
  | playing _ u bs _ hu _ =>
    have hf := countTick_frame hu
    obtain ⟨es, hbus, hes⟩ := hf.bus
    obtain ⟨ps, hps, hans⟩ := afterEffects_bus u bs
    refine ⟨es ++ ps, by rw [hps, hbus, List.append_assoc], .inr ⟨rfl, ?_, ?_⟩⟩
    · rw [← hf.mid, ← hf.mute]; rfl
    · rw [List.filter_append, hes, hans, hf.mid, hf.mute, List.nil_append]

@[simp] theorem MidAccesses.all_none : MidAccesses.none.all = [] := rfl

/-- Settles O51, from what an instruction does to the memory and the port (`exec_mem_port`) and to `MUTE`
and the record (`exec_accesses`). -/
theorem neverWritesBlobOrMute : Obligations.NeverWritesBlobOrMute := by
  intro i s t h
  obtain ⟨hmem, hport⟩ := exec_mem_port h
  obtain ⟨es, hbus, hacc⟩ := exec_accesses h
  refine ⟨fun a => by rw [hmem], hmem, hport, fun hnone => ?_, es, hbus⟩
  rcases hacc with ⟨-, hmute, -⟩ | ⟨-, hmute, -⟩
  · exact hmute
  · rw [hmute, hnone]; rfl

/-- Settles O52, by the cases of `Executed`: START's case alone writes the header registers. -/
theorem onlyStartWritesHeader : Obligations.OnlyStartWritesHeader := by
  intro i s t h hi
  cases executed_of_exec h with
  | nop | resetwave | stopped => exact ⟨rfl, rfl, rfl, rfl, rfl, rfl, rfl⟩
  | start ptr => exact absurd rfl (hi ptr)
  | cell => simp
  | playing _ u bs _ hu _ =>
    have hf := countTick_frame hu
    exact ⟨hf.run, hf.base, hf.speed, hf.ordlen, hf.npat, hf.ninstr, hf.nwave⟩

/-- Settles O53, by the cases of `Executed`; a TICK writes `lwid` in its step 4 only
(`afterEffects_lwid`). -/
theorem loadedWaveIdentity : Obligations.LoadedWaveIdentity := by
  intro i s t h
  cases executed_of_exec h with
  | nop | stopped => exact .inl rfl
  | resetwave => exact .inr (.inl ⟨rfl, .inr rfl⟩)
  | start ptr => exact .inr (.inl ⟨rfl, .inl ⟨ptr, rfl⟩⟩)
  | cell => exact .inl (addCh_lwid ..)
  | playing _ u bs _ hu _ =>
    have hf := countTick_frame hu
    rcases afterEffects_lwid u bs with hl | ⟨hl, hlt⟩
    · exact .inl (hl.trans hf.lwid)
    · exact .inr (.inr ⟨rfl, hf.nwave ▸ hlt, hl⟩)

/-- Settles O56, from what an instruction leaves of the accesses (`exec_accesses`) and what then happens at
the command's end (`landAll_eq`). -/
theorem stepCommandMute : Obligations.StepCommandMute := by
  intro s t code ptr mid rest hport h
  simp only [step, hport, takeEvent, takeCommand, andThen_eq_next] at h
  obtain ⟨u, hu, h⟩ := h
  obtain rfl := Host.Outcome.next.inj h
  obtain ⟨es, hbus, hacc⟩ := exec_accesses hu
  obtain ⟨-, hrest⟩ := exec_mem_port hu
  rw [landAll_eq]
  suffices hend : muteAfter u.mid.all u.mute = muteAfter mid.all s.mute ∧
      es.filter isMuteAnswer ++ muteAnswers u.mid.all u.mute = muteAnswers mid.all s.mute by
    refine ⟨hend.1, rfl, hrest, es ++ muteAnswers u.mid.all u.mute, ?_, ?_⟩
    · simp [hbus]
    · rw [filter_muteTraceOf, List.filter_append, filter_muteAnswers, hend.2]
  rcases hacc with ⟨hmid, hmute, hnil⟩ | ⟨hmid, hmute, hans⟩
  · simp [hmid, hmute, hnil]
  · simp [hmid, hmute, hans, muteAfter, muteAnswers]

/-! ### The invariants of a channel -/

theorem toNat_pos_of_ne_zero {b : Byte} (h : b ≠ 0#8) : 0 < b.toNat := by bv_omega

/-- A counter below its period that has not reached it counts on without a wrap. -/
theorem toNat_add_one_lt {a b : Byte} (h : a.toNat < b.toNat) (hne : a + 1#8 ≠ b) :
    (a + 1#8).toNat < b.toNat := by bv_omega

theorem instrShape_pulse_le {c : Chan} (h : isPulse c = true) (b : Byte) :
    (instrShape c b).toNat ≤ 3 := by
  have hduty : (instrDuty b).toNat ≤ 3 := by
    simp only [instrDuty, BitVec.toNat_setWidth, BitVec.extractLsb'_toNat]; omega
  cases c with
  | ch1 | ch2 => exact hduty
  | ch3 | ch4 => exact nomatch h

theorem instrShape_noise_le (b : Byte) : (instrShape .ch4 b).toNat ≤ 1 := by
  change (instrNoiseMode b).toNat ≤ 1
  simp only [instrNoiseMode, BitVec.toNat_setWidth, BitVec.extractLsb'_toNat]; omega

theorem nextDuty_le (d : BitVec 4) : (nextDuty d).toNat ≤ 3 := by
  simp only [nextDuty, BitVec.toNat_ofNat]; omega

theorem zero_channelInv (c : Chan) (ninstr : Byte) : ChannelInv c ninstr Channel.zero where
  note_le := Nat.zero_le _
  ins_le := Nat.zero_le _
  pitch_le := Nat.zero_le _
  fout_le := Nat.zero_le _
  ectr_lt h := absurd rfl h
  dctr_lt h := absurd h (by decide)
  dctr_zero _ := rfl
  shape_pulse _ := Nat.zero_le _
  shape_noise _ := Nat.zero_le _

section channel

variable {c : Chan} {ninstr : Byte} {x : Channel}

theorem envelopeMove_channelInv (h : ChannelInv c ninstr x) : ChannelInv c ninstr (envelopeMove x) := by
  unfold envelopeMove
  split_ifs
  · exact { h with ectr_lt := fun hz => absurd rfl hz }
  · exact { h with }
  · exact { h with ectr_lt := fun hz => absurd rfl hz }
  · exact { h with }

theorem envelopeStep_channelInv (h : ChannelInv c ninstr x) : ChannelInv c ninstr (envelopeStep x) := by
  unfold envelopeStep
  split_ifs with hstopped hover
  · exact h
  · exact envelopeMove_channelInv { h with ectr_lt := toNat_pos_of_ne_zero }
  · exact { h with ectr_lt := fun _ => toNat_add_one_lt (h.ectr_lt hstopped) hover }

theorem vibOut_le (h : x.pitch.toNat ≤ pMax c) : (vibOut c x).toNat ≤ pMax c := by
  unfold vibOut
  split
  · rw [slideUp_toNat]; exact Nat.min_le_right _ _
  · rw [slideDown_toNat]; omega
  · exact h

theorem effDcy_channelInv (h : ChannelInv c ninstr x) : ChannelInv c ninstr (effDcy c x) := by
  unfold effDcy
  split_ifs with hcyc hwrap
  · obtain ⟨hpulse, hper⟩ : isPulse c = true ∧ x.fxp ≠ 0#8 := by simpa using hcyc
    exact { h with
      fout_le := h.pitch_le
      dctr_lt := fun _ _ => toNat_pos_of_ne_zero hper
      dctr_zero := fun _ => rfl
      shape_pulse := fun _ => nextDuty_le _
      shape_noise := fun hc => by subst hc; exact nomatch hpulse }
  · obtain ⟨hpulse, -⟩ : isPulse c = true ∧ x.fxp ≠ 0#8 := by simpa using hcyc
    exact { h with
      fout_le := h.pitch_le
      dctr_lt := fun hf hp => toNat_add_one_lt (h.dctr_lt hf hp) hwrap
      dctr_zero := fun hc => absurd (hpulse.symm.trans hc) (by decide) }
  · exact { h with fout_le := h.pitch_le }

theorem effectArm_channelInv (f : BitVec 4) (h : ChannelInv c ninstr x) :
    ChannelInv c ninstr (effectArm f c x) := by
  rcases effectArm_cases f with ⟨ha, -⟩ | ⟨ha, -⟩ | ⟨ha, -⟩ | ⟨ha, -⟩ | ⟨ha, -⟩ | ⟨ha, -⟩ <;> rw [ha]
  · have hup : (slideUp c x.pitch x.fxp.toNat).toNat ≤ pMax c := by
      rw [slideUp_toNat]; exact Nat.min_le_right _ _
    exact { h with pitch_le := hup, fout_le := hup }
  · have hdown : (slideDown x.pitch x.fxp.toNat).toNat ≤ pMax c := by
      rw [slideDown_toNat]; exact Nat.le_trans (Nat.sub_le _ _) h.pitch_le
    exact { h with pitch_le := hdown, fout_le := hdown }
  · exact { h with fout_le := noteMap_le c (Nat.min_le_right _ _) }
  · exact { h with fout_le := vibOut_le h.pitch_le }
  · exact effDcy_channelInv h
  · exact { h with fout_le := h.pitch_le }

theorem effectStep_channelInv (h : ChannelInv c ninstr x) : ChannelInv c ninstr (effectStep c x) :=
  effectArm_channelInv x.fx (envelopeStep_channelInv h)

theorem insLoad_channelInv {i : BitVec 4} (hi : hasIns i ninstr = true) (h : ChannelInv c ninstr x) :
    ChannelInv c ninstr (insLoad i x) := by
  obtain ⟨-, hle⟩ : i.toNat ≠ 0 ∧ i.toNat ≤ ninstr.toNat := by simpa [hasIns] using hi
  exact { h with ins_le := hle }

theorem noteRegs_channelInv {n : Byte} (hn : hasNote n = true) (h : ChannelInv c ninstr x) :
    ChannelInv c ninstr (noteRegs c n x) := by
  have hle : n.toNat ≤ 71 := of_decide_eq_true hn
  have hnote : (n.setWidth 7).toNat ≤ 71 := by rw [BitVec.toNat_setWidth]; omega
  exact { h with note_le := hnote, pitch_le := noteMap_le c hle }

theorem defaultsFrom_channelInv (b0 b1 : Byte) (h : ChannelInv c ninstr x) :
    ChannelInv c ninstr (defaultsFrom c b0 b1 x) :=
  { h with
    ectr_lt := toNat_pos_of_ne_zero
    shape_pulse := fun hc => instrShape_pulse_le hc b1
    shape_noise := fun hc => by subst hc; exact instrShape_noise_le b1 }

theorem fxLoad_channelInv (f : BitVec 4) (p : Byte) (h : ChannelInv c ninstr x) :
    ChannelInv c ninstr (fxLoad f p x) := by
  have hy : ChannelInv c ninstr { x with fx := f, fxp := p, astep := 0, vphase := 0#6, dctr := 0#8 } :=
    { h with dctr_lt := fun _ => toNat_pos_of_ne_zero, dctr_zero := fun _ => rfl }
  unfold fxLoad
  split_ifs
  · exact { hy with ectr_lt := toNat_pos_of_ne_zero }
  · exact { hy with ectr_lt := toNat_pos_of_ne_zero }
  · exact hy

theorem noted_channelInv (n : Byte) (i : BitVec 4) (h : ChannelInv c ninstr x) :
    ChannelInv c ninstr (noted c n i ninstr x) := by
  have hins : ChannelInv c ninstr (if hasIns i ninstr then insLoad i x else x) := by
    split
    · next hi => exact insLoad_channelInv hi h
    · exact h
  unfold noted
  dsimp only
  split
  · next hn => exact noteRegs_channelInv hn hins
  · exact hins

theorem triggered_channelInv (n : Byte) (i f : BitVec 4) (p : Byte) (d : Option (Byte × Byte))
    (h : ChannelInv c ninstr x) : ChannelInv c ninstr (triggered c n i f p ninstr d x) := by
  cases d with
  | none => exact fxLoad_channelInv f p (noted_channelInv n i h)
  | some b => exact fxLoad_channelInv f p (defaultsFrom_channelInv b.1 b.2 (noted_channelInv n i h))

/-- The commit writes `hold` and `onset`, of which the invariants say nothing. -/
theorem commit_channelInv (hold onset : Bool) (h : ChannelInv c ninstr x) :
    ChannelInv c ninstr { x with hold := hold, onset := onset } := { h with }

end channel

/-- A row trigger keeps the invariants of its channel (R160 to R169). -/
theorem triggerCh_channelInv {c : Chan} {n : Byte} {i f : BitVec 4} {p : Byte} {s : State} {x : Channel}
    (hx : triggerCh c n i f p s = some x) (h : ChannelInv c s.ninstr (s.ch c)) :
    ChannelInv c s.ninstr x := by
  unfold triggerCh at hx
  split at hx
  · split at hx
    · obtain rfl := Option.some.inj hx
      exact triggered_channelInv n i f p _ h
    · exact nomatch hx
  · split at hx
    · obtain rfl := Option.some.inj hx
      exact h
    · obtain rfl := Option.some.inj hx
      exact triggered_channelInv n i f p none h

/-! ### The invariants through a TICK -/

/-- Steps 1 and 2 of a TICK keep the invariants of every channel. -/
theorem countTick_channelInv {s u : State} (hu : countTick s = .next u)
    (h : ∀ c, ChannelInv c s.ninstr (s.ch c)) (c : Chan) : ChannelInv c s.ninstr (u.ch c) := by
  rcases countTick_iff.1 hu with ⟨-, rfl⟩ | ⟨-, hf⟩
  · rw [ch_with_tctr]; exact h c
  · obtain ⟨e, b, x, -, -, hx, rfl⟩ := fetchRow_iff.1 hf
    rw [withChs_ch, ← rowBoundary_ninstr s]
    exact triggerCh_channelInv (hx c) (by simpa using h c)

theorem advancePosition_ord_lt {s : State} (h : s.ord.toNat < s.ordlen.toNat) :
    (advancePosition s).ord.toNat < s.ordlen.toNat := by
  unfold advancePosition
  split_ifs with hrow hlast
  · exact Nat.zero_lt_of_lt h
  · refine toNat_add_one_lt h fun heq => hlast ?_
    rw [← heq]
    bv_omega
  · exact h

/-- The order position stays within the order list (R28, R137). -/
theorem rowBoundary_ord_lt {s : State} (h : s.ord.toNat < s.ordlen.toNat) :
    (rowBoundary s).ord.toNat < s.ordlen.toNat := by
  unfold rowBoundary
  dsimp only
  split
  · exact h
  · exact advancePosition_ord_lt (s := { s with tctr := s.speed }) h

/-- Steps 1 and 2 of a TICK keep the header and the position valid (R24, R28). -/
theorem countTick_playInv {s u : State} (hu : countTick s = .next u) (h : PlayInv s) : PlayInv u := by
  rcases countTick_iff.1 hu with ⟨hone, rfl⟩ | ⟨-, hf⟩
  · have hpos : 1 ≤ (s.tctr - 1#8).toNat := by have := h.tctr_pos; bv_omega
    exact { h with tctr_pos := hpos }
  · obtain ⟨e, b, x, -, -, -, rfl⟩ := fetchRow_iff.1 hf
    have hb : PlayInv (rowBoundary s) :=
      { speed_pos := by simpa using h.speed_pos
        ordlen_pos := by simpa using h.ordlen_pos
        npat_pos := by simpa using h.npat_pos
        npat_le := by simpa using h.npat_le
        ninstr_le := by simpa using h.ninstr_le
        nwave_le := by simpa using h.nwave_le
        tctr_pos := by simpa using h.speed_pos
        ord_lt := by simpa using rowBoundary_ord_lt h.ord_lt }
    exact { hb with }

theorem tick_blockInv {s t : State} (h : BlockInv s) (ht : execTick s = .next t) : BlockInv t := by
  rcases execTick_iff.1 ht with ⟨-, rfl⟩ | ⟨hrun, u, bs, hu, -, rfl⟩
  · exact h
  · have hf := countTick_frame hu
    have hplay : PlayInv u := countTick_playInv hu (h.play hrun)
    refine
      { chan := fun c => ?_, idle := fun c => ?_, play := fun _ => { hplay with }, wave := ?_
        mem := hf.mem ▸ h.mem, base := hf.base ▸ h.base, port := hf.port ▸ h.port }
    · obtain ⟨hold, hc⟩ := ch_afterEffects u bs c
      rw [hc, show (u.afterEffects bs).ninstr = s.ninstr from hf.ninstr]
      exact commit_channelInv hold false (effectStep_channelInv (countTick_channelInv hu h.chan c))
    · obtain ⟨hold, hc⟩ := ch_afterEffects u bs c
      rw [hc]
    · rw [show (u.afterEffects bs).nwave = s.nwave from hf.nwave]
      rcases afterEffects_lwid u bs with hl | ⟨-, hlt⟩
      · rw [hl, hf.lwid]; exact h.wave
      · exact .inr (hf.nwave ▸ hlt)

/-- START leaves every channel zero and, when the header is valid, the position at the start (R131, R132). -/
theorem start_blockInv {ptr : Nat} {s t : State} (h : BlockInv s) (hp : PtrFits ptr)
    (ht : execStart ptr s = .next t) : BlockInv t := by
  obtain ⟨h0, h1, h2, h3, h4, h5, -, -, -, -, -, -, rfl⟩ := execStart_eq_next ht
  have hch : ∀ c, (startRegs h0 h1 h2 h3 h4 h5 { s with base := ptr, bus := s.bus ++ headerReads }).ch c =
      Channel.zero := by intro c; cases c <;> rfl
  refine
    { chan := fun c => by rw [hch]; exact zero_channelInv c _
      idle := fun c => by rw [hch]; rfl
      play := fun hrun => ?_, wave := .inl rfl, mem := h.mem, base := hp, port := h.port }
  have hvalid : headerValid h0 h1 h2 h3 h4 h5 = true := hrun
  rw [headerValid_eq, decide_eq_true_iff] at hvalid
  obtain ⟨-, hspeed, hord, hpat, hpat', hins, hwave⟩ := hvalid
  exact ⟨hspeed, hord, hpat, hpat', hins, hwave, Nat.le_refl 1, hord⟩

/-! ### The invariants through a step -/

/-- Every 2-bit code is one of the four commands (R107). -/
theorem decodeCommand_cases (code : BitVec 2) (ptr : Nat) :
    decodeCommand code ptr = .nop ∨ decodeCommand code ptr = .start ptr ∨
      decodeCommand code ptr = .tick ∨ decodeCommand code ptr = .resetwave := by
  unfold decodeCommand
  split <;> simp

theorem command_blockInv {code : BitVec 2} {ptr : Nat} {s t : State} (h : BlockInv s)
    (hp : PtrFits ptr) (ht : exec (decodeCommand code ptr) s = .next t) : BlockInv t := by
  rcases decodeCommand_cases code ptr with hc | hc | hc | hc <;> rw [hc] at ht
  · obtain rfl := Host.Outcome.next.inj ht
    exact h
  · exact start_blockInv h hp ht
  · exact tick_blockInv h ht
  · obtain rfl := Host.Outcome.next.inj ht
    exact { h with play := fun hrun => { h.play hrun with }, wave := .inl rfl }

/-- What the host does to `MUTE`, to the record and to its own inputs is outside the invariant of the
block. -/
theorem BlockInv.with_host {s : State} (h : BlockInv s) (m : MidAccesses) (v : BitVec 4)
    (l : List BusEvent) {p : List HostEvent} (hp : ∀ e ∈ p, EventOk e) :
    BlockInv { s with mid := m, mute := v, bus := l, port := p } :=
  { h with play := fun hrun => { h.play hrun with }, port := hp }

theorem takeEvent_machineInv {e : HostEvent} {s t : State} (h : MachineInv s) (he : EventOk e)
    (ht : takeEvent e s = .next t) : MachineInv t := by
  cases e with
  | command code ptr mid =>
    obtain ⟨u, hu, ht⟩ := andThen_eq_next.1 ht
    obtain rfl := Host.Outcome.next.inj ht
    have hb : BlockInv u :=
      command_blockInv (h.toBlockInv.with_host mid s.mute s.bus h.port) he hu
    rw [landAll_eq]
    exact { hb.with_host .none _ _ hb.port with mid := rfl }
  | access a =>
    obtain rfl : accessAll [a] s = t := Host.Outcome.next.inj ht
    rw [accessAll_eq]
    exact { h.toBlockInv.with_host s.mid _ _ h.port with mid := h.mid }
  | store a b =>
    obtain ⟨-, rfl⟩ := storeByte_iff.1 ht
    exact { h with play := fun hrun => { h.play hrun with }, mem := Memory.wf_write a b h.mem }
  | overlapped => exact nomatch ht

/-- Settles O50, by the host's next action: a command keeps the invariant of the block
(`command_blockInv`) whatever accesses of `MUTE` fall inside it, and all of them have happened at its end. -/
theorem stepKeepsInvariant : Obligations.StepKeepsInvariant := by
  intro s t h ht
  unfold step at ht
  split at ht
  · obtain rfl := Host.Outcome.next.inj ht
    exact h
  · next e rest hport =>
    have hev := h.port
    rw [hport] at hev
    have hs : MachineInv { s with port := rest } :=
      { h.toBlockInv.with_host s.mid s.mute s.bus fun e he => hev e (List.mem_cons_of_mem _ he) with
        mid := h.mid }
    exact takeEvent_machineInv hs (hev e List.mem_cons_self) ht

/-! ### Reset and START -/

/-- Settles O9: each register of the table of R45 has its value by the definition of the reset state. -/
theorem powerOnValues : Obligations.PowerOnValues :=
  ⟨rfl, rfl, rfl, rfl, rfl, rfl, rfl, rfl, rfl, rfl, rfl, rfl, fun c => by cases c <;> rfl⟩

/-- Settles O10: every channel is zero, no song plays and nothing is pending. -/
theorem resetInvariant : Obligations.ResetInvariant :=
  { chan := fun c => by cases c <;> exact zero_channelInv _ _
    idle := fun c => by cases c <;> rfl
    play := fun h => nomatch h
    wave := .inl rfl
    mem := Memory.wf_nil
    base := Nat.two_pow_pos _
    port := fun _ h => nomatch h
    mid := rfl }

/-- Settles O11, from START over a readable header (`execStart_of_read`) with the validity predicate
written out (`headerValid_eq`). -/
theorem startState : Obligations.StartState := by
  intro ptr s h
  obtain ⟨h0, e0⟩ := Option.isSome_iff_exists.1 (h 0 (by decide))
  obtain ⟨h1, e1⟩ := Option.isSome_iff_exists.1 (h 1 (by decide))
  obtain ⟨h2, e2⟩ := Option.isSome_iff_exists.1 (h 2 (by decide))
  obtain ⟨h3, e3⟩ := Option.isSome_iff_exists.1 (h 3 (by decide))
  obtain ⟨h4, e4⟩ := Option.isSome_iff_exists.1 (h 4 (by decide))
  obtain ⟨h5, e5⟩ := Option.isSome_iff_exists.1 (h 5 (by decide))
  refine ⟨h0, h1, h2, h3, h4, h5, e0, e1, e2, e3, e4, e5, ?_⟩
  rw [← headerValid_eq]
  exact execStart_of_read e0 e1 e2 e3 e4 e5

end Sys2Proof.Machine
end

section
/-! Proofs of the statements about the interfaces (20_memory.md). The blob reads of every operation and their
bounds, what a commit writes to the sink, and when a TICK, a cell and a step complete. -/

namespace Sys2Proof.Machine

/-! ### Records of blob reads alone -/

section reads

variable (l : List Nat)

@[simp] theorem readTraceOf_map_blobRead : readTraceOf (l.map .blobRead) = l := by
  induction l with
  | nil => rfl
  | cons off l ih => simp [readTraceOf, ih]

@[simp] theorem sinkTraceOf_map_blobRead : sinkTraceOf (l.map .blobRead) = [] := by
  induction l with
  | nil => rfl
  | cons off l ih => simp [sinkTraceOf, ih]

@[simp] theorem sampleTraceOf_map_blobRead : sampleTraceOf (l.map .blobRead) = [] := by
  induction l with
  | nil => rfl
  | cons off l ih => simp [sampleTraceOf, ih]

@[simp] theorem muteTraceOf_map_blobRead : muteTraceOf (l.map .blobRead) = [] := by
  induction l with
  | nil => rfl
  | cons off l ih => simp [muteTraceOf, ih]

/-- The offsets in the trace are those of the record's blob reads. -/
theorem mem_readTraceOf {off : Nat} {es : List BusEvent} :
    off ∈ readTraceOf es ↔ .blobRead off ∈ es := by
  induction es with
  | nil => simp [readTraceOf]
  | cons e es ih => cases e <;> simp [readTraceOf, ih]

end reads

/-- The offsets of the instrument bytes a cell reads, if any (R166). -/
def defaultsOffsets (c : Chan) (n : Byte) (i : BitVec 4) (s : State) : List Nat :=
  if loadsDefaults c n i s then [defaultsOffset c i s 0, defaultsOffset c i s 1] else []

theorem defaultsReads_eq_map (c : Chan) (n : Byte) (i : BitVec 4) (s : State) :
    defaultsReads c n i s = (defaultsOffsets c n i s).map .blobRead := by
  unfold defaultsReads defaultsOffsets
  split <;> rfl

/-- The offsets a row fetch reads, in order (R138). -/
def rowOffsets (p : Nat) (b : Chan → Byte × Byte × Byte) (s : State) : List Nat :=
  (ordBase + s.ord.toNat) :: [Chan.ch1, .ch2, .ch3, .ch4].flatMap fun c =>
    [cellAddr s p s.row.toNat c, cellAddr s p s.row.toNat c + 1, cellAddr s p s.row.toNat c + 2] ++
      defaultsOffsets c (b c).1 (hiNibble (b c).2.1) s

theorem rowReads_eq_map (p : Nat) (b : Chan → Byte × Byte × Byte) (s : State) :
    rowReads p b s = (rowOffsets p b s).map .blobRead := by
  simp [rowReads, rowOffsets, cellReads, defaultsReads_eq_map]

/-! ### The regions of the blob (R62, R63) -/

/-- The offset lies in the blob of the state's song, past the header (R63). -/
def InBlob (s : State) (off : Nat) : Prop := 8 ≤ off ∧ off < blobLen s

/-- The counts of a valid header bound the length of the blob (R62, R92). -/
theorem PlayInv.blobLen_le {s : State} (h : PlayInv s) : blobLen s ≤ 49701 := by
  have hord := s.ordlen.isLt
  have hpat : s.npat.toNat ≤ 64 := h.npat_le
  have hins : s.ninstr.toNat ≤ 15 := h.ninstr_le
  have hwave : s.nwave.toNat ≤ 16 := h.nwave_le
  unfold blobLen patBase wavBase insBase
  omega

theorem orderOffset_inBlob {s : State} (h : s.ord.toNat < s.ordlen.toNat) :
    InBlob s (ordBase + s.ord.toNat) := by
  unfold InBlob blobLen patBase wavBase insBase ordBase
  omega

theorem chanIndex_le (c : Chan) : chanIndex c ≤ 3 := by cases c <;> decide

/-- Each of the three bytes of a cell of the table's patterns is in the blob (R96). -/
theorem cellOffset_inBlob {s : State} {p r k : Nat} (c : Chan) (hp : p < s.npat.toNat) (hr : r < 64)
    (hk : k < 3) : InBlob s (cellAddr s p r c + k) := by
  have hc := chanIndex_le c
  unfold InBlob cellAddr blobLen patBase wavBase insBase
  omega

/-- Both bytes of an instrument of the table are in the blob (R94, R166). -/
theorem defaultsOffset_inBlob {c : Chan} {i : BitVec 4} {s : State} {k : Nat}
    (hne : insAfter c i s ≠ 0#4) (hle : (insAfter c i s).toNat ≤ s.ninstr.toNat) (hk : k < 2) :
    InBlob s (defaultsOffset c i s k) := by
  have hpos : (insAfter c i s).toNat ≠ 0 := fun h => hne (BitVec.eq_of_toNat_eq h)
  unfold InBlob defaultsOffset blobLen patBase wavBase insBase
  omega

/-- Each of the sixteen bytes of a waveform of the table is in the blob (R95, R217). -/
theorem waveOffset_inBlob {s : State} {w j : Nat} (hw : w < s.nwave.toNat) (hj : j < 16) :
    InBlob s (wavBase s + 16 * w + j) := by
  unfold InBlob blobLen patBase wavBase insBase
  omega

/-- The instrument a cell leaves active is none or one of the table (R163, R164). -/
theorem insAfter_le {c : Chan} (i : BitVec 4) {s : State} (h : ChannelInv c s.ninstr (s.ch c)) :
    (insAfter c i s).toNat ≤ s.ninstr.toNat := by
  unfold insAfter
  split
  · next hi => exact (by simpa [hasIns] using hi : i.toNat ≠ 0 ∧ i.toNat ≤ s.ninstr.toNat).2
  · exact h.ins_le

theorem loadsDefaults_inBlob {c : Chan} {n : Byte} {i : BitVec 4} {s : State} {k : Nat}
    (h : ChannelInv c s.ninstr (s.ch c)) (hl : loadsDefaults c n i s = true) (hk : k < 2) :
    InBlob s (defaultsOffset c i s k) := by
  have hne : insAfter c i s ≠ 0#4 := by
    unfold loadsDefaults at hl
    simpa using (Bool.and_eq_true_iff.1 hl).2
  exact defaultsOffset_inBlob hne (insAfter_le i h) hk

theorem defaultsOffsets_inBlob {c : Chan} {n : Byte} {i : BitVec 4} {s : State} {off : Nat}
    (h : ChannelInv c s.ninstr (s.ch c)) (ho : off ∈ defaultsOffsets c n i s) : InBlob s off := by
  unfold defaultsOffsets at ho
  split at ho
  · next hl =>
    rcases List.mem_pair.1 ho with rfl | rfl
    · exact loadsDefaults_inBlob h hl (by decide)
    · exact loadsDefaults_inBlob h hl (by decide)
  · exact nomatch ho

/-- An order entry out of range is clamped to the last pattern (R138, R233). -/
theorem clampPattern_lt {s : State} (e : Byte) (h : 1 ≤ s.npat.toNat) :
    clampPattern e s < s.npat.toNat := by
  unfold clampPattern
  omega

/-- Every read of a row fetch is in the blob (R63, R138). -/
theorem rowOffsets_inBlob {s : State} {p off : Nat} {b : Chan → Byte × Byte × Byte}
    (hord : s.ord.toNat < s.ordlen.toNat) (hp : p < s.npat.toNat)
    (h : ∀ c, ChannelInv c s.ninstr (s.ch c)) (ho : off ∈ rowOffsets p b s) : InBlob s off := by
  have hcell : ∀ c k, k < 3 → InBlob s (cellAddr s p s.row.toNat c + k) := fun c k hk =>
    cellOffset_inBlob c hp s.row.isLt hk
  rcases List.mem_cons.1 ho with rfl | ho
  · exact orderOffset_inBlob hord
  · obtain ⟨c, -, ho⟩ := List.mem_flatMap.1 ho
    rcases List.mem_append.1 ho with ho | ho
    · simp only [List.mem_cons, List.not_mem_nil, or_false] at ho
      rcases ho with rfl | rfl | rfl
      · exact hcell c 0 (by decide)
      · exact hcell c 1 (by decide)
      · exact hcell c 2 (by decide)
    · exact defaultsOffsets_inBlob (h c) ho

/-- Settles O8: the sums are the definitions, the bound is `PlayInv.blobLen_le`. -/
theorem regionBases : Obligations.RegionBases := fun _ =>
  ⟨rfl, rfl, rfl, rfl, rfl, PlayInv.blobLen_le⟩

/-! ### The host's accesses between commands -/

/-- A step takes the host's action that is first in line (R130). -/
theorem step_of_port {s : State} {e : HostEvent} {rest : List HostEvent} (h : s.port = e :: rest) :
    step s = takeEvent e { s with port := rest } := by
  unfold step
  rw [h]

theorem extractLsb'_zero_four (b : Byte) : b.extractLsb' 0 4 = BitVec.ofNat 4 (b.toNat % 16) :=
  BitVec.eq_of_toNat_eq (by simp)

/-- Settles O57: an access of `MUTE` first in line is `accessMute`, whose two cases store bits 3:0 or
record the four bits zero-extended. -/
theorem stepMuteAccess : Obligations.StepMuteAccess := by
  intro s rest b
  refine ⟨fun hport => ?_, fun hport => ?_⟩
  · rw [step_of_port hport, ← extractLsb'_zero_four]
    rfl
  · rw [step_of_port hport, BitVec.ofNat_toNat]
    rfl

/-- A store outside the playing blob, or of the byte that stands there, happens (R64, R78). -/
theorem storeByte_of_unchanged {a : Nat} {b : Byte} {s : State}
    (h : s.run = true → a < s.base ∨ s.base + blobLen s ≤ a ∨ Memory.read s.mem a = some b) :
    storeByte a b s = .next { s with mem := Memory.write s.mem a b } := by
  refine storeByte_iff.2 ⟨fun hrun hlo hhi => ?_, rfl⟩
  rcases h hrun with hlt | hge | hread
  · exact absurd hlo (Nat.not_le.2 hlt)
  · exact absurd hhi (Nat.not_lt.2 hge)
  · exact hread

/-- A store that would change a byte of the playing blob is refused by name (U5). -/
theorem storeByte_of_changed {a : Nat} {b : Byte} {s : State} (hrun : s.run = true) (hlo : s.base ≤ a)
    (hhi : a < s.base + blobLen s) (hne : Memory.read s.mem a ≠ some b) :
    storeByte a b s = .refused (.blobChanged a) :=
  if_pos ⟨inPlayingBlob_iff.2 ⟨hrun, hlo, hhi⟩, hne⟩

/-- Settles O58, by the two cases of a store and the laws of the memory. -/
theorem stepCallerStore : Obligations.StepCallerStore := by
  intro s rest a b hport
  rw [step_of_port hport]
  constructor
  · intro h
    exact ⟨_, storeByte_of_unchanged h, Memory.read_write_same .., fun a' ha =>
      Memory.read_write_ne _ _ ha, Memory.wf_write a b⟩
  · exact fun hrun hlo hhi hne => storeByte_of_changed hrun hlo hhi hne

/-! ### What a cell reads and when it stops -/

/-- There is no fault, so an outcome is a refusal exactly when it is no next state (R230). -/
theorem refused_iff_not_completes {o : Host.Outcome State Fault Refusal} :
    (∃ r, o = .refused r) ↔ ¬Completes o := by
  unfold Completes
  cases o with
  | next t => simp
  | fault r => cases r
  | refused r => simp

/-- The channel function of a trigger has a value exactly when the instrument bytes it loads are
readable. -/
theorem triggerCh_isSome_iff {c : Chan} {n : Byte} {i f : BitVec 4} {p : Byte} {s : State} :
    (∃ x, triggerCh c n i f p s = some x) ↔ CellReadable c n i s := by
  constructor
  · rintro ⟨x, hx⟩ hl k hk
    unfold triggerCh at hx
    rw [if_pos hl] at hx
    split at hx
    · next b0 b1 h0 h1 =>
      obtain rfl | rfl : k = 0 ∨ k = 1 := by omega
      · exact Option.isSome_of_eq_some h0
      · exact Option.isSome_of_eq_some h1
    · exact nomatch hx
  · intro h
    obtain ⟨t, ht⟩ := trigger_completes f p h
    obtain ⟨x, hx, -⟩ := trigger_iff.1 ht
    exact ⟨x, hx⟩

theorem exec_cell_completes_iff {c : Chan} {n : Byte} {i f : BitVec 4} {p : Byte} {s : State} :
    Completes (exec (cellOfFields c n i f p) s) ↔ CellReadable c n i s := by
  rw [← triggerCh_isSome_iff (f := f) (p := p)]
  constructor
  · rintro ⟨t, ht⟩
    obtain ⟨x, hx, -⟩ := exec_cell_iff.1 ht
    exact ⟨x, hx⟩
  · rintro ⟨x, hx⟩
    exact ⟨_, exec_cell_iff.2 ⟨x, hx, rfl⟩⟩

/-- Settles O45: a cell is refused when it does not complete, and it completes exactly when the instrument
bytes it loads are readable (`exec_cell_completes_iff`). -/
theorem cellStopsOnUnreadable : Obligations.CellStopsOnUnreadable := fun _ _ _ _ _ _ =>
  refused_iff_not_completes.trans (not_congr exec_cell_completes_iff)

/-- Settles O54, by the cases of `Executed`: START and a cell add blob reads alone to the record. -/
theorem onlyTickWritesSink : Obligations.OnlyTickWritesSink := by
  intro i s t h hi
  cases executed_of_exec h with
  | nop | resetwave | stopped => rfl
  | start => simp [startRegs, headerReads, sinkTraceOf]
  | cell => simp [defaultsReads_eq_map]
  | playing _ u bs hrun =>
    rcases hi with hne | hstop
    · exact absurd rfl hne
    · exact absurd hrun (by simp [hstop])

end Sys2Proof.Machine
end

section
/-! What a commit and a TICK put into the record (20_memory.md R65, R69). The traces of one channel's
events, then the statements about the commit unit. -/

namespace Sys2Proof.Machine

/-! ### The write set -/

/-- A value that fits its sink register passes the mask unchanged (R65). -/
theorem sinkMask_of_lt {n v : Nat} (h : v < 2 ^ sinkWidth n) : sinkMask n v = BitVec.ofNat 11 v := by
  unfold sinkMask
  rw [Nat.mod_eq_of_lt h]

theorem sinkMask_of_bitVec {n w : Nat} {v : BitVec w} (h : v.toNat < 2 ^ sinkWidth n) :
    sinkMask n v.toNat = v.setWidth 11 := by
  rw [sinkMask_of_lt h, BitVec.ofNat_toNat]

/-- The registers of the write set with their values (R66, R213, R214). -/
def writePairs (c : Chan) (x : Channel) : List (Nat × BitVec 11) :=
  [(8 * chanIndex c, x.shape.setWidth 11), (8 * chanIndex c + 1, x.vol.setWidth 11),
    (8 * chanIndex c + 2, x.fout)] ++
  if x.onset then [(8 * chanIndex c + 3, 1#11)] else []

theorem shape_lt {c : Chan} {ninstr : Byte} {x : Channel} (h : ChannelInv c ninstr x) :
    x.shape.toNat < 2 ^ sinkWidth (sinkReg c 0) := by
  cases c with
  | ch1 | ch2 => exact Nat.lt_succ_of_le (h.shape_pulse rfl)
  | ch3 => exact x.shape.isLt
  | ch4 => exact Nat.lt_succ_of_le (h.shape_noise rfl)

theorem vol_lt (c : Chan) (x : Channel) : x.vol.toNat < 2 ^ sinkWidth (sinkReg c 1) := by
  cases c <;> exact x.vol.isLt

theorem fout_lt {c : Chan} {ninstr : Byte} {x : Channel} (h : ChannelInv c ninstr x) :
    x.fout.toNat < 2 ^ sinkWidth (sinkReg c 2) := by
  cases c with
  | ch1 | ch2 | ch3 => exact x.fout.isLt
  | ch4 => exact Nat.lt_succ_of_le h.fout_le

/-- Under the invariants of the channel no register of the write set loses a bit to its width. -/
theorem sinkTraceOf_writeEvents {c : Chan} {ninstr : Byte} {x : Channel} (h : ChannelInv c ninstr x) :
    sinkTraceOf (writeEvents c x) = writePairs c x := by
  have htrig : sinkMask (sinkReg c 3) 1 = 1#11 := by cases c <;> rfl
  unfold writeEvents writePairs
  rw [sinkMask_of_bitVec (shape_lt h), sinkMask_of_bitVec (vol_lt c x), sinkMask_of_bitVec (fout_lt h),
    htrig, BitVec.setWidth_eq]
  split <;> rfl

@[simp] theorem readTraceOf_writeEvents (c : Chan) (x : Channel) :
    readTraceOf (writeEvents c x) = [] := by
  unfold writeEvents
  split <;> rfl

@[simp] theorem sampleTraceOf_writeEvents (c : Chan) (x : Channel) :
    sampleTraceOf (writeEvents c x) = [] := by
  unfold writeEvents
  split <;> rfl

@[simp] theorem muteTraceOf_writeEvents (c : Chan) (x : Channel) :
    muteTraceOf (writeEvents c x) = [] := by
  unfold writeEvents
  split <;> rfl

theorem map_fst_writeEvents (c : Chan) (x : Channel) :
    (sinkTraceOf (writeEvents c x)).map Prod.fst =
      (List.range (if x.onset then 4 else 3)).map (sinkReg c) := by
  unfold writeEvents
  split <;> rfl

/-- The write set goes to the four registers of its channel (R66). -/
theorem mem_writeEvents {c : Chan} {x : Channel} {w : Nat × BitVec 11}
    (h : w ∈ sinkTraceOf (writeEvents c x)) : ∃ k, k < 4 ∧ w.1 = sinkReg c k := by
  have hw := List.mem_map_of_mem (f := Prod.fst) h
  rw [map_fst_writeEvents] at hw
  obtain ⟨k, hk, hw⟩ := List.mem_map.1 hw
  refine ⟨k, Nat.lt_of_lt_of_le (List.mem_range.1 hk) ?_, hw.symm⟩
  split <;> decide

theorem sinkReg_lt {k : Nat} (c : Chan) (h : k < 4) : sinkReg c k < 32 := by
  have hc := chanIndex_le c
  unfold sinkReg
  omega

theorem writeEvents_lt {c : Chan} {x : Channel} {w : Nat × BitVec 11}
    (h : w ∈ sinkTraceOf (writeEvents c x)) : w.1 < 32 := by
  obtain ⟨k, hk, hw⟩ := mem_writeEvents h
  rw [hw]
  exact sinkReg_lt c hk

/-! ### The waveform load -/

/-- The registers of the waveform memory from byte `i` on with the values of a load (R66, R217). -/
def wavePairs (i : Nat) (bs : List Byte) : List (Nat × BitVec 11) :=
  (bs.zipIdx i).map fun x => (32 + x.2, x.1.setWidth 11)

theorem sinkWidth_waveReg {i : Nat} (h : i < 16) : sinkWidth (waveReg i) = 8 := by
  interval_cases i <;> rfl

theorem sinkTraceOf_waveEvents (off : Nat) {i : Nat} {bs : List Byte} (h : i + bs.length ≤ 16) :
    sinkTraceOf (waveEvents off i bs) = wavePairs i bs := by
  induction bs generalizing i with
  | nil => rfl
  | cons b bs ih =>
    rw [List.length_cons] at h
    have hb : sinkMask (waveReg i) b.toNat = b.setWidth 11 :=
      sinkMask_of_bitVec (by rw [sinkWidth_waveReg (by omega)]; exact b.isLt)
    simp only [waveEvents, sinkTraceOf, hb, ih (i := i + 1) (by omega)]
    rfl

/-- Every write of a waveform load goes above the registers of the channels. -/
theorem waveEvents_ge {off i : Nat} {bs : List Byte} {w : Nat × BitVec 11}
    (h : w ∈ sinkTraceOf (waveEvents off i bs)) : 32 ≤ w.1 := by
  induction bs generalizing i with
  | nil => exact nomatch h
  | cons b bs ih =>
    rcases List.mem_cons.1 h with rfl | h
    · exact Nat.le_add_right 32 i
    · exact ih h

@[simp] theorem readTraceOf_waveEvents (off i : Nat) (bs : List Byte) :
    readTraceOf (waveEvents off i bs) = (List.range' i bs.length).map (off + ·) := by
  induction bs generalizing i with
  | nil => rfl
  | cons b bs ih => simp [waveEvents, readTraceOf, ih, List.range'_succ]

@[simp] theorem sampleTraceOf_waveEvents (off i : Nat) (bs : List Byte) :
    sampleTraceOf (waveEvents off i bs) = [] := by
  induction bs generalizing i with
  | nil => rfl
  | cons b bs ih => simp [waveEvents, sampleTraceOf, ih]

@[simp] theorem muteTraceOf_waveEvents (off i : Nat) (bs : List Byte) :
    muteTraceOf (waveEvents off i bs) = [] := by
  induction bs generalizing i with
  | nil => rfl
  | cons b bs ih => simp [waveEvents, muteTraceOf, ih]

/-! ### The value a sink register holds (R67) -/

theorem lastWritten_append (n : Nat) (l k : List (Nat × BitVec 11)) :
    lastWritten n (l ++ k) = (lastWritten n k).or (lastWritten n l) := by
  induction l with
  | nil => simp [lastWritten]
  | cons x l ih =>
    obtain ⟨m, v⟩ := x
    rw [List.cons_append, lastWritten, lastWritten, ih]
    cases lastWritten n k with
    | none => rfl
    | some w => rfl

theorem lastWritten_eq_none {n : Nat} {l : List (Nat × BitVec 11)} (h : ∀ w ∈ l, w.1 ≠ n) :
    lastWritten n l = none := by
  induction l with
  | nil => rfl
  | cons x l ih =>
    obtain ⟨m, v⟩ := x
    obtain ⟨hx, hl⟩ := List.forall_mem_cons.1 h
    rw [lastWritten, ih hl]
    exact if_neg hx

theorem lastWritten_cons_ne {n m : Nat} {v : BitVec 11} {l : List (Nat × BitVec 11)} (h : m ≠ n) :
    lastWritten n ((m, v) :: l) = lastWritten n l := by
  rw [lastWritten, if_neg h]
  cases lastWritten n l <;> rfl

/-- A load leaves each of its bytes in its register of the waveform memory (R66, R217). -/
theorem lastWritten_wavePairs (i j : Nat) (bs : List Byte) :
    lastWritten (waveReg (i + j)) (wavePairs i bs) = (bs[j]?).map (·.setWidth 11) := by
  induction bs generalizing i j with
  | nil => rfl
  | cons b bs ih =>
    change lastWritten (waveReg (i + j)) ((32 + i, b.setWidth 11) :: wavePairs (i + 1) bs) = _
    cases j with
    | zero =>
      have hnone : lastWritten (waveReg i) (wavePairs (i + 1) bs) = none := by
        refine lastWritten_eq_none fun w hw => ?_
        obtain ⟨x, hx, rfl⟩ := List.mem_map.1 hw
        have := List.le_snd_of_mem_zipIdx hx
        unfold waveReg
        omega
      rw [Nat.add_zero, lastWritten, hnone]
      exact if_pos rfl
    | succ j =>
      rw [lastWritten_cons_ne (by unfold waveReg; omega), show i + (j + 1) = i + 1 + j by omega, ih]
      rfl

/-- After a load of sixteen bytes and writes below the waveform memory its samples are those of the
bytes (R95). -/
theorem residentSample_of_load {k : Nat} {w l : List (Nat × BitVec 11)} {bs : List Byte}
    (hl : ∀ x ∈ l, x.1 < 32) (hk : k / 2 < bs.length) :
    residentSample k (w ++ (wavePairs 0 bs ++ l)) = (bs[k / 2]?).map (sampleOf k) := by
  have hnone : lastWritten (waveReg (k / 2)) l = none :=
    lastWritten_eq_none fun x hx => by have := hl x hx; unfold waveReg; omega
  have hwave := lastWritten_wavePairs 0 (k / 2) bs
  rw [Nat.zero_add, List.getElem?_eq_getElem hk] at hwave
  unfold residentSample
  rw [lastWritten_append, lastWritten_append, hnone, Option.none_or, hwave,
    List.getElem?_eq_getElem hk]
  simp

/-! ### The events of a commit -/

theorem sinkTraceOf_commitEvents (c : Chan) (s : State) (bs : List Byte) :
    sinkTraceOf (commitEvents c s bs) =
      if latched c s then []
      else sinkTraceOf (waveEvents (wavBase s + 16 * s.ch3.shape.toNat) 0 bs) ++
        sinkTraceOf (writeEvents c (s.ch c)) := by
  unfold commitEvents
  split <;> simp [sinkTraceOf]

theorem readTraceOf_commitEvents (c : Chan) (s : State) (bs : List Byte) :
    readTraceOf (commitEvents c s bs) =
      if latched c s then []
      else (List.range bs.length).map (wavBase s + 16 * s.ch3.shape.toNat + ·) := by
  unfold commitEvents
  split <;> simp [readTraceOf, List.range_eq_range']

theorem filter_waveEvents_lt (off i : Nat) (bs : List Byte) :
    (sinkTraceOf (waveEvents off i bs)).filter (fun w => decide (w.1 < 32)) = [] := by
  refine List.filter_eq_nil_iff.2 fun w hw => ?_
  have := waveEvents_ge hw
  simpa using this

theorem filter_writeEvents_lt (c : Chan) (x : Channel) :
    (sinkTraceOf (writeEvents c x)).filter (fun w => decide (w.1 < 32)) =
      sinkTraceOf (writeEvents c x) :=
  List.filter_eq_self.2 fun _ hw => decide_eq_true (writeEvents_lt hw)

/-- Settles O27: the state after a commit (`commit_iff`), and its write set without the waveform memory
(`sinkTraceOf_writeEvents`). -/
theorem commitWriteSet : Obligations.CommitWriteSet := by
  intro c s t hinv h
  obtain ⟨bs, -, rfl⟩ := commit_iff.1 h
  refine ⟨by simp, fun d hd => ch_afterCommit_ne _ _ _ _ hd, _, afterCommit_bus .., fun hhold => ?_⟩
  rw [ch_afterCommit_same] at hhold
  rw [sinkTraceOf_commitEvents, if_neg (by simpa using hhold), List.filter_append,
    filter_waveEvents_lt, filter_writeEvents_lt, sinkTraceOf_writeEvents hinv]
  rfl

/-- The condition of R216 on the registers of CH3. -/
theorem guardLoads_ch3_iff {s : State} : guardLoads .ch3 s = true ↔
    latched .ch3 s = false ∧ (s.ch .ch3).onset = true ∧
      (s.ch .ch3).shape.toNat < s.nwave.toNat ∧ s.lwid.toNat ≠ (s.ch .ch3).shape.toNat := by
  have hlwid : s.lwid = s.ch3.shape.setWidth 8 ↔ s.lwid.toNat = s.ch3.shape.toNat := by
    rw [← BitVec.toNat_inj, BitVec.toNat_setWidth_of_le (by decide)]
  change _ ↔ latched .ch3 s = false ∧ s.ch3.onset = true ∧ s.ch3.shape.toNat < s.nwave.toNat ∧
    s.lwid.toNat ≠ s.ch3.shape.toNat
  simp [guardLoads, waveNeeded, ← hlwid, and_assoc]

/-- Settles O28, by whether the wave guard loads: the events of the load are its reads and writes in turn
(`sinkTraceOf_waveEvents`), and no write after them reaches the waveform memory. -/
theorem waveGuardLoads : Obligations.WaveGuardLoads := by
  intro s t h
  obtain ⟨bs, hbs, rfl⟩ := commit_iff.1 h
  have hhold : ((s.afterCommit .ch3 bs).ch .ch3).hold = latched .ch3 s := by
    rw [ch_afterCommit_same]
  refine ⟨_, afterCommit_bus .., ?_⟩
  rw [hhold, ← guardLoads_ch3_iff, afterCommit_lwid, afterCommit_bus, sinkTraceOf_append,
    sinkTraceOf_commitEvents, readTraceOf_commitEvents]
  unfold CommitBytes at hbs
  constructor
  · intro hg
    rw [if_pos hg] at hbs
    obtain ⟨hlen, hread⟩ := hbs
    have hl : latched .ch3 s = false := (guardLoads_ch3_iff.1 hg).1
    have hwave := sinkTraceOf_waveEvents (wavBase s + 16 * s.ch3.shape.toNat) (i := 0) (bs := bs)
      (by omega)
    have hpairs : (wavePairs 0 bs).length = 16 := by simp [wavePairs, hlen]
    rw [if_pos hg, hl, if_neg Bool.false_ne_true, if_neg Bool.false_ne_true, hwave, hlen]
    refine ⟨BitVec.toNat_setWidth_of_le (by decide), rfl, bs, hlen, hread, ?_, fun k hk => ?_⟩
    · rw [List.take_append_of_le_length (by omega), List.take_of_length_le (by omega)]
      rfl
    · exact residentSample_of_load (fun _ => writeEvents_lt) (by omega)
  · intro hg
    rw [if_neg hg] at hbs
    subst hbs
    refine ⟨if_neg hg, by split <;> rfl, fun w hw => ?_⟩
    split at hw
    · exact nomatch hw
    · exact writeEvents_lt hw

end Sys2Proof.Machine
end

section
/-! What a TICK reads, samples and writes, in the order of its record, and when it completes (20_memory.md R63,
R64, R69). -/

namespace Sys2Proof.Machine

/-! ### The record of a TICK -/

@[simp] theorem rowBoundary_blobLen (s : State) : blobLen (rowBoundary s) = blobLen s := by
  simp [blobLen]

/-- The header registers, which steps 1 and 2 of a TICK leave alone, give the regions (R62). -/
theorem CountFrame.blobLen_eq {s u : State} (h : CountFrame s u) : blobLen u = blobLen s := by
  unfold blobLen patBase wavBase insBase
  rw [h.ordlen, h.ninstr, h.nwave, h.npat]

/-- Steps 1 and 2 of a TICK add blob reads to the record and nothing else, all in bounds while a song plays
(R63, R138). -/
theorem countTick_bus {s u : State} (hu : countTick s = .next u) :
    ∃ offs : List Nat, u.bus = s.bus ++ offs.map .blobRead ∧
      (BlockInv s → s.run = true → ∀ off ∈ offs, InBlob s off) := by
  rcases countTick_iff.1 hu with ⟨-, rfl⟩ | ⟨-, hf⟩
  · exact ⟨[], (List.append_nil _).symm, fun _ _ _ ho => nomatch ho⟩
  · obtain ⟨e, b, x, -, -, -, rfl⟩ := fetchRow_iff.1 hf
    refine ⟨rowOffsets (clampPattern e (rowBoundary s)) b (rowBoundary s), ?_, fun h hrun off ho => ?_⟩
    · rw [withChs_bus, rowBoundary_bus, rowReads_eq_map]
    · have hplay := h.play hrun
      have hin : InBlob (rowBoundary s) off :=
        rowOffsets_inBlob (by simpa using rowBoundary_ord_lt hplay.ord_lt)
          (clampPattern_lt e (by simpa using hplay.npat_pos)) (by simpa using h.chan) ho
      simpa [InBlob] using hin

/-- The state after step 3 of a TICK (R133). -/
def State.afterStep3 (s : State) : State := s.withChs (fun c => effectStep c (s.ch c)) []

/-- The events of the four commits. -/
def passRecord (s : State) (bs : List Byte) : List BusEvent :=
  [Chan.ch1, .ch2, .ch3, .ch4].flatMap fun c => passEvents c s bs

theorem afterEffects_record (s : State) (bs : List Byte) :
    (s.afterEffects bs).bus = s.bus ++ passRecord s.afterStep3 bs := by
  simp [State.afterEffects, State.afterPass, State.afterStep3, passRecord]

/-- Everything a TICK of a playing song can do: steps 1 and 2, then the effects and the commits. -/
theorem tick_playing {s t : State} (hrun : s.run = true) (h : exec .tick s = .next t) :
    ∃ u bs, countTick s = .next u ∧ PassBytes u.afterStep3 bs ∧ t = u.afterEffects bs := by
  rcases execTick_iff.1 h with ⟨hstop, -⟩ | ⟨-, h⟩
  · exact absurd (hrun.symm.trans hstop) (by decide)
  · exact h

/-! ### Mute samples and host reads (R69) -/

@[simp] theorem sampleTraceOf_passEvents (c : Chan) (s : State) (bs : List Byte) :
    sampleTraceOf (passEvents c s bs) = [(c, sampledBit c s)] := by
  unfold passEvents
  split_ifs <;> simp [sampleTraceOf]

@[simp] theorem muteTraceOf_passEvents (c : Chan) (s : State) (bs : List Byte) :
    muteTraceOf (passEvents c s bs) =
      muteAnswers (s.mid.before c) (passMask c s) ++ [.muteSample c (sampledBit c s)] := by
  unfold passEvents
  split_ifs <;> simp [muteTraceOf]

/-- Settles O25: steps 1 to 3 sample nothing and leave `MUTE` and the accesses to come; each commit then
answers the reads before its sample and samples its bit. -/
theorem midTickMuteWrite : Obligations.MidTickMuteWrite := by
  intro s t hrun h
  obtain ⟨u, bs, hu, -, rfl⟩ := tick_playing hrun h
  have hmid : u.afterStep3.mid = s.mid := (countTick_frame hu).mid
  have hmute : u.afterStep3.mute = s.mute := (countTick_frame hu).mute
  obtain ⟨offs, hbus, -⟩ := countTick_bus hu
  refine ⟨_, _, _, _, rfl, rfl, rfl, rfl, ?_, rfl,
    offs.map .blobRead ++ passRecord u.afterStep3 bs, ?_, ?_, ?_⟩
  · change muteAfter u.afterStep3.mid.all u.afterStep3.mute = _
    simp [hmid, hmute, MidAccesses.all, muteAfter_append]
  · rw [afterEffects_record, hbus, List.append_assoc]
  · simp [passRecord, sampledBit, chanIndex, MidAccesses.upTo, muteAfter_append, hmid, hmute]
  · simp [passRecord, sampledBit, chanIndex, MidAccesses.upTo, muteAfter_append, passMask,
      MidAccesses.before, hmid, hmute]

/-! ### Reads in bounds (R63) -/

theorem passLoads_shape_lt {s : State} (h : passLoads s = true) :
    s.ch3.shape.toNat < s.nwave.toNat := by
  simp only [passLoads, waveNeeded, Bool.and_eq_true, decide_eq_true_eq] at h
  obtain ⟨-, ⟨-, hlt⟩, -⟩ := h
  exact hlt

theorem readTraceOf_passEvents (c : Chan) (s : State) (bs : List Byte) :
    readTraceOf (passEvents c s bs) =
      if passHold c s = false ∧ c = .ch3 then
        (List.range bs.length).map (wavBase s + 16 * s.ch3.shape.toNat + ·)
      else [] := by
  unfold passEvents
  cases passHold c s with
  | true => simp [readTraceOf]
  | false => by_cases hc : c = .ch3 <;> simp [hc, readTraceOf, List.range_eq_range']

/-- The commits read the waveform of a load, which the table has, and nothing else (R216, R217). -/
theorem passEvents_inBlob {c : Chan} {s : State} {bs : List Byte} {off : Nat} (h : PassBytes s bs)
    (ho : off ∈ readTraceOf (passEvents c s bs)) : InBlob s off := by
  rw [readTraceOf_passEvents] at ho
  unfold PassBytes at h
  split at ho
  · obtain ⟨j, hj, rfl⟩ := List.mem_map.1 ho
    rw [List.mem_range] at hj
    split at h
    · next hload => exact waveOffset_inBlob (passLoads_shape_lt hload) (h.1 ▸ hj)
    · subst h
      exact nomatch hj
  · exact nomatch ho

theorem passRecord_inBlob {s : State} {bs : List Byte} {off : Nat} (h : PassBytes s bs)
    (ho : off ∈ readTraceOf (passRecord s bs)) : InBlob s off := by
  obtain ⟨c, -, ho⟩ := List.mem_flatMap.1 (mem_readTraceOf.1 ho)
  exact passEvents_inBlob h (mem_readTraceOf.2 ho)

theorem tick_reads_inBlob {s t : State} (h : BlockInv s) (ht : exec .tick s = .next t) :
    ∃ es, t.bus = s.bus ++ es ∧ ∀ off ∈ readTraceOf es, InBlob s off := by
  rcases execTick_iff.1 ht with ⟨-, rfl⟩ | ⟨hrun, u, bs, hu, hbs, rfl⟩
  · exact ⟨[], (List.append_nil _).symm, fun _ ho => nomatch ho⟩
  · obtain ⟨offs, hbus, hoffs⟩ := countTick_bus hu
    refine ⟨offs.map .blobRead ++ passRecord u.afterStep3 bs, ?_, fun off ho => ?_⟩
    · rw [afterEffects_record, hbus, List.append_assoc]
    · rw [readTraceOf_append, readTraceOf_map_blobRead] at ho
      rcases List.mem_append.1 ho with ho | ho
      · exact hoffs h hrun off ho
      · have hlen : blobLen u.afterStep3 = blobLen s := (countTick_frame hu).blobLen_eq
        obtain ⟨hlo, hhi⟩ : InBlob u.afterStep3 off := passRecord_inBlob hbs ho
        exact ⟨hlo, hlen ▸ hhi⟩

/-- Settles O23: START's reads are the six of the header; a TICK's are those of the row fetch
(`rowOffsets_inBlob`) and of a waveform load (`passEvents_inBlob`). -/
theorem blobReadsInBounds : Obligations.BlobReadsInBounds := by
  refine ⟨fun ptr s t h => ?_, fun s t h ht => tick_reads_inBlob h ht, fun s t h => ?_⟩
  · obtain ⟨h0, h1, h2, h3, h4, h5, -, -, -, -, -, -, rfl⟩ := execStart_eq_next h
    exact ⟨headerReads, rfl, rfl⟩
  · rcases h with h | h
    · obtain rfl := Host.Outcome.next.inj h
      rfl
    · obtain rfl := Host.Outcome.next.inj h
      rfl

/-! ### A TICK over a readable blob completes (R64, R143) -/

theorem BlobReadable.read {s : State} {off : Nat} (h : BlobReadable s) (ho : InBlob s off) :
    ∃ b, Memory.read s.mem (s.base + off) = some b :=
  Option.isSome_iff_exists.1 (h off ho.1 ho.2)

/-- Whether the blob is readable depends on the memory, the pointer and the length of the blob. -/
theorem BlobReadable.congr {s s' : State} (h : BlobReadable s) (hmem : s'.mem = s.mem)
    (hbase : s'.base = s.base) (hlen : blobLen s' = blobLen s) : BlobReadable s' := by
  unfold BlobReadable
  rw [hmem, hbase, hlen]
  exact h

theorem cellReadable_of_blob {c : Chan} {s : State} (n : Byte) (i : BitVec 4) (hblob : BlobReadable s)
    (h : ChannelInv c s.ninstr (s.ch c)) : CellReadable c n i s := fun hl _ hk =>
  Option.isSome_iff_exists.2 (hblob.read (loadsDefaults_inBlob h hl hk))

theorem fetchRow_completes {s : State} (hblob : BlobReadable s) (hord : s.ord.toNat < s.ordlen.toNat)
    (hpat : 1 ≤ s.npat.toNat) (h : ∀ c, ChannelInv c s.ninstr (s.ch c)) : Completes (fetchRow s) := by
  obtain ⟨e, he⟩ := hblob.read (orderOffset_inBlob hord)
  have hcell : ∀ c, ∃ b, CellAt s (cellAddr s (clampPattern e s) s.row.toNat c) b := by
    intro c
    have hin : ∀ k, k < 3 → InBlob s (cellAddr s (clampPattern e s) s.row.toNat c + k) := fun k hk =>
      cellOffset_inBlob c (clampPattern_lt e hpat) s.row.isLt hk
    obtain ⟨b0, h0⟩ := hblob.read (hin 0 (by decide))
    obtain ⟨b1, h1⟩ := hblob.read (hin 1 (by decide))
    obtain ⟨b2, h2⟩ := hblob.read (hin 2 (by decide))
    exact ⟨(b0, b1, b2), h0, h1, h2⟩
  choose b hb using hcell
  have htrigger : ∀ c, ∃ x, triggerBytesCh c (b c) s = some x := fun c =>
    triggerCh_isSome_iff.2 (cellReadable_of_blob _ _ hblob (h c))
  choose x hx using htrigger
  exact ⟨_, fetchRow_iff.2 ⟨e, b, x, he, hb, hx, rfl⟩⟩

theorem countTick_completes {s : State} (h : BlockInv s) (hrun : s.run = true) (hblob : BlobReadable s) :
    Completes (countTick s) := by
  have hplay := h.play hrun
  by_cases hlast : s.tctr = 1#8
  · obtain ⟨u, hu⟩ := fetchRow_completes (s := rowBoundary s) (hblob.congr (by simp) (by simp) (by simp))
      (by simpa using rowBoundary_ord_lt hplay.ord_lt) (by simpa using hplay.npat_pos)
      (by simpa using h.chan)
    exact ⟨u, countTick_iff.2 (.inr ⟨hlast, hu⟩)⟩
  · exact ⟨_, countTick_iff.2 (.inl ⟨hlast, rfl⟩)⟩

/-- The bytes of a waveform load are there when the blob is readable. -/
theorem exists_passBytes {s : State} (hblob : BlobReadable s) : ∃ bs, PassBytes s bs := by
  unfold PassBytes
  by_cases hload : passLoads s = true
  · have hwave : ∀ j, j < 16 →
        (Memory.read s.mem (s.base + (wavBase s + 16 * s.ch3.shape.toNat + (0 + j)))).isSome := by
      intro j hj
      rw [Nat.zero_add]
      exact Option.isSome_iff_exists.2 (hblob.read (waveOffset_inBlob (passLoads_shape_lt hload) hj))
    obtain ⟨t, ht⟩ := loadWaveFrom_completes hwave
    obtain ⟨bs, hlen, hread, -⟩ := loadWaveFrom_eq_next ht
    refine ⟨bs, ?_⟩
    rw [if_pos hload]
    exact ⟨hlen, by simpa using hread⟩
  · exact ⟨[], by rw [if_neg hload]⟩

theorem tick_completes {s : State} (h : BlockInv s) (hblob : s.run = true → BlobReadable s) :
    Completes (exec .tick s) := by
  cases hrun : s.run with
  | false => exact ⟨s, execTick_iff.2 (.inl ⟨hrun, rfl⟩)⟩
  | true =>
    obtain ⟨u, hu⟩ := countTick_completes h hrun (hblob hrun)
    have hf := countTick_frame hu
    obtain ⟨bs, hbs⟩ := exists_passBytes (s := u.afterStep3)
      ((hblob hrun).congr hf.mem hf.base hf.blobLen_eq)
    exact ⟨_, execTick_iff.2 (.inr ⟨hrun, u, bs, hu, hbs, rfl⟩)⟩

/-! ### A step completes -/

theorem start_completes {ptr : Nat} {s : State} (h : HeaderReadable ptr s) :
    Completes (exec (.start ptr) s) := by
  obtain ⟨_, _, _, _, _, _, -, -, -, -, -, -, hexec⟩ := startState ptr s h
  exact ⟨_, hexec⟩

theorem command_completes {code : BitVec 2} {ptr : Nat} {s : State} (h : BlockInv s)
    (hblob : s.run = true → BlobReadable s) (hheader : code = 0b01#2 → HeaderReadable ptr s) :
    Completes (exec (decodeCommand code ptr) s) := by
  have hcodes : ∀ k : BitVec 2, k = 0b00#2 ∨ k = 0b01#2 ∨ k = 0b10#2 ∨ k = 0b11#2 := by decide
  rcases hcodes code with rfl | rfl | rfl | rfl
  · exact ⟨_, rfl⟩
  · exact start_completes (hheader rfl)
  · exact tick_completes h hblob
  · exact ⟨_, rfl⟩

/-- Settles O60, by the host's action that is first in line: a command completes over what the host keeps
readable (`command_completes`), a store happens where it changes no byte of the playing blob. -/
theorem stepCompletes : Obligations.StepCompletes := by
  intro s h hblob hheader hoverlap hstore
  cases hport : s.port with
  | nil => exact ⟨s, by unfold step; rw [hport]; rfl⟩
  | cons e rest =>
    rw [step_of_port hport]
    cases e with
    | command code ptr mid =>
      have hs : BlockInv { s with port := rest, mid := mid } :=
        h.toBlockInv.with_host mid s.mute s.bus fun e he =>
          h.port e (hport ▸ List.mem_cons_of_mem _ he)
      obtain ⟨u, hu⟩ := command_completes (code := code) (ptr := ptr) hs hblob
        fun hc => hheader ptr mid rest (hc ▸ hport)
      exact ⟨landAll u, andThen_eq_next.2 ⟨u, hu, rfl⟩⟩
    | access a => exact ⟨_, rfl⟩
    | store a b =>
      exact ⟨_, storeByte_of_unchanged (s := { s with port := rest }) (hstore a b rest hport)⟩
    | overlapped code ptr code2 ptr2 => exact absurd hport (hoverlap code ptr code2 ptr2 rest)

end Sys2Proof.Machine
end

section
/-! The TICK that triggers a note on a channel it samples unmuted (20_memory.md R69): what the row fetch leaves
on the channel, and which of the four commits write its sink registers. -/

namespace Sys2Proof.Machine

/-! ### The channel a sink register belongs to (R66) -/

theorem ownsSinkReg_sinkReg (c d : Chan) {k : Nat} (hk : k < 4) :
    ownsSinkReg c (sinkReg d k) = decide (c = d) := by
  have hall : ∀ j < 4, ownsSinkReg c (sinkReg d j) = decide (c = d) := by
    cases c <;> cases d <;> decide
  exact hall k hk

/-- The waveform memory belongs to CH3. -/
theorem ownsSinkReg_of_ge {c : Chan} {n : Nat} (hc : c ≠ .ch3) (hn : 32 ≤ n) :
    ownsSinkReg c n = false := by
  have hi := chanIndex_le c
  simp only [ownsSinkReg, hc, decide_false, Bool.false_and, Bool.or_false, Bool.and_eq_false_iff,
    decide_eq_false_iff_not]
  exact .inr (by omega)

@[simp] theorem writesOf_nil (c : Chan) : writesOf c [] = [] := rfl

theorem writesOf_append (c : Chan) (l k : List (Nat × BitVec 11)) :
    writesOf c (l ++ k) = writesOf c l ++ writesOf c k := List.filter_append ..

theorem writesOf_writeEvents (c : Chan) (x : Channel) :
    writesOf c (sinkTraceOf (writeEvents c x)) = sinkTraceOf (writeEvents c x) := by
  refine List.filter_eq_self.2 fun w hw => ?_
  obtain ⟨k, hk, hw⟩ := mem_writeEvents hw
  rw [hw, ownsSinkReg_sinkReg c c hk]
  exact decide_eq_true rfl

/-! ### The writes of one commit -/

theorem sinkTraceOf_passEvents (c : Chan) (s : State) (bs : List Byte) :
    sinkTraceOf (passEvents c s bs) =
      if passHold c s then []
      else (if c = .ch3 then sinkTraceOf (waveEvents (wavBase s + 16 * s.ch3.shape.toNat) 0 bs) else []) ++
        sinkTraceOf (writeEvents c (s.ch c)) := by
  unfold passEvents
  split_ifs <;> simp [sinkTraceOf]

/-- A commit writes registers of its own channel only. -/
theorem writesOf_passEvents_ne {c d : Chan} (h : c ≠ d) (s : State) (bs : List Byte) :
    writesOf c (sinkTraceOf (passEvents d s bs)) = [] := by
  refine List.filter_eq_nil_iff.2 fun w hw => ?_
  rw [Bool.not_eq_true]
  rw [sinkTraceOf_passEvents] at hw
  split at hw
  · exact nomatch hw
  · rcases List.mem_append.1 hw with hw | hw
    · split at hw
      · next hd => exact ownsSinkReg_of_ge (hd ▸ h) (waveEvents_ge hw)
      · exact nomatch hw
    · obtain ⟨k, hk, hw⟩ := mem_writeEvents hw
      rw [hw, ownsSinkReg_sinkReg c d hk]
      exact decide_eq_false h

/-- The writes of a channel in a TICK are those of its own commit. -/
theorem writesOf_passRecord (c : Chan) (s : State) (bs : List Byte) :
    writesOf c (sinkTraceOf (passRecord s bs)) = writesOf c (sinkTraceOf (passEvents c s bs)) := by
  simp only [passRecord, List.flatMap_cons, List.flatMap_nil, sinkTraceOf_append, writesOf_append]
  cases c <;> simp [writesOf_passEvents_ne, sinkTraceOf]

/-- The waveform memory aside, a commit of a channel that is not held writes the channel's write set. -/
theorem filter_writesOf_passRecord {c : Chan} {s : State} (bs : List Byte)
    (h : passHold c s = false) :
    (writesOf c (sinkTraceOf (passRecord s bs))).filter (fun w => decide (w.1 < 32)) =
      sinkTraceOf (writeEvents c (s.ch c)) := by
  have hwave : (writesOf c (if c = .ch3 then
      sinkTraceOf (waveEvents (wavBase s + 16 * s.ch3.shape.toNat) 0 bs) else [])).filter
        (fun w => decide (w.1 < 32)) = [] := by
    split
    · rw [writesOf, List.filter_comm, filter_waveEvents_lt, List.filter_nil]
    · rfl
  rw [writesOf_passRecord, sinkTraceOf_passEvents, if_neg (by simp [h]), writesOf_append,
    writesOf_writeEvents, List.filter_append, hwave, filter_writeEvents_lt, List.nil_append]

/-! ### The note a row fetch triggers -/

theorem noted_of_note {c : Chan} {n : Byte} {i : BitVec 4} {ninstr : Byte} {x : Channel}
    (h : hasNote n = true) :
    (noted c n i ninstr x).note = n.setWidth 7 ∧ (noted c n i ninstr x).onset = true := by
  unfold noted
  rw [if_pos h]
  exact ⟨rfl, rfl⟩

theorem triggered_of_note {c : Chan} {n : Byte} {i f : BitVec 4} {p ninstr : Byte}
    {d : Option (Byte × Byte)} {x : Channel} (h : hasNote n = true) :
    (triggered c n i f p ninstr d x).note = n.setWidth 7 ∧
      (triggered c n i f p ninstr d x).onset = true := by
  unfold triggered
  rw [fxLoad_note, fxLoad_onset]
  cases d <;> exact noted_of_note h

/-- A cell with a valid note sets the channel's note and its onset (R165). -/
theorem triggerCh_of_note {c : Chan} {n : Byte} {i f : BitVec 4} {p : Byte} {s : State} {x : Channel}
    (h : hasNote n = true) (hx : triggerCh c n i f p s = some x) :
    x.note = n.setWidth 7 ∧ x.onset = true := by
  have he : emptyCell n i f s.ninstr = false := by simp [emptyCell, h]
  unfold triggerCh at hx
  rw [he] at hx
  split at hx
  · split at hx
    · obtain rfl := Option.some.inj hx
      exact triggered_of_note h
    · exact nomatch hx
  · obtain rfl := Option.some.inj hx
    exact triggered_of_note h

/-- The cell a row-boundary TICK fetches for a channel has the note byte `nextNoteByte`. -/
theorem fetchRow_of_note {c : Chan} {n : Byte} {s u : State} (hnext : nextNoteByte c s = some n)
    (hn : hasNote n = true) (hu : fetchRow (rowBoundary s) = .next u) :
    (u.ch c).note = n.setWidth 7 ∧ (u.ch c).onset = true := by
  obtain ⟨e, b, x, he, hb, hx, rfl⟩ := fetchRow_iff.1 hu
  have hclamp : clampPattern e (rowBoundary s) = clampPattern e s := by simp [clampPattern]
  have haddr : ∀ p r, cellAddr (rowBoundary s) p r c = cellAddr s p r c := by simp [cellAddr]
  obtain ⟨hb0, -, -⟩ := hb c
  rw [hclamp, haddr, rowBoundary_mem, rowBoundary_base] at hb0
  rw [rowBoundary_mem, rowBoundary_base] at he
  unfold nextNoteByte at hnext
  rw [he] at hnext
  obtain rfl : (b c).1 = n := Option.some.inj (hb0.symm.trans hnext)
  rw [withChs_ch]
  exact triggerCh_of_note hn (hx c)

/-! ### The TICK that triggers the note -/

theorem ch_afterPass (s : State) (c : Chan) (bs : List Byte) : (s.afterPass bs).ch c = passCh c s := by
  cases c <;> rfl

/-- The mute bit a channel samples depends on `MUTE` and the accesses before the sample alone. -/
theorem sampledBit_congr {s s' : State} (hmid : s'.mid = s.mid) (hmute : s'.mute = s.mute) (c : Chan) :
    sampledBit c s' = sampledBit c s := by
  unfold sampledBit
  rw [hmid, hmute]

/-- A channel with an onset whose mute bit is sampled 0 is not held (R211). -/
theorem passHold_of_onset {c : Chan} {s : State} (hbit : sampledBit c s = false)
    (honset : (s.ch c).onset = true) : passHold c s = false := by
  simp [passHold, holdAfter, hbit, honset]

/-- Settles O31: the row fetch sets the note and the onset (`fetchRow_of_note`), so the latch is cleared
(`passHold_of_onset`) and the channel's own commit writes the whole set (`filter_writesOf_passRecord`). -/
theorem unmuteResumesAtNote : Obligations.UnmuteResumesAtNote := by
  intro s c b h hrun hblob hlast hnext hb hbit
  obtain ⟨t, ht⟩ := tick_completes h fun _ => hblob
  obtain ⟨u, bs, hu, -, rfl⟩ := tick_playing hrun ht
  have hf := countTick_frame hu
  have hfetch : fetchRow (rowBoundary s) = .next u := by
    rcases countTick_iff.1 hu with ⟨hne, -⟩ | ⟨-, hfetch⟩
    · exact absurd hlast hne
    · exact hfetch
  obtain ⟨hnote, honset⟩ := fetchRow_of_note hnext (decide_eq_true hb) hfetch
  have hch : u.afterStep3.ch c = effectStep c (u.ch c) := withChs_ch ..
  have hset : (u.afterStep3.ch c).onset = true := by rw [hch, effectStep_onset, honset]
  have hhold : passHold c u.afterStep3 = false :=
    passHold_of_onset ((sampledBit_congr hf.mid hf.mute c).trans hbit) hset
  have hinv : ChannelInv c s.ninstr (u.afterStep3.ch c) := by
    rw [hch]
    exact effectStep_channelInv (countTick_channelInv hu h.chan c)
  obtain ⟨offs, hbus, -⟩ := countTick_bus hu
  have hafter : (u.afterEffects bs).ch c = passCh c u.afterStep3 := ch_afterPass ..
  refine ⟨_, offs.map .blobRead ++ passRecord u.afterStep3 bs, ht, ?_, ?_, ?_, ?_⟩
  · rw [afterEffects_record, hbus, List.append_assoc]
  · rw [hafter]
    exact hhold
  · rw [hafter]
    change (u.afterStep3.ch c).note.toNat = b.toNat
    rw [hch, effectStep_note, hnote, BitVec.toNat_setWidth, Nat.mod_eq_of_lt (by omega)]
  · rw [sinkTraceOf_append, sinkTraceOf_map_blobRead, List.nil_append,
      filter_writesOf_passRecord bs hhold, sinkTraceOf_writeEvents hinv, hafter]
    simp [writePairs, passCh, hset]

end Sys2Proof.Machine
end

section
/-! Proofs of the statements about the encodings (30_encoding.md R98, R103, R105, R107). The decoder and the
encoder meet in `cellOfFields`, the cell of an effect code, so no proof names the sixteen codes. -/

namespace Sys2Proof

open Laws.OpcodeBits

/-! ### A cell and its words -/

section cells

variable (c : Chan) (n : Byte) (i f : BitVec 4) (p : Byte)

theorem encode_cellOfFields : encode (cellOfFields c n i f p) = cellWords n i f p := by
  obtain ⟨k⟩ := f
  fin_cases k <;> rfl

theorem column_cellOfFields : (cellOfFields c n i f p).column = some c := by
  obtain ⟨k⟩ := f
  fin_cases k <;> rfl

theorem decodeCell_cons (b0 b1 b2 : Byte) (rest : List Byte) :
    decodeCell c (b0 :: b1 :: b2 :: rest) = .ok (cellOfBytes c b0 b1 b2, rest) := rfl

/-- The decoder undoes the packing of `I` and `F` into `B1` (R98). -/
theorem cellOfBytes_byteOfNibbles :
    cellOfBytes c n (byteOfNibbles i f) p = cellOfFields c n i f p := by
  rw [cellOfBytes, hiNibble_byteOfNibbles, loNibble_byteOfNibbles]

end cells

theorem byteOfNibbles_hiNibble_loNibble (b : Byte) : byteOfNibbles (hiNibble b) (loNibble b) = b := by
  revert b
  decide

theorem encode_cellOfBytes (c : Chan) (b0 b1 b2 : Byte) :
    encode (cellOfBytes c b0 b1 b2) = .cell b0 b1 b2 := by
  rw [cellOfBytes, encode_cellOfFields, cellWords, byteOfNibbles_hiNibble_loNibble]

/-- Settles O1: a cell decodes from the fields its words hold (`cellOfBytes_byteOfNibbles`); each of the four
commands has its own code. -/
theorem decodeAfterEncode : Obligations.DecodeAfterEncode := by
  intro i rest
  rcases Machine.instr_cases i with ⟨c, n, j, f, p, rfl⟩ | rfl | ⟨ptr, rfl⟩ | rfl | rfl
  · rw [encode_cellOfFields, column_cellOfFields]
    change decodeCell c (n :: byteOfNibbles j f :: p :: rest) = _
    rw [decodeCell_cons, cellOfBytes_byteOfNibbles]
  all_goals rfl

/-! ### Words and their instruction -/

theorem decodeCell_of_short (c : Chan) {l : List Byte} (h : l.length < 3) :
    decodeCell c l = .error .truncatedCell := by
  match l, h with
  | [], _ | [_], _ | [_, _], _ => rfl

/-- The encoder gives back the code; the pointer is START's alone (R107). -/
theorem encode_decodeCommand {code : BitVec 2} {ptr : Nat} (h : code ≠ 0b01#2 → ptr = 0) :
    encode (decodeCommand code ptr) = .command code ptr := by
  by_cases hstart : code = 0b01#2
  · rw [hstart]
    rfl
  · rw [h hstart]
    clear h
    revert code
    decide

/-- Settles O2: the bytes of a cell (`encode_cellOfBytes`), the codes of a command (`encode_decodeCommand`) and
what the two decoders reject. -/
theorem encodeAfterDecode : Obligations.EncodeAfterDecode := by
  refine ⟨fun c b0 b1 b2 rest => ⟨_, decodeCell_cons .., encode_cellOfBytes .., column_cellOfFields ..⟩,
    fun c l => decodeCell_of_short c, fun code ptr => encode_decodeCommand, fun b ptr => ⟨?_, ?_⟩⟩
  · intro h
    exact if_neg (by omega)
  · intro h
    rw [decodeCommandByte, if_pos h, BitVec.ofNat_toNat]

/-! ### The 24-bit word of a cell -/

theorem toNat_word (b0 b1 b2 : Byte) :
    (b0 ++ b1 ++ b2).toNat = 65536 * b0.toNat + 256 * b1.toNat + b2.toNat := by
  have h1 := b1.isLt
  have h2 := b2.isLt
  rw [BitVec.toNat_append, BitVec.toNat_append, ← Nat.shiftLeft_add_eq_or_of_lt h2,
    ← Nat.shiftLeft_add_eq_or_of_lt h1, Nat.shiftLeft_eq, Nat.shiftLeft_eq]
  omega

/-- A field of `m` bits from bit `k` on, as a number. -/
theorem toNat_extractLsb'_eq {w : Nat} (v : BitVec w) (k m : Nat) :
    (v.extractLsb' k m).toNat = v.toNat / 2 ^ k % 2 ^ m := by
  rw [BitVec.extractLsb'_toNat, Nat.shiftRight_eq_div_pow]

theorem toNat_hiNibble (b : Byte) : (hiNibble b).toNat = b.toNat / 16 := by
  have h := b.isLt
  rw [hiNibble, toNat_extractLsb'_eq]
  omega

theorem toNat_loNibble (b : Byte) : (loNibble b).toNat = b.toNat % 16 := by
  rw [loNibble, toNat_extractLsb'_eq, Nat.pow_zero, Nat.div_one]
  rfl

/-- `N`, `I`, `F`, `P` are the bits of the word that R98 names. -/
theorem cellOfBytes_eq_wordFields (c : Chan) (b0 b1 b2 : Byte) :
    cellOfBytes c b0 b1 b2 =
      cellOfFields c ((b0 ++ b1 ++ b2).extractLsb' 16 8) ((b0 ++ b1 ++ b2).extractLsb' 12 4)
        ((b0 ++ b1 ++ b2).extractLsb' 8 4) ((b0 ++ b1 ++ b2).extractLsb' 0 8) := by
  have h0 := b0.isLt
  have h1 := b1.isLt
  have h2 := b2.isLt
  have field {k m : Nat} {x : BitVec m}
      (h : (65536 * b0.toNat + 256 * b1.toNat + b2.toNat) / 2 ^ k % 2 ^ m = x.toNat) :
      (b0 ++ b1 ++ b2).extractLsb' k m = x :=
    BitVec.eq_of_toNat_eq (by rw [toNat_extractLsb'_eq, toNat_word, h])
  have hn : (b0 ++ b1 ++ b2).extractLsb' 16 8 = b0 := field (by omega)
  have hi : (b0 ++ b1 ++ b2).extractLsb' 12 4 = hiNibble b1 :=
    field (by rw [toNat_hiNibble]; omega)
  have hf : (b0 ++ b1 ++ b2).extractLsb' 8 4 = loNibble b1 := field (by rw [toNat_loNibble]; omega)
  have hp : (b0 ++ b1 ++ b2).extractLsb' 0 8 = b2 := field (by omega)
  rw [hn, hi, hf, hp, cellOfBytes]

/-- The opcode table's word of a cell is cut into the cell's three bytes (log entry 16). -/
theorem decodeTableWord_word (b0 b1 b2 : Byte) :
    decodeTableWord 24 (b0 ++ b1 ++ b2).toNat = some (cellOfBytes .ch1 b0 b1 b2) := by
  have h0 := b0.isLt
  have h1 := b1.isLt
  have h2 := b2.isLt
  have byte {k : Nat} {b : Byte} (h : k % 2 ^ 8 = b.toNat) : BitVec.ofNat 8 k = b :=
    BitVec.eq_of_toNat_eq (by rw [BitVec.toNat_ofNat, h])
  have e0 : BitVec.ofNat 8 ((b0 ++ b1 ++ b2).toNat / 2 ^ 16) = b0 :=
    byte (by rw [toNat_word]; omega)
  have e1 : BitVec.ofNat 8 ((b0 ++ b1 ++ b2).toNat / 2 ^ 8) = b1 :=
    byte (by rw [toNat_word]; omega)
  have e2 : BitVec.ofNat 8 (b0 ++ b1 ++ b2).toNat = b2 := byte (by rw [toNat_word]; omega)
  rw [decodeTableWord, if_pos rfl, if_pos (b0 ++ b1 ++ b2).isLt, e0, e1, e2]
  rfl

/-- Settles O3: the fields of the word, and the word of the opcode table. -/
theorem cellFieldBits : Obligations.CellFieldBits := fun c b0 b1 b2 rest =>
  ⟨by rw [decodeCell_cons, cellOfBytes_eq_wordFields],
    decodeTableWord_word b0 b1 b2⟩

/-- Settles O4: the decoders evaluated on the words the spec writes out. -/
theorem specWordsDecode : Obligations.SpecWordsDecode :=
  ⟨rfl, rfl, rfl, rfl, rfl, rfl, rfl, rfl⟩

end Sys2Proof
end

section
/-! Proof of the statement about the text form of a cell (30_encoding.md R109, R111). Each field reads back from
its own text, and the fields come apart at the spaces, which none of them holds. -/

namespace Sys2Proof.Machine

/-! ### Words between spaces -/

theorem splitAtChar_of_notMem {sep : Char} {w : List Char} (h : sep ∉ w) : splitAtChar sep w = [w] := by
  induction w with
  | nil => rfl
  | cons a w ih =>
    obtain ⟨ha, hw⟩ := not_or.1 (mt List.mem_cons.2 h)
    rw [splitAtChar, if_neg (Ne.symm ha), ih hw]

theorem splitAtChar_append {sep : Char} {w : List Char} (h : sep ∉ w) (t : List Char) :
    splitAtChar sep (w ++ sep :: t) = w :: splitAtChar sep t := by
  induction w with
  | nil => rw [List.nil_append, splitAtChar, if_pos rfl]
  | cons a w ih =>
    obtain ⟨ha, hw⟩ := not_or.1 (mt List.mem_cons.2 h)
    rw [List.cons_append, splitAtChar, if_neg (Ne.symm ha), ih hw]

/-- A field of a text: characters, at least one and no space. -/
def IsField (w : List Char) : Prop := ' ' ∉ w ∧ w ≠ []

theorem wordsOf_three {a b d : List Char} (ha : IsField a) (hb : IsField b) (hd : IsField d) :
    wordsOf (a ++ ' ' :: (b ++ ' ' :: d)) = [a, b, d] := by
  rw [wordsOf, splitAtChar_append ha.1, splitAtChar_append hb.1, splitAtChar_of_notMem hd.1]
  simp [ha.2, hb.2, hd.2]

/-! ### Hex digits -/

theorem hexVal_hexChar : ∀ v, v < 16 → hexVal (hexChar v) = some v := by decide

theorem hexChar_ne : ∀ v, v < 16 → hexChar v ≠ ' ' ∧ hexChar v ≠ '.' := by decide

section fields

variable (i f : BitVec 4) (p : Byte)

/-- The text of the instrument field (R109). -/
def insText : List Char := [if i = 0#4 then '.' else hexChar i.toNat]

/-- The text of the effect field (R109). -/
def fxText : List Char :=
  if f = 0#4 ∧ p = 0#8 then ['.', '.', '.']
  else [hexChar f.toNat, hexChar (hiNibble p).toNat, hexChar (loNibble p).toNat]

theorem isField_insText : IsField (insText i) := by
  have := (hexChar_ne i.toNat i.isLt).1
  unfold insText
  split_ifs <;> simp [IsField, this.symm]

theorem isField_fxText : IsField (fxText f p) := by
  have h1 := (hexChar_ne f.toNat f.isLt).1
  have h2 := (hexChar_ne _ (hiNibble p).isLt).1
  have h3 := (hexChar_ne _ (loNibble p).isLt).1
  unfold fxText
  split_ifs <;> simp [IsField, h1.symm, h2.symm, h3.symm]

theorem readIns_insText : readIns (insText i) = some i := by
  revert i
  decide

theorem readHexByte_hexChars :
    readHexByte [hexChar (hiNibble p).toNat, hexChar (loNibble p).toNat] = some p := by
  have h := p.isLt
  rw [readHexByte, hexVal_hexChar _ (hiNibble p).isLt, hexVal_hexChar _ (loNibble p).isLt]
  refine congrArg some (BitVec.eq_of_toNat_eq ?_)
  rw [BitVec.toNat_ofNat, toNat_hiNibble, toNat_loNibble]
  omega

/-- An effect field that does not begin with a dot is a code and a parameter. -/
theorem readFx_of_ne {d : Char} (h : d ≠ '.') (w : List Char) :
    readFx (d :: w) = match hexVal d, readHexByte w with
      | some v, some b => some (BitVec.ofNat 4 v, b)
      | _, _ => none := by
  unfold readFx
  split
  · next heq => exact absurd (List.cons.inj heq).1 h
  · next heq =>
    obtain ⟨rfl, rfl⟩ := List.cons.inj heq
    rfl
  · next heq => exact nomatch heq

theorem readFx_fxText : readFx (fxText f p) = some (f, p) := by
  unfold fxText
  split_ifs with h
  · obtain ⟨rfl, rfl⟩ := h
    rfl
  · rw [readFx_of_ne (hexChar_ne _ f.isLt).2, hexVal_hexChar _ f.isLt, readHexByte_hexChars]
    simp

end fields

/-! ### Notes -/

/-- The name of every note holds no space and reads back as the note (R111). -/
theorem noteName_spec : ∀ k, k < 72 →
    ' ' ∉ noteName k ∧ readNote (noteName k) = some (BitVec.ofNat 8 k) := by decide

theorem cellText_eq (n : Byte) (i f : BitVec 4) (p : Byte) :
    cellText n i f p =
      if n = 0xFF#8 then some (['.', '.', '.'] ++ ' ' :: (insText i ++ ' ' :: fxText f p))
      else if hasNote n then some (noteName n.toNat ++ ' ' :: (insText i ++ ' ' :: fxText f p))
      else none := rfl

/-- A cell that has a text is written in three fields, of which the first reads back as its note byte. -/
theorem cellText_eq_some {n : Byte} {i f : BitVec 4} {p : Byte} {txt : List Char}
    (h : cellText n i f p = some txt) : ∃ w, IsField w ∧ readNote w = some n ∧
      txt = w ++ ' ' :: (insText i ++ ' ' :: fxText f p) := by
  rw [cellText_eq] at h
  split_ifs at h with hoff hnote
  · obtain rfl := Option.some.inj h
    subst hoff
    exact ⟨['.', '.', '.'], ⟨by decide, by decide⟩, rfl, rfl⟩
  · obtain rfl := Option.some.inj h
    obtain ⟨hspace, hread⟩ := noteName_spec n.toNat (Nat.lt_succ_of_le (of_decide_eq_true hnote))
    rw [BitVec.ofNat_toNat, BitVec.setWidth_eq] at hread
    exact ⟨noteName n.toNat, ⟨hspace, List.cons_ne_nil _ _⟩, hread, rfl⟩

/-- Settles O5: the text comes apart into the fields of note, instrument and effect, each of which reads back. -/
theorem textFormRoundTrip : Obligations.TextFormRoundTrip := by
  intro c n i f p txt h
  obtain ⟨w, hw, hread, rfl⟩ := cellText_eq_some h
  rw [readCell, wordsOf_three hw (isField_insText i) (isField_fxText f p)]
  simp [hread, readIns_insText, readFx_fxText]

end Sys2Proof.Machine
end

section
/-! Proofs of the statements about the fields of a cell (30_encoding.md R99 to R105, 41_row_trigger.md): the note
table, fields out of range, and what a cell of the codes `NON` and `RS8` to `RSF` leaves. The channel after a
trigger is `afterNote` with the effect loaded, for every code at once (`triggerCh_of_readable`). -/

namespace Sys2Proof.Machine

/-! ### The note table (R104) -/

theorem noteMap_ch1_lt : ∀ n, n < 71 → (noteMap .ch1 n).toNat < (noteMap .ch1 (n + 1)).toNat := by
  decide

/-- Settles O7: the ranges are `noteMap_le`; the rise is that of the table's 72 entries. -/
theorem noteMapRanges : Obligations.NoteMapRanges :=
  ⟨fun c _ hn => noteMap_le c hn, fun _ hn => ⟨rfl, rfl, toNat_ofNat11 (by omega)⟩, noteMap_ch1_lt,
    rfl, rfl, rfl⟩

/-! ### Fields out of range (R164, R170, R237) -/

theorem hasNote_iff {n : Byte} : hasNote n = true ↔ n.toNat ≤ 71 := decide_eq_true_iff

theorem hasIns_iff {i : BitVec 4} {ninstr : Byte} :
    hasIns i ninstr = true ↔ 1 ≤ i.toNat ∧ i.toNat ≤ ninstr.toNat := by
  simp [hasIns, Nat.one_le_iff_ne_zero]

/-- A trigger looks at a note byte only where it is a note. -/
theorem trigger_of_noNote {n m : Byte} (hn : hasNote n = false) (hm : hasNote m = false) (c : Chan)
    (i f : BitVec 4) (p : Byte) (s : State) : trigger c n i f p s = trigger c m i f p s := by
  simp [trigger, emptyCell, hn, hm]

/-- A trigger looks at an instrument field only where the table has the instrument. -/
theorem trigger_of_noIns {i j : BitVec 4} {s : State} (hi : hasIns i s.ninstr = false)
    (hj : hasIns j s.ninstr = false) (c : Chan) (n : Byte) (f : BitVec 4) (p : Byte) :
    trigger c n i f p s = trigger c n j f p s := by
  simp [trigger, emptyCell, hi, hj]

/-- Settles O44: a cell is its trigger and its channel's effect step, and the trigger does not look at a field
out of range. -/
theorem outOfRangeFieldsIgnored : Obligations.OutOfRangeFieldsIgnored := by
  intro c n i f p s
  rw [exec_cellOfFields, exec_cellOfFields, exec_cellOfFields]
  constructor
  · intro h
    have hn : hasNote n = false := Bool.eq_false_iff.2 fun hn => by have := hasNote_iff.1 hn; omega
    rw [trigger_of_noNote (m := 0xFF#8) hn rfl]
  · intro h
    have hi : hasIns i s.ninstr = false :=
      Bool.eq_false_iff.2 fun hi => by have := hasIns_iff.1 hi; omega
    rw [trigger_of_noIns (j := 0#4) hi rfl]

/-! ### The channel after a trigger -/

/-- The loaded instrument bytes of a cell, if it loads any. -/
def defaultsLoaded (c : Chan) (n : Byte) (i : BitVec 4) (s : State) : Option (Byte × Byte) :=
  if loadsDefaults c n i s then some (defaultsByte c i s 0, defaultsByte c i s 1) else none

theorem noted_eq (c : Chan) (n : Byte) (i : BitVec 4) (s : State) :
    noted c n i s.ninstr (s.ch c) = { s.ch c with
      ins := insAfter c i s
      note := if hasNote n then n.setWidth 7 else (s.ch c).note
      pitch := if hasNote n then noteMap c n.toNat else (s.ch c).pitch
      onset := if hasNote n then true else (s.ch c).onset } := by
  unfold noted insAfter
  split_ifs <;> rfl

/-- `InsLoad`, `NoteOn` and `LoadDefaults` one after the other leave `afterNote` (R163 to R167). -/
theorem triggered_defaultsLoaded (c : Chan) (n : Byte) (i f : BitVec 4) (p : Byte) (s : State) :
    triggered c n i f p s.ninstr (defaultsLoaded c n i s) (s.ch c) =
      fxLoad f p (afterNote c n i s) := by
  unfold triggered defaultsLoaded
  refine congrArg (fxLoad f p) ?_
  rw [noted_eq]
  cases hl : loadsDefaults c n i s with
  | false => simp [afterNote, hl]
  | true => simp [afterNote, hl, defaultsFrom]

theorem triggerCh_of_readable {c : Chan} {n : Byte} {i : BitVec 4} {s : State}
    (h : CellReadable c n i s) (f : BitVec 4) (p : Byte) (he : emptyCell n i f s.ninstr = false) :
    triggerCh c n i f p s = some (fxLoad f p (afterNote c n i s)) := by
  rw [← triggered_defaultsLoaded]
  unfold triggerCh defaultsLoaded
  cases hl : loadsDefaults c n i s with
  | false => simp [he]
  | true =>
    obtain ⟨b0, h0⟩ := Option.isSome_iff_exists.1 (h hl 0 (by decide))
    obtain ⟨b1, h1⟩ := Option.isSome_iff_exists.1 (h hl 1 (by decide))
    simp [defaultsRead, defaultsByte, h0, h1]

/-- A non-empty cell whose instrument is readable completes: the trigger, then the effect step. -/
theorem exec_cell_of_readable {c : Chan} {n : Byte} {i : BitVec 4} {s : State}
    (h : CellReadable c n i s) (f : BitVec 4) (p : Byte) (he : emptyCell n i f s.ninstr = false) :
    exec (cellOfFields c n i f p) s =
      .next (afterCell c n i s (effectStep c (fxLoad f p (afterNote c n i s)))) :=
  exec_cell_iff.2 ⟨_, triggerCh_of_readable h f p he, rfl⟩

/-! ### The codes that output the pitch -/

/-- The codes `NON` and `RS8` to `RSF`, whose arm outputs the pitch (R185, R194). -/
abbrev OutputsPitch (f : BitVec 4) : Prop := f = 0#4 ∨ 8 ≤ f.toNat

theorem OutputsPitch.effectArm_eq {f : BitVec 4} (h : OutputsPitch f) :
    effectArm f = fun _ x => outPitch x := by
  rcases effectArm_cases f with ⟨-, rfl⟩ | ⟨-, rfl⟩ | ⟨-, rfl⟩ | ⟨-, rfl⟩ | ⟨-, rfl⟩ | ⟨ha, -⟩
  iterate 5 exact absurd h (by decide)
  exact ha

theorem OutputsPitch.fxLoad_eq {f : BitVec 4} (h : OutputsPitch f) (c : Chan) (n : Byte)
    (i : BitVec 4) (p : Byte) (s : State) :
    fxLoad f p (afterNote c n i s) = afterLoad c n i f p s := by
  obtain ⟨h5, h6⟩ : f ≠ 5#4 ∧ f ≠ 6#4 := by
    constructor <;> rintro rfl <;> exact absurd h (by decide)
  rw [fxLoad, if_neg h5, if_neg h6]
  rfl

/-- The effect step after such a cell runs the envelope and outputs the pitch after the note. -/
theorem OutputsPitch.effectStep_eq {f : BitVec 4} (h : OutputsPitch f) (c : Chan) (n : Byte)
    (i : BitVec 4) (p : Byte) (s : State) :
    effectStep c (afterLoad c n i f p s) =
      { envelopeStep (afterLoad c n i f p s) with fout := (afterNote c n i s).pitch } := by
  have hfx : (afterLoad c n i f p s).fx = f := rfl
  rw [effectStep, hfx, h.effectArm_eq]
  simp [outPitch, afterLoad]

theorem OutputsPitch.exec_eq {f : BitVec 4} (hf : OutputsPitch f) {c : Chan} {n : Byte}
    {i : BitVec 4} {s : State} (h : CellReadable c n i s) (p : Byte)
    (he : emptyCell n i f s.ninstr = false) :
    exec (cellOfFields c n i f p) s = .next (afterCell c n i s
      { envelopeStep (afterLoad c n i f p s) with fout := (afterNote c n i s).pitch }) := by
  rw [exec_cell_of_readable h f p he, hf.fxLoad_eq, hf.effectStep_eq]

/-! ### NON -/

theorem exec_non_of_empty {c : Chan} {n : Byte} {i : BitVec 4} {s : State} (p : Byte)
    (hn : hasNote n = false) (hi : hasIns i s.ninstr = false) :
    exec (.non c n i p) s = .next (s.setCh c (effectStep c (s.ch c))) := by
  change exec (cellOfFields c n i 0#4 p) s = _
  rw [exec_cellOfFields, trigger_empty c p (by simp [emptyCell, hn, hi])]
  rfl

theorem exec_non_of_nonempty {c : Chan} {n : Byte} {i : BitVec 4} {s : State}
    (h : CellReadable c n i s) (p : Byte) (hne : hasNote n = true ∨ hasIns i s.ninstr = true) :
    exec (.non c n i p) s = .next (afterCell c n i s
      { envelopeStep (afterLoad c n i 0#4 p s) with fout := (afterNote c n i s).pitch }) :=
  OutputsPitch.exec_eq (.inl rfl) h p (by rcases hne with h | h <;> simp [emptyCell, h])

/-! ### The instrument fields as numbers (R94) -/

theorem toNat_instrVol (b : Byte) : (instrVol b).toNat = b.toNat / 16 := toNat_hiNibble b

theorem instrDir_eq (b : Byte) : instrDir b = decide (b.toNat / 8 % 2 = 1) := by
  rw [instrDir, ← BitVec.testBit_toNat, Nat.testBit_eq_decide_div_mod_eq]

theorem toNat_instrPer (b : Byte) : (instrPer b).toNat = b.toNat % 8 := by
  rw [instrPer, BitVec.toNat_setWidth, toNat_extractLsb'_eq]
  omega

theorem toNat_instrShape (c : Chan) (b : Byte) : (instrShape c b).toNat = match c with
    | .ch1 | .ch2 => b.toNat / 64
    | .ch3 => b.toNat % 16
    | .ch4 => b.toNat / 32 % 2 := by
  have h := b.isLt
  have hduty : (instrDuty b).toNat = b.toNat / 64 := by
    rw [instrDuty, BitVec.toNat_setWidth, toNat_extractLsb'_eq]
    omega
  have hmode : (instrNoiseMode b).toNat = b.toNat / 32 % 2 := by
    rw [instrNoiseMode, BitVec.toNat_setWidth, toNat_extractLsb'_eq]
    omega
  cases c
  · exact hduty
  · exact hduty
  · exact toNat_loNibble b
  · exact hmode

/-! ### The statements -/

/-- A cell with a note and an instrument of the table loads that instrument (R165, R166). -/
theorem loads_of_note_ins {c : Chan} {n : Byte} {i : BitVec 4} {s : State} {b0 b1 : Byte}
    (hn : hasNote n = true) (hi : hasIns i s.ninstr = true)
    (h0 : Memory.read s.mem (s.base + (insBase s + 2 * (i.toNat - 1))) = some b0)
    (h1 : Memory.read s.mem (s.base + (insBase s + 2 * (i.toNat - 1) + 1)) = some b1) :
    insAfter c i s = i ∧ loadsDefaults c n i s = true ∧ defaultsByte c i s 0 = b0 ∧
      defaultsByte c i s 1 = b1 := by
  have ha : insAfter c i s = i := if_pos hi
  have hne : i ≠ 0#4 := by rintro rfl; exact absurd (hasIns_iff.1 hi).1 (by decide)
  refine ⟨ha, by simp [loadsDefaults, hn, ha, hne], ?_, ?_⟩ <;>
    simp [defaultsByte, defaultsOffset, ha, h0, h1]

/-- Settles O34: an empty cell triggers nothing; any other leaves `afterLoad`, whose fields, where the cell loads
an instrument, are the bits of the instrument's two bytes. -/
theorem nonCell : Obligations.NonCell := by
  intro c n i p s h
  refine ⟨exec_non_of_empty p, fun hne => ⟨_, exec_non_of_nonempty h p hne, rfl⟩, ?_⟩
  intro b0 b1 hn hi1 hi2 h0 h1
  have hnote : hasNote n = true := hasNote_iff.2 hn
  obtain ⟨ha, hl, e0, e1⟩ :=
    loads_of_note_ins (c := c) hnote (hasIns_iff.2 ⟨hi1, hi2⟩) h0 h1
  have hy : afterLoad c n i 0#4 p s = { s.ch c with
      ins := i, note := n.setWidth 7, pitch := noteMap c n.toNat, onset := true, fx := 0#4, fxp := p,
      vol := instrVol b0, edir := instrDir b0, eper := instrPer b0, ectr := 0#8,
      shape := instrShape c b1, astep := 0, vphase := 0#6, dctr := 0#8 } := by
    simp [afterLoad, afterNote, ha, hl, hnote, e0, e1]
  refine ⟨_, afterLoad c n i 0#4 p s, exec_non_of_nonempty h p (.inl hnote), rfl, ?_⟩
  rw [hy]
  refine ⟨rfl, ?_, rfl, rfl, rfl, rfl, toNat_instrVol b0, instrDir_eq b0, toNat_instrPer b0, rfl, ?_⟩
  · exact (BitVec.toNat_setWidth 7 n).trans (Nat.mod_eq_of_lt (by omega))
  · exact toNat_instrShape c b1

theorem envelopeStep_with_fx (x : Channel) (f : BitVec 4) :
    envelopeStep { x with fx := f } = { envelopeStep x with fx := f } := by
  unfold envelopeStep envelopeMove
  split_ifs <;> rfl

/-- A reserved code leaves what `NON` leaves, but for the code itself (R194). -/
theorem exec_reserved {c : Chan} {n : Byte} {i f : BitVec 4} {p : Byte} {s : State}
    (hf : 8 ≤ f.toNat) (h : CellReadable c n i s) :
    exec (cellOfFields c n i f p) s = .next (afterCell c n i s
      { envelopeStep (afterLoad c n i f p s) with fout := (afterNote c n i s).pitch }) ∧
    (hasNote n = true ∨ hasIns i s.ninstr = true → ∀ u, exec (.non c n i p) s = .next u →
      exec (cellOfFields c n i f p) s = .next (u.setCh c { u.ch c with fx := f })) := by
  have hne : f ≠ 0#4 := by rintro rfl; exact absurd hf (by decide)
  have hx := OutputsPitch.exec_eq (.inr hf) h p (emptyCell_of_ne hne n i s.ninstr)
  refine ⟨hx, fun hcell u hu => ?_⟩
  obtain rfl := Host.Outcome.next.inj ((exec_non_of_nonempty h p hcell).symm.trans hu)
  rw [hx]
  have hload : afterLoad c n i f p s = { afterLoad c n i 0#4 p s with fx := f } := rfl
  rw [hload, envelopeStep_with_fx]
  cases c <;> rfl

/-- Settles O42: one lemma for the eight codes, each of which is at least 8. -/
theorem reservedCells : Obligations.ReservedCells := by
  intro c n i p s h r hr
  have hcode : 8 ≤ r.2.toNat ∧ r.1 = cellOfFields c n i r.2 p := by
    simp only [List.mem_cons, List.not_mem_nil, or_false] at hr
    rcases hr with rfl | rfl | rfl | rfl | rfl | rfl | rfl | rfl <;>
      exact ⟨Nat.le_of_ble_eq_true rfl, rfl⟩
  obtain ⟨hf, hcell⟩ := hcode
  rw [hcell]
  exact exec_reserved hf h

end Sys2Proof.Machine
end

section
/-! Proofs of the statements about the blob and its header (30_encoding.md R90 to R97, 40_commands.md R131, R132).
Every table of the blob is a list of entries of one length, so an entry's byte is found by a product
(`getElem?_flatMap`), and each table lies behind those before it (`getElem?_append_append`). -/

namespace Sys2Proof.Machine

open Laws.OpcodeBits

/-! ### A header that is not valid -/

theorem ticks_of_stopped {s : State} (h : s.run = false) (k : Nat) : ticks k s = .next s := by
  induction k with
  | zero => rfl
  | succ k ih =>
    have htick : exec .tick s = .next s := execTick_iff.2 (.inl ⟨h, rfl⟩)
    rw [ticks, htick, andThen_next, ih]

/-- Settles O13: START leaves `run` at the validity of the header (`headerValid_eq`), and with `run = 0` TICKs
change nothing. -/
theorem invalidHeaderNeverPlays : Obligations.InvalidHeaderNeverPlays := by
  intro ptr s h0 h1 h2 h3 h4 h5 e0 e1 e2 e3 e4 e5 hinvalid
  have hrun : headerValid h0 h1 h2 h3 h4 h5 = false :=
    (headerValid_eq ..).trans (decide_eq_false hinvalid)
  exact ⟨_, execStart_of_read e0 e1 e2 e3 e4 e5, hrun, rfl, rfl, rfl, rfl, rfl,
    ticks_of_stopped hrun⟩

/-! ### Tables of entries of one length -/

section tables

variable {α β : Type}

theorem getElem?_append_append {l m r : List α} {k : Nat} {a : α} (h : m[k]? = some a) :
    (l ++ m ++ r)[l.length + k]? = some a := by
  obtain ⟨hk, -⟩ := List.getElem?_eq_some_iff.1 h
  rw [List.append_assoc, List.getElem?_append_right (Nat.le_add_right ..), Nat.add_sub_cancel_left,
    List.getElem?_append_left hk, h]

theorem length_flatMap_of_length {m : Nat} {f : α → List β} {l : List α}
    (hf : ∀ x ∈ l, (f x).length = m) : (l.flatMap f).length = m * l.length := by
  rw [List.length_flatMap, List.map_eq_replicate_iff.2 hf, List.sum_replicate, smul_eq_mul,
    Nat.mul_comm]

theorem getElem?_flatMap {m : Nat} {f : α → List β} {l : List α} (hf : ∀ x ∈ l, (f x).length = m)
    {j k : Nat} {x : α} {b : β} (hx : l[j]? = some x) (hb : (f x)[k]? = some b) :
    (l.flatMap f)[m * j + k]? = some b := by
  induction l generalizing j with
  | nil => exact nomatch hx
  | cons a l ih =>
    rw [List.flatMap_cons]
    cases j with
    | zero =>
      obtain rfl : a = x := Option.some.inj hx
      obtain ⟨hk, -⟩ := List.getElem?_eq_some_iff.1 hb
      rw [Nat.mul_zero, Nat.zero_add, List.getElem?_append_left hk, hb]
    | succ j =>
      have hlen : (f a).length = m := hf a List.mem_cons_self
      have hrest := ih (fun y hy => hf y (List.mem_cons_of_mem a hy)) (j := j) hx
      rw [Nat.mul_succ, List.getElem?_append_right (by omega), hlen,
        show m * j + m + k - m = m * j + k by omega, hrest]

end tables

/-! ### The entries of the tables -/

theorem length_instrumentBytes (x : Instrument) : x.bytes.length = 2 := rfl

/-- The fields that a trigger cuts out of an instrument's first byte (R94). -/
theorem instrument_byte0 : ∀ (vol : BitVec 4) (dir : Bool) (per : BitVec 3),
    instrVol (vol ++ BitVec.ofBool dir ++ per) = vol ∧
      instrDir (vol ++ BitVec.ofBool dir ++ per) = dir ∧
      (instrPer (vol ++ BitVec.ofBool dir ++ per)).toNat = per.toNat := by decide

/-- The fields that a trigger cuts out of an instrument's second byte (R94). -/
theorem instrument_byte1 : ∀ (duty : BitVec 2) (mode : Bool) (wave : BitVec 4),
    (instrDuty (duty ++ BitVec.ofBool mode ++ 0#1 ++ wave)).toNat = duty.toNat ∧
      instrWave (duty ++ BitVec.ofBool mode ++ 0#1 ++ wave) = wave ∧
      (instrNoiseMode (duty ++ BitVec.ofBool mode ++ 0#1 ++ wave)).toNat = mode.toNat := by decide

theorem length_waveBytesOf : ∀ l : List (BitVec 4), (waveBytesOf l).length = l.length / 2
  | [] | [_] => by simp [waveBytesOf]
  | a :: b :: rest => by
    rw [waveBytesOf, List.length_cons, length_waveBytesOf rest]
    simp only [List.length_cons]
    omega

/-- Byte `k / 2` of a waveform holds sample `k` in its half (R95). -/
theorem getElem?_waveBytesOf : ∀ {l : List (BitVec 4)} {k : Nat}, k / 2 < l.length / 2 →
    ∃ b, (waveBytesOf l)[k / 2]? = some b ∧ l[k]? = some (sampleOf k b)
  | [], _, h | [_], _, h => by simp at h
  | x :: y :: rest, 0, _ => ⟨byteOfNibbles x y, rfl, congrArg some (hiNibble_byteOfNibbles x y).symm⟩
  | x :: y :: rest, 1, _ => ⟨byteOfNibbles x y, rfl, congrArg some (loNibble_byteOfNibbles x y).symm⟩
  | x :: y :: rest, k + 2, h => by
    obtain ⟨b, hb, hs⟩ := getElem?_waveBytesOf (l := rest) (k := k)
      (by simp only [List.length_cons] at h; omega)
    refine ⟨b, ?_, ?_⟩
    · rw [Nat.add_div_right k (by decide)]
      exact hb
    · rw [sampleOf, Nat.add_mod_right]
      exact hs

/-- The bytes of a cell are three, and are decoded to the cell in its column (R98). -/
theorem cellBytes_of_column {i : Instr} {c : Chan} (h : i.column = some c) :
    ∃ b0 b1 b2, cellBytes i = [b0, b1, b2] ∧ cellOfBytes c b0 b1 b2 = i := by
  rcases instr_cases i with ⟨c', n, j, f, p, rfl⟩ | rfl | ⟨ptr, rfl⟩ | rfl | rfl
  · rw [column_cellOfFields] at h
    obtain rfl := Option.some.inj h
    exact ⟨n, byteOfNibbles j f, p, by rw [cellBytes, encode_cellOfFields]; rfl,
      cellOfBytes_byteOfNibbles ..⟩
  all_goals exact nomatch h

theorem rowOk_iff {r : List Instr} :
    rowOk r = true ↔ r.map Instr.column = [some .ch1, some .ch2, some .ch3, some .ch4] := beq_iff_eq

theorem length_of_rowOk {r : List Instr} (h : rowOk r = true) : r.length = 4 := by
  rw [← List.length_map Instr.column, rowOk_iff.1 h]
  rfl

theorem column_of_rowOk {r : List Instr} (h : rowOk r = true) {c : Chan} {i : Instr}
    (hi : r[chanIndex c]? = some i) : i.column = some c := by
  have hcol : (r.map Instr.column)[chanIndex c]? = some i.column := by rw [List.getElem?_map, hi]; rfl
  rw [rowOk_iff.1 h] at hcol
  cases c <;> exact (Option.some.inj hcol).symm

theorem length_cellBytes_of_rowOk {r : List Instr} (h : rowOk r = true) {i : Instr} (hi : i ∈ r) :
    (cellBytes i).length = 3 := by
  have hcol : i.column ∈ r.map Instr.column := List.mem_map_of_mem hi
  rw [rowOk_iff.1 h] at hcol
  obtain ⟨c, hc⟩ : ∃ c, i.column = some c := by
    simp only [List.mem_cons, List.not_mem_nil, or_false] at hcol
    rcases hcol with h | h | h | h <;> exact ⟨_, h⟩
  obtain ⟨b0, b1, b2, hb, -⟩ := cellBytes_of_column hc
  rw [hb]
  rfl

/-! ### A pattern -/

section pattern

variable {q : List (List Instr)} (hq : ∀ r ∈ q, rowOk r = true)
include hq

theorem length_cellBytes_of_pattern : ∀ i ∈ q.flatMap id, (cellBytes i).length = 3 := by
  intro i hi
  obtain ⟨r, hr, hir⟩ := List.mem_flatMap.1 hi
  exact length_cellBytes_of_rowOk (hq r hr) hir

theorem length_rows : (q.flatMap id).length = 4 * q.length :=
  length_flatMap_of_length fun r hr => length_of_rowOk (hq r hr)

theorem length_patternBytes : (patternBytes q).length = 12 * q.length := by
  rw [patternBytes, length_flatMap_of_length (length_cellBytes_of_pattern hq), length_rows hq]
  omega

/-- Byte `k` of the cell of channel `c` in row `r` (R96). -/
theorem getElem?_patternBytes {r k : Nat} {row : List Instr} {i : Instr} {c : Chan} {b : Byte}
    (hrow : q[r]? = some row) (hi : row[chanIndex c]? = some i) (hb : (cellBytes i)[k]? = some b) :
    (patternBytes q)[12 * r + 3 * chanIndex c + k]? = some b := by
  have hcell : (q.flatMap id)[4 * r + chanIndex c]? = some i :=
    getElem?_flatMap (fun r hr => length_of_rowOk (hq r hr)) hrow hi
  rw [show 12 * r + 3 * chanIndex c + k = 3 * (4 * r + chanIndex c) + k by omega]
  exact getElem?_flatMap (length_cellBytes_of_pattern hq) hcell hb

end pattern

/-! ### The regions of a legal song -/

/-- The legal ranges of a song's parts (R91 to R96), the order entries' aside. -/
structure Song.Legal (g : Song) : Prop where
  speed_pos : 1 ≤ g.speed.toNat
  orders_pos : 1 ≤ g.orders.length
  orders_le : g.orders.length ≤ 255
  patterns_pos : 1 ≤ g.patterns.length
  patterns_le : g.patterns.length ≤ 64
  instruments_le : g.instruments.length ≤ 15
  waves_le : g.waves.length ≤ 16
  wave_length : ∀ w ∈ g.waves, w.length = 32
  pattern_length : ∀ q ∈ g.patterns, q.length = 64
  rows_ok : ∀ q ∈ g.patterns, ∀ r ∈ q, rowOk r = true

theorem Song.legal_of_ok {g : Song} (h : g.ok = true) : g.Legal := by
  simp only [Song.ok, Bool.and_eq_true, decide_eq_true_eq, List.all_eq_true, and_assoc] at h
  obtain ⟨hspeed, ho1, ho2, hp1, hp2, hi, hw, -, hwaves, hpats⟩ := h
  exact ⟨hspeed, ho1, ho2, hp1, hp2, hi, hw, hwaves, fun q hq => (hpats q hq).1,
    fun q hq => (hpats q hq).2⟩

theorem Song.length_header (g : Song) : g.header.length = 8 := rfl

theorem Song.length_instruments (g : Song) :
    (g.instruments.flatMap Instrument.bytes).length = 2 * g.instruments.length :=
  length_flatMap_of_length fun x _ => length_instrumentBytes x

namespace Song.Legal

variable {g : Song} (hg : g.Legal)
include hg

theorem length_waveBytes : ∀ w ∈ g.waves, (waveBytesOf w).length = 16 := fun w hw => by
  rw [length_waveBytesOf, hg.wave_length w hw]

theorem length_patternBytes : ∀ q ∈ g.patterns, (patternBytes q).length = 768 := fun q hq => by
  rw [Machine.length_patternBytes (hg.rows_ok q hq), hg.pattern_length q hq]

theorem length_waves : (g.waves.flatMap waveBytesOf).length = 16 * g.waves.length :=
  length_flatMap_of_length hg.length_waveBytes

theorem length_patterns : (g.patterns.flatMap patternBytes).length = 768 * g.patterns.length :=
  length_flatMap_of_length hg.length_patternBytes

end Song.Legal

end Sys2Proof.Machine
end

section
/-! Proof of the statement about the layout of a song blob (30_encoding.md R91 to R97): where each entry of a legal
song stands in the blob, and the state that START leaves over it. -/

namespace Sys2Proof.Machine

/-! ### Offsets in the blob -/

section offsets

variable {g : Song} {j k : Nat} {b : Byte}

theorem Song.bytes_header (h : g.header[k]? = some b) : g.bytes[k]? = some b := by
  obtain ⟨hk, -⟩ := List.getElem?_eq_some_iff.1 h
  simp only [Song.bytes, List.append_assoc]
  rw [List.getElem?_append_left hk, h]

theorem Song.bytes_order (h : g.orders[k]? = some b) : g.bytes[8 + k]? = some b := by
  have := getElem?_append_append (l := g.header)
    (r := g.instruments.flatMap Instrument.bytes ++ g.waves.flatMap waveBytesOf ++
      g.patterns.flatMap patternBytes) h
  simpa only [Song.bytes, g.length_header, List.append_assoc] using this

theorem Song.bytes_instrument {x : Instrument} (hx : g.instruments[j]? = some x)
    (hb : x.bytes[k]? = some b) : g.bytes[8 + g.orders.length + 2 * j + k]? = some b := by
  have := getElem?_append_append (l := g.header ++ g.orders)
    (r := g.waves.flatMap waveBytesOf ++ g.patterns.flatMap patternBytes)
    (getElem?_flatMap (fun y _ => length_instrumentBytes y) hx hb)
  rw [List.length_append, g.length_header] at this
  simpa only [Song.bytes, List.append_assoc, Nat.add_assoc] using this

end offsets

namespace Song.Legal

variable {g : Song} (hg : g.Legal)
include hg

theorem length_bytes : g.bytes.length = 8 + g.orders.length + 2 * g.instruments.length +
    16 * g.waves.length + 768 * g.patterns.length := by
  simp only [Song.bytes, List.length_append, g.length_header, g.length_instruments, hg.length_waves,
    hg.length_patterns]

theorem bytes_wave {w k : Nat} {l : List (BitVec 4)} {b : Byte} (hl : g.waves[w]? = some l)
    (hb : (waveBytesOf l)[k]? = some b) :
    g.bytes[8 + g.orders.length + 2 * g.instruments.length + 16 * w + k]? = some b := by
  have := getElem?_append_append
    (l := g.header ++ g.orders ++ g.instruments.flatMap Instrument.bytes)
    (r := g.patterns.flatMap patternBytes) (getElem?_flatMap hg.length_waveBytes hl hb)
  rw [List.length_append, List.length_append, g.length_header, g.length_instruments] at this
  simpa only [Song.bytes, Nat.add_assoc] using this

theorem bytes_cell {p r k : Nat} {q : List (List Instr)} {row : List Instr} {i : Instr} {c : Chan}
    {b : Byte} (hq : g.patterns[p]? = some q) (hrow : q[r]? = some row)
    (hi : row[chanIndex c]? = some i) (hb : (cellBytes i)[k]? = some b) :
    g.bytes[8 + g.orders.length + 2 * g.instruments.length + 16 * g.waves.length + 768 * p + 12 * r +
      3 * chanIndex c + k]? = some b := by
  have hpat := getElem?_patternBytes (hg.rows_ok q (List.mem_of_getElem? hq)) hrow hi hb
  have := getElem?_append_append
    (l := g.header ++ g.orders ++ g.instruments.flatMap Instrument.bytes ++
      g.waves.flatMap waveBytesOf) (r := [])
    (getElem?_flatMap hg.length_patternBytes hq hpat)
  rw [List.length_append, List.length_append, List.length_append, g.length_header,
    g.length_instruments, hg.length_waves, List.append_nil] at this
  simpa only [Song.bytes, Nat.add_assoc] using this

end Song.Legal

/-! ### START over the blob -/

/-- The state after a START over the song placed at `ptr`. -/
def Song.started (g : Song) (ptr : Nat) (s : State) : State :=
  startRegs Config.formatVersion g.speed (BitVec.ofNat 8 g.orders.length)
    (BitVec.ofNat 8 g.patterns.length) (BitVec.ofNat 8 g.instruments.length)
    (BitVec.ofNat 8 g.waves.length)
    { s with mem := Memory.writeAll [] ptr g.bytes, base := ptr, bus := s.bus ++ headerReads }

section started

variable {g : Song} (ptr : Nat) (s : State)

theorem started_mem : (g.started ptr s).mem = Memory.writeAll [] ptr g.bytes := by
  simp only [Song.started, startRegs]

/-- The song placed at `ptr` reads back byte by byte. -/
theorem read_placed {off : Nat} {b : Byte} (h : g.bytes[off]? = some b) :
    Memory.read (Memory.writeAll [] ptr g.bytes) (ptr + off) = some b := by
  obtain ⟨hlt, -⟩ := List.getElem?_eq_some_iff.1 h
  rw [Memory.read_writeAll [] ptr g.bytes off hlt, h]

theorem read_started {off : Nat} {b : Byte} (h : g.bytes[off]? = some b) :
    Memory.read (g.started ptr s).mem (ptr + off) = some b := by
  rw [started_mem, read_placed ptr h]

theorem exec_start_song (g : Song) :
    exec (.start ptr) { s with mem := Memory.writeAll [] ptr g.bytes } = .next (g.started ptr s) := by
  have read {k : Nat} {b : Byte} (h : g.header[k]? = some b) :
      Memory.read (Memory.writeAll [] ptr g.bytes) (ptr + k) = some b :=
    read_placed ptr (Song.bytes_header h)
  unfold Song.started
  -- The memory is opaque from here on, so that no unifier computes its first bytes.
  generalize Memory.writeAll [] ptr g.bytes = m at read ⊢
  exact execStart_of_read (read (k := 0) rfl) (read (k := 1) rfl) (read (k := 2) rfl)
    (read (k := 3) rfl) (read (k := 4) rfl) (read (k := 5) rfl)

variable (hg : g.Legal)
include hg

theorem started_ordlen : (g.started ptr s).ordlen.toNat = g.orders.length :=
  (BitVec.toNat_ofNat ..).trans (Nat.mod_eq_of_lt (Nat.lt_succ_of_le hg.orders_le))

theorem started_npat : (g.started ptr s).npat.toNat = g.patterns.length :=
  (BitVec.toNat_ofNat ..).trans (Nat.mod_eq_of_lt (by have := hg.patterns_le; omega))

theorem started_ninstr : (g.started ptr s).ninstr.toNat = g.instruments.length :=
  (BitVec.toNat_ofNat ..).trans (Nat.mod_eq_of_lt (by have := hg.instruments_le; omega))

theorem started_nwave : (g.started ptr s).nwave.toNat = g.waves.length :=
  (BitVec.toNat_ofNat ..).trans (Nat.mod_eq_of_lt (by have := hg.waves_le; omega))

theorem started_run : (g.started ptr s).run = true := by
  refine (headerValid_eq ..).trans (decide_eq_true ⟨rfl, hg.speed_pos, ?_, ?_, ?_, ?_, ?_⟩)
  · exact (started_ordlen ptr s hg).symm ▸ hg.orders_pos
  · exact (started_npat ptr s hg).symm ▸ hg.patterns_pos
  · exact (started_npat ptr s hg).symm ▸ hg.patterns_le
  · exact (started_ninstr ptr s hg).symm ▸ hg.instruments_le
  · exact (started_nwave ptr s hg).symm ▸ hg.waves_le

/-! ### The regions as the block computes them (R62) -/

theorem started_insBase : insBase (g.started ptr s) = 8 + g.orders.length := by
  rw [insBase, started_ordlen ptr s hg]

theorem started_wavBase :
    wavBase (g.started ptr s) = 8 + g.orders.length + 2 * g.instruments.length := by
  rw [wavBase, started_insBase ptr s hg, started_ninstr ptr s hg]

theorem started_patBase : patBase (g.started ptr s) =
    8 + g.orders.length + 2 * g.instruments.length + 16 * g.waves.length := by
  rw [patBase, started_wavBase ptr s hg, started_nwave ptr s hg]

theorem started_blobLen : blobLen (g.started ptr s) = g.bytes.length := by
  rw [blobLen, started_patBase ptr s hg, started_npat ptr s hg, hg.length_bytes]

theorem started_blobReadable : BlobReadable (g.started ptr s) := by
  intro off _ hoff
  rw [started_blobLen ptr s hg] at hoff
  exact Option.isSome_of_eq_some (read_started ptr s (List.getElem?_eq_getElem hoff))

/-! ### The entries of the tables in the caller's memory -/

theorem started_instrument {j : Nat} {x : Instrument} (hx : g.instruments[j]? = some x) :
    ∃ b0 b1, Memory.read (g.started ptr s).mem (ptr + (insBase (g.started ptr s) + 2 * j)) = some b0 ∧
      Memory.read (g.started ptr s).mem (ptr + (insBase (g.started ptr s) + 2 * j + 1)) = some b1 ∧
      instrVol b0 = x.vol ∧ instrDir b0 = x.dir ∧ (instrPer b0).toNat = x.per.toNat ∧
      (instrShape .ch1 b1).toNat = x.duty.toNat ∧ (instrShape .ch2 b1).toNat = x.duty.toNat ∧
      instrShape .ch3 b1 = x.wave ∧ (instrShape .ch4 b1).toNat = x.noiseMode.toNat := by
  obtain ⟨hvol, hdir, hper⟩ := instrument_byte0 x.vol x.dir x.per
  obtain ⟨hduty, hwave, hmode⟩ := instrument_byte1 x.duty x.noiseMode x.wave
  rw [started_insBase ptr s hg]
  exact ⟨_, _, read_started ptr s (Song.bytes_instrument (k := 0) hx rfl),
    read_started ptr s (Song.bytes_instrument (k := 1) hx rfl), hvol, hdir, hper, hduty, hduty,
    hwave, hmode⟩

theorem started_sample {w k : Nat} {l : List (BitVec 4)} (hl : g.waves[w]? = some l) (hk : k < 32) :
    ∃ b, Memory.read (g.started ptr s).mem
        (ptr + (wavBase (g.started ptr s) + 16 * w + k / 2)) = some b ∧
      l[k]? = some (sampleOf k b) := by
  have hlen := hg.wave_length l (List.mem_of_getElem? hl)
  obtain ⟨b, hb, hs⟩ := getElem?_waveBytesOf (l := l) (k := k) (by omega)
  rw [started_wavBase ptr s hg]
  exact ⟨b, read_started ptr s (hg.bytes_wave hl hb), hs⟩

theorem started_cell {p r : Nat} {q : List (List Instr)} {row : List Instr} {i : Instr} {c : Chan}
    (hq : g.patterns[p]? = some q) (hrow : q[r]? = some row) (hi : row[chanIndex c]? = some i) :
    ∃ b0 b1 b2, Memory.read (g.started ptr s).mem (ptr + cellAddr (g.started ptr s) p r c) = some b0 ∧
      Memory.read (g.started ptr s).mem (ptr + cellAddr (g.started ptr s) p r c + 1) = some b1 ∧
      Memory.read (g.started ptr s).mem (ptr + cellAddr (g.started ptr s) p r c + 2) = some b2 ∧
      cellOfBytes c b0 b1 b2 = i := by
  have hcol := column_of_rowOk
    (hg.rows_ok q (List.mem_of_getElem? hq) row (List.mem_of_getElem? hrow)) hi
  obtain ⟨b0, b1, b2, hb, hcell⟩ := cellBytes_of_column hcol
  rw [cellAddr, started_patBase ptr s hg]
  exact ⟨b0, b1, b2, read_started ptr s (hg.bytes_cell (k := 0) hq hrow hi (by rw [hb]; rfl)),
    read_started ptr s (hg.bytes_cell (k := 1) hq hrow hi (by rw [hb]; rfl)),
    read_started ptr s (hg.bytes_cell (k := 2) hq hrow hi (by rw [hb]; rfl)), hcell⟩

end started

/-- Settles O6: the state is `Song.started`, and each part of a table stands where the `started` lemma of its
region says. -/
theorem songBlobLayout : Obligations.SongBlobLayout := by
  intro g ptr s hok
  have hg := Song.legal_of_ok hok
  exact ⟨g.started ptr s, exec_start_song ptr s g, started_run ptr s hg, rfl,
    started_ordlen ptr s hg, started_npat ptr s hg, started_ninstr ptr s hg, started_nwave ptr s hg,
    started_blobLen ptr s hg, started_blobReadable ptr s hg,
    fun _ _ he => read_started ptr s (Song.bytes_order he),
    fun _ _ hx => started_instrument ptr s hg hx,
    fun _ l hl => ⟨hg.wave_length l (List.mem_of_getElem? hl), fun _ => started_sample ptr s hg hl⟩,
    fun _ _ _ _ _ _ => started_cell ptr s hg⟩

end Sys2Proof.Machine
end

section
/-! Proofs of the statements about START, the idle commands and the port (40_commands.md R130 to R134, R140, R142),
and the bounds of a command's accesses (R143). -/

namespace Sys2Proof.Machine

/-- Settles O12: the second START reads the same six bytes (`execStart_of_read`) and writes the registers the
first one left. -/
theorem startTwiceSameState : Obligations.StartTwiceSameState := by
  intro ptr s t h
  obtain ⟨h0, h1, h2, h3, h4, h5, e0, e1, e2, e3, e4, e5, rfl⟩ := execStart_eq_next h
  exact ⟨headerReads, execStart_of_read e0 e1 e2 e3 e4 e5, rfl⟩

/-- Settles O14: the code 0b00 decodes to NOP, whose meaning is the state itself. -/
theorem nopChangesNothing : Obligations.NopChangesNothing := fun _ => ⟨rfl, fun _ => rfl⟩

/-- Settles O15: 0xFF is the sentinel of R30. -/
theorem resetwaveForgets : Obligations.ResetwaveForgets := fun _ => rfl

/-- Settles O16, by the first case of `execTick_iff`. -/
theorem tickWithoutSong : Obligations.TickWithoutSong := fun _ h => execTick_iff.2 (.inl ⟨h, rfl⟩)

/-- Settles O55: a step takes the command first in line (`step_of_port`). -/
theorem stepRunsCommand : Obligations.StepRunsCommand := fun _ _ _ _ _ hport => step_of_port hport

/-- Settles O59: an empty port is the code of NOP (`nopChangesNothing`), and an overlapped command is refused by
name. -/
theorem stepIdleAndOverlap : Obligations.StepIdleAndOverlap := by
  intro s
  refine ⟨fun hport => ?_, fun code ptr code2 ptr2 rest hport => step_of_port hport⟩
  unfold step
  rw [hport]
  exact (nopChangesNothing s).2 0

/-- Settles O22: `tick_completes`. -/
theorem tickCompletes : Obligations.TickCompletes := fun _ h hblob => tick_completes h hblob

/-! ### The number of accesses (R143) -/

theorem length_defaultsOffsets_le (c : Chan) (n : Byte) (i : BitVec 4) (s : State) :
    (defaultsOffsets c n i s).length ≤ 2 := by
  unfold defaultsOffsets
  split
  · exact Nat.le_refl 2
  · exact Nat.zero_le 2

/-- The order entry, and at most five bytes of each of the four cells. -/
theorem length_rowOffsets_le (p : Nat) (b : Chan → Byte × Byte × Byte) (s : State) :
    (rowOffsets p b s).length ≤ 21 := by
  have hle : ∀ c, (defaultsOffsets c (b c).1 (hiNibble (b c).2.1) s).length ≤ 2 := fun c =>
    length_defaultsOffsets_le ..
  have h1 := hle .ch1
  have h2 := hle .ch2
  have h3 := hle .ch3
  have h4 := hle .ch4
  simp only [rowOffsets, List.flatMap_cons, List.flatMap_nil, List.length_cons, List.length_append,
    List.length_nil]
  omega

/-- Steps 1 and 2 of a TICK add at most 21 reads to the record. -/
theorem countTick_reads_le {s u : State} (hu : countTick s = .next u) :
    ∃ offs : List Nat, u.bus = s.bus ++ offs.map .blobRead ∧ offs.length ≤ 21 := by
  rcases countTick_iff.1 hu with ⟨-, rfl⟩ | ⟨-, hf⟩
  · exact ⟨[], (List.append_nil _).symm, Nat.zero_le _⟩
  · obtain ⟨e, b, x, -, -, -, rfl⟩ := fetchRow_iff.1 hf
    exact ⟨_, by rw [withChs_bus, rowBoundary_bus, rowReads_eq_map], length_rowOffsets_le ..⟩

theorem PassBytes.length_le {s : State} {bs : List Byte} (h : PassBytes s bs) : bs.length ≤ 16 := by
  unfold PassBytes at h
  split at h
  · exact Nat.le_of_eq h.1
  · rw [h]
    exact Nat.zero_le _

theorem length_writeEvents_le (c : Chan) (x : Channel) :
    (sinkTraceOf (writeEvents c x)).length ≤ 4 := by
  rw [← List.length_map (f := Prod.fst), map_fst_writeEvents, List.length_map, List.length_range]
  split <;> decide

/-- The number of waveform bytes in the commit of channel `c`: CH3 alone loads any, each read and written once. -/
def waveLength (c : Chan) (bs : List Byte) : Nat := if c = .ch3 then bs.length else 0

theorem length_waveEvents (off i : Nat) (bs : List Byte) :
    (sinkTraceOf (waveEvents off i bs)).length = bs.length := by
  induction bs generalizing i with
  | nil => rfl
  | cons b bs ih => simp [waveEvents, sinkTraceOf, ih]

/-- A commit reads and writes its waveform bytes and writes at most four registers (R213, R217). -/
theorem length_passEvents_le (c : Chan) (s : State) (bs : List Byte) :
    (readTraceOf (passEvents c s bs)).length ≤ waveLength c bs ∧
      (sinkTraceOf (passEvents c s bs)).length ≤ waveLength c bs + 4 := by
  have hset := length_writeEvents_le c (s.ch c)
  rw [readTraceOf_passEvents, sinkTraceOf_passEvents]
  unfold waveLength
  by_cases hc : c = .ch3
  · cases passHold c s <;> simp [hc, length_waveEvents, hc ▸ hset]
  · cases passHold c s <;> simp [hc, hset]

/-- The four commits read and write the bytes of one load, and write four registers each (R213, R217). -/
theorem length_passRecord_le (s : State) (bs : List Byte) :
    (readTraceOf (passRecord s bs)).length ≤ bs.length ∧
      (sinkTraceOf (passRecord s bs)).length ≤ bs.length + 16 := by
  obtain ⟨r1, w1⟩ := length_passEvents_le .ch1 s bs
  obtain ⟨r2, w2⟩ := length_passEvents_le .ch2 s bs
  obtain ⟨r3, w3⟩ := length_passEvents_le .ch3 s bs
  obtain ⟨r4, w4⟩ := length_passEvents_le .ch4 s bs
  simp only [waveLength, if_true, if_false, reduceCtorEq] at r1 w1 r2 w2 r3 w3 r4 w4
  simp only [passRecord, List.flatMap_cons, List.flatMap_nil, List.append_nil, readTraceOf_append,
    sinkTraceOf_append, List.length_append]
  omega

@[simp] theorem sampleTraceOf_passRecord (s : State) (bs : List Byte) :
    sampleTraceOf (passRecord s bs) = [Chan.ch1, .ch2, .ch3, .ch4].map fun c => (c, sampledBit c s) := by
  simp [passRecord]

/-- Settles O24: a TICK reads at most 21 bytes in its row fetch (`countTick_reads_le`) and 16 in a waveform load,
which it writes beside four registers a channel (`length_passRecord_le`); START reads the header. -/
theorem accessBounds : Obligations.AccessBounds := by
  refine ⟨fun s t h => ?_, fun ptr s t h => ?_⟩
  · rcases execTick_iff.1 h with ⟨hstop, rfl⟩ | ⟨-, u, bs, hu, hbs, rfl⟩
    · exact ⟨[], (List.append_nil _).symm, Nat.zero_le _, Nat.zero_le _,
        fun hrun => absurd (hrun.symm.trans hstop) (by decide)⟩
    · obtain ⟨offs, hbus, hoffs⟩ := countTick_reads_le hu
      obtain ⟨hreads, hwrites⟩ := length_passRecord_le u.afterStep3 bs
      have hlen : bs.length ≤ 16 := PassBytes.length_le hbs
      refine ⟨offs.map .blobRead ++ passRecord u.afterStep3 bs, ?_, ?_, ?_, fun _ => ?_⟩
      · rw [afterEffects_record, hbus, List.append_assoc]
      · rw [readTraceOf_append, readTraceOf_map_blobRead, List.length_append]
        omega
      · rw [sinkTraceOf_append, sinkTraceOf_map_blobRead, List.nil_append]
        omega
      · simp
  · obtain ⟨h0, h1, h2, h3, h4, h5, -, -, -, -, -, -, rfl⟩ := execStart_eq_next h
    exact ⟨headerReads, rfl, rfl, rfl, rfl⟩

end Sys2Proof.Machine
end

section
/-! Proofs of the statements about the position (40_commands.md R135 to R139). One row boundary counts the row modulo
64 and the order position modulo `ordlen`; `k` TICKs then give the quotients of R139 by induction on `k`. -/

namespace Sys2Proof.Machine

/-! ### One row boundary -/

theorem advancePosition_row (s : State) :
    (advancePosition s).row.toNat = (s.row.toNat + 1) % 64 := by
  unfold advancePosition
  split_ifs with hrow hlast
  · rw [hrow]; rfl
  · rw [hrow]; rfl
  · exact BitVec.toNat_add ..

/-- The order position advances where the row wraps, modulo the length of the order list (R137). -/
theorem advancePosition_ord {s : State} (h : s.ord.toNat < s.ordlen.toNat) :
    (advancePosition s).ord.toNat = (s.ord.toNat + (s.row.toNat + 1) / 64) % s.ordlen.toNat := by
  have hlen := s.ordlen.isLt
  unfold advancePosition
  split_ifs with hrow hlast
  · rw [hrow, show (63#6).toNat + 1 = 64 from rfl, Nat.div_self (by decide), hlast, Nat.mod_self]
    rfl
  · rw [hrow, show (63#6).toNat + 1 = 64 from rfl, Nat.div_self (by decide), Nat.mod_eq_of_lt (by omega),
      BitVec.toNat_add, show (1#8).toNat = 1 from rfl]
    exact Nat.mod_eq_of_lt (by omega)
  · have hlt := s.row.isLt
    have hne : s.row.toNat ≠ 63 := fun he => hrow (BitVec.eq_of_toNat_eq he)
    rw [Nat.div_eq_of_lt (by omega), Nat.add_zero, Nat.mod_eq_of_lt h]

section boundary

variable {s : State}

theorem rowBoundary_of_first (h : s.first = true) :
    (rowBoundary s).row = s.row ∧ (rowBoundary s).ord = s.ord := by
  unfold rowBoundary
  rw [if_pos h]
  exact ⟨rfl, rfl⟩

/-- After the first row boundary every one advances the position (R136). -/
theorem rowBoundary_of_later (h : s.first = false) :
    rowBoundary s = advancePosition { s with tctr := s.speed } := if_neg (by simp [h])

theorem rowBoundary_row (h : s.first = false) : (rowBoundary s).row.toNat = (s.row.toNat + 1) % 64 := by
  rw [rowBoundary_of_later h, advancePosition_row]

theorem rowBoundary_ord (h : s.first = false) (hord : s.ord.toNat < s.ordlen.toNat) :
    (rowBoundary s).ord.toNat = (s.ord.toNat + (s.row.toNat + 1) / 64) % s.ordlen.toNat := by
  rw [rowBoundary_of_later h]
  exact advancePosition_ord (s := { s with tctr := s.speed }) hord

@[simp] theorem rowBoundary_first : (rowBoundary s).first = false := by rw [rowBoundary_frame]

end boundary

/-! ### The position after one TICK -/

/-- The registers of R25 to R27 and `first` are the same in both states. -/
def SamePosition (s t : State) : Prop :=
  t.ord = s.ord ∧ t.row = s.row ∧ t.tctr = s.tctr ∧ t.first = s.first

/-- A TICK of a playing song counts `tctr` down or passes a row boundary; steps 3 and 4 leave the position. -/
theorem tick_position {s t : State} (hrun : s.run = true) (h : exec .tick s = .next t) :
    s.tctr ≠ 1#8 ∧ SamePosition { s with tctr := s.tctr - 1#8 } t ∨
      s.tctr = 1#8 ∧ SamePosition (rowBoundary s) t := by
  obtain ⟨u, bs, hu, -, rfl⟩ := tick_playing hrun h
  rcases countTick_iff.1 hu with ⟨hne, rfl⟩ | ⟨hlast, hf⟩
  · exact .inl ⟨hne, rfl, rfl, rfl, rfl⟩
  · obtain ⟨e, b, x, -, -, -, rfl⟩ := fetchRow_iff.1 hf
    exact .inr ⟨hlast, rfl, rfl, rfl, rfl⟩

/-- Settles O18: the TICK completes (`tick_completes`), and its position is that of `rowBoundary`. -/
theorem rowBoundaryPosition : Obligations.RowBoundaryPosition := by
  intro s h hrun hblob hlast
  have hord := (h.play hrun).ord_lt
  have hrow := s.row.isLt
  obtain ⟨t, ht⟩ := tick_completes h fun _ => hblob
  rcases tick_position hrun ht with ⟨hne, -⟩ | ⟨-, ho, hr, htctr, hfirst⟩
  · exact absurd hlast hne
  refine ⟨t, ht, by simpa using htctr, by simpa using hfirst, fun hf => ?_, fun hf hne => ?_,
    fun hf heq => ?_⟩
  · rw [hr, ho]
    exact rowBoundary_of_first hf
  · refine ⟨?_, BitVec.eq_of_toNat_eq ?_⟩
    · rw [hr, rowBoundary_row hf]
      exact Nat.mod_eq_of_lt (by omega)
    · rw [ho, rowBoundary_ord hf hord, Nat.div_eq_of_lt (by omega)]
      exact Nat.mod_eq_of_lt hord
  · rw [hr, ho, rowBoundary_row hf, rowBoundary_ord hf hord, heq]
    refine ⟨rfl, fun hend => ?_, fun hend => ?_⟩
    · rw [show (63 + 1) / 64 = 1 from rfl, hend, Nat.mod_self]
    · exact Nat.mod_eq_of_lt (by omega)

/-! ### The closed form (R139) -/

/-- `PositionAfter v l j t`: the song plays in `t`, with speed `v` and `l` order entries, `j` TICKs after the
first one. -/
structure PositionAfter (v l : Byte) (j : Nat) (t : State) : Prop where
  run : t.run = true
  speed : t.speed = v
  ordlen : t.ordlen = l
  row : t.row.toNat = j / v.toNat % 64
  ord : t.ord.toNat = j / v.toNat / 64 % l.toNat
  tctr : t.tctr.toNat = v.toNat - j % v.toNat
  first : t.first = false

/-- A counter and the counter of its wraps step together. -/
theorem succ_div_eq (j n : Nat) : (j + 1) / n = j / n + (j % n + 1) / n := by
  rcases Nat.eq_zero_or_pos n with rfl | hn
  · simp
  · rw [← Nat.mul_add_div hn, ← Nat.add_assoc, Nat.div_add_mod]

section closedForm

variable {v l : Byte} {j : Nat} {s t : State}

/-- Within a row the TICK counts `tctr` down and the row stays. -/
theorem PositionAfter.count (h : PositionAfter v l j s) (hv : 1 ≤ v.toNat) (hne : s.tctr ≠ 1#8)
    (hpos : SamePosition { s with tctr := s.tctr - 1#8 } t) (hrun : t.run = true) (hspeed : t.speed = v)
    (hordlen : t.ordlen = l) : PositionAfter v l (j + 1) t := by
  obtain ⟨ho, hr, htctr, hfirst⟩ := hpos
  have hmod := Nat.mod_lt j hv
  have hlt : j % v.toNat + 1 < v.toNat := by
    have htctr' := h.tctr
    have hne' : s.tctr.toNat ≠ 1 := fun he => hne (BitVec.eq_of_toNat_eq he)
    omega
  have hdiv : (j + 1) / v.toNat = j / v.toNat := by
    rw [succ_div_eq, Nat.div_eq_of_lt hlt, Nat.add_zero]
  refine ⟨hrun, hspeed, hordlen, ?_, ?_, ?_, hfirst.trans h.first⟩
  · rw [hr, hdiv, ← h.row]
  · rw [ho, hdiv, ← h.ord]
  · rw [htctr, ← Nat.mod_add_mod, Nat.mod_eq_of_lt hlt]
    have htctr' := h.tctr
    change (s.tctr - 1#8).toNat = _
    bv_omega

/-- With the last TICK of a row the row counts on and `tctr` is reloaded. -/
theorem PositionAfter.boundary (h : PositionAfter v l j s) (hv : 1 ≤ v.toNat) (hl : 1 ≤ l.toNat)
    (hlast : s.tctr = 1#8) (hpos : SamePosition (rowBoundary s) t) (hrun : t.run = true)
    (hspeed : t.speed = v) (hordlen : t.ordlen = l) : PositionAfter v l (j + 1) t := by
  obtain ⟨ho, hr, htctr, hfirst⟩ := hpos
  have hmod := Nat.mod_lt j hv
  have hend : j % v.toNat + 1 = v.toNat := by
    have htctr' := h.tctr
    have hone : s.tctr.toNat = 1 := by rw [hlast]; rfl
    omega
  have hdiv : (j + 1) / v.toNat = j / v.toNat + 1 := by rw [succ_div_eq, hend, Nat.div_self hv]
  have hord : s.ord.toNat < s.ordlen.toNat := by
    rw [h.ord, h.ordlen]
    exact Nat.mod_lt _ hl
  refine ⟨hrun, hspeed, hordlen, ?_, ?_, ?_, hfirst.trans rowBoundary_first⟩
  · rw [hr, rowBoundary_row h.first, h.row, hdiv, Nat.mod_add_mod]
  · rw [ho, rowBoundary_ord h.first hord, h.ord, h.ordlen, h.row, Nat.mod_add_mod, hdiv,
      succ_div_eq (j / v.toNat)]
  · rw [htctr, rowBoundary_tctr, h.speed, ← Nat.mod_add_mod, hend, Nat.mod_self, Nat.sub_zero]

theorem PositionAfter.tick (h : PositionAfter v l j s) (hv : 1 ≤ v.toNat) (hl : 1 ≤ l.toNat)
    (ht : exec .tick s = .next t) : PositionAfter v l (j + 1) t := by
  obtain ⟨hrun, -, hspeed, hordlen, -⟩ := onlyStartWritesHeader _ _ _ ht fun _ => nofun
  rcases tick_position h.run ht with ⟨hne, hpos⟩ | ⟨hlast, hpos⟩
  · exact h.count hv hne hpos (hrun.trans h.run) (hspeed.trans h.speed) (hordlen.trans h.ordlen)
  · exact h.boundary hv hl hlast hpos (hrun.trans h.run) (hspeed.trans h.speed) (hordlen.trans h.ordlen)

end closedForm

/-- `k + 1` TICKs are `k` and one more. -/
theorem ticks_succ (k : Nat) (s : State) : ticks (k + 1) s = andThen (ticks k s) (exec .tick) := by
  induction k generalizing s with
  | zero =>
    rw [ticks, ticks, andThen_next]
    cases exec .tick s <;> rfl
  | succ k ih =>
    change andThen (exec .tick s) (ticks (k + 1)) = andThen (andThen (exec .tick s) (ticks k)) (exec .tick)
    rw [andThen_assoc, funext ih]

/-- A START whose header is valid leaves the song at its start (R131, R92). -/
structure Started (s : State) : Prop where
  run : s.run = true
  speed_pos : 1 ≤ s.speed.toNat
  ordlen_pos : 1 ≤ s.ordlen.toNat
  ord : s.ord = 0#8
  row : s.row = 0#6
  tctr : s.tctr = 1#8
  first : s.first = true

theorem started_of_start {ptr : Nat} {s s0 : State} (h : exec (.start ptr) s = .next s0)
    (hrun : s0.run = true) : Started s0 := by
  obtain ⟨h0, h1, h2, h3, h4, h5, -, -, -, -, -, -, rfl⟩ := execStart_eq_next h
  have hvalid : headerValid h0 h1 h2 h3 h4 h5 = true := hrun
  rw [headerValid_eq, decide_eq_true_iff] at hvalid
  obtain ⟨-, hspeed, hord, -⟩ := hvalid
  exact ⟨hrun, hspeed, hord, rfl, rfl, rfl, rfl⟩

/-- The first TICK is the row boundary that stays at row 0 (R136). -/
theorem Started.tick {s t : State} (h : Started s) (ht : exec .tick s = .next t) :
    PositionAfter s.speed s.ordlen 0 t := by
  obtain ⟨hrun, -, hspeed, hordlen, -⟩ := onlyStartWritesHeader _ _ _ ht fun _ => nofun
  rcases tick_position h.run ht with ⟨hne, -⟩ | ⟨-, ho, hr, htctr, hfirst⟩
  · exact absurd h.tctr hne
  obtain ⟨hrow, hord⟩ := rowBoundary_of_first h.first
  refine ⟨hrun.trans h.run, hspeed, hordlen, ?_, ?_, ?_, hfirst.trans rowBoundary_first⟩
  · rw [hr, hrow, h.row, Nat.zero_div]; rfl
  · rw [ho, hord, h.ord, Nat.zero_div, Nat.zero_div, Nat.zero_mod]; rfl
  · rw [htctr, rowBoundary_tctr, Nat.zero_mod, Nat.sub_zero]

theorem Started.ticks {s t : State} (h : Started s) {j : Nat} (ht : ticks (j + 1) s = .next t) :
    PositionAfter s.speed s.ordlen j t := by
  induction j generalizing t with
  | zero =>
    rw [ticks_succ] at ht
    exact h.tick ht
  | succ j ih =>
    rw [ticks_succ] at ht
    obtain ⟨u, hu, ht⟩ := andThen_eq_next.1 ht
    exact (ih hu).tick h.speed_pos h.ordlen_pos ht

/-- Settles O19: an instruction other than START and TICK leaves the position (`Executed`), and `k` TICKs from
START give the closed form by induction on `k` (`Started.ticks`). -/
theorem positionClosedForm : Obligations.PositionClosedForm := by
  refine ⟨fun i s t h hstart htick => ?_, fun ptr s t h => ?_, fun ptr s s0 t k h hrun hk ht => ?_⟩
  · cases executed_of_exec h with
    | nop | resetwave => exact ⟨rfl, rfl, rfl, rfl⟩
    | start ptr => exact absurd rfl (hstart ptr)
    | cell c => cases c <;> exact ⟨rfl, rfl, rfl, rfl⟩
    | stopped | playing => exact absurd rfl htick
  · obtain ⟨h0, h1, h2, h3, h4, h5, -, -, -, -, -, -, rfl⟩ := execStart_eq_next h
    exact ⟨rfl, rfl, rfl, rfl⟩
  · obtain ⟨j, rfl⟩ := Nat.exists_eq_succ_of_ne_zero (Nat.ne_of_gt hk)
    have hpos := (started_of_start h hrun).ticks ht
    exact ⟨hpos.row, hpos.ord, hpos.tctr, hpos.first⟩

end Sys2Proof.Machine
end

section
/-! A row-boundary TICK as four instructions (40_commands.md R133, R138). The fetch of a cell looks at its own channel,
so it commutes with the effect step of another one (R171, R180), and each effect step may be moved behind the
fetches that follow it. -/

namespace Sys2Proof.Machine

section modCh

variable {c d : Chan} (f : Channel → Channel) (s : State)

theorem blobRead_modCh (off : Nat) :
    blobRead off (s.modCh d f) = andThen (blobRead off s) fun r => .next (r.1, r.2.modCh d f) := by
  unfold blobRead
  rw [modCh_mem, modCh_base]
  cases Memory.read s.mem (s.base + off) with
  | none => rfl
  | some b => rw [andThen_next, modCh_emit]

theorem setCh_modCh (h : c ≠ d) (x : Channel) : (s.modCh d f).setCh c x = (s.setCh c x).modCh d f := by
  unfold State.modCh
  rw [setCh_comm _ _ _ _ _ h.symm, ch_setCh_ne _ _ _ _ h.symm]

/-- A trigger of one channel does not see what is done to another (R160, R171). -/
theorem trigger_modCh (h : c ≠ d) (n : Byte) (i fx : BitVec 4) (p : Byte) :
    trigger c n i fx p (s.modCh d f) = andThen (trigger c n i fx p s) fun t => .next (t.modCh d f) := by
  have hch : (s.modCh d f).ch c = s.ch c := ch_modCh_ne _ _ _ _ h
  have hload := loadsDefaults_congr (n := n) (i := i) hch (modCh_ninstr s d f)
  have hoff := defaultsOffset_congr (i := i) hch (modCh_ninstr s d f) (modCh_ordlen s d f)
  cases hl : loadsDefaults c n i s with
  | true =>
    rw [trigger_defaults p (hload.trans hl), trigger_defaults p hl]
    simp only [hoff, blobRead_modCh, andThen_assoc, andThen_next, modCh_ninstr, hch, setCh_modCh f _ h]
  | false =>
    cases he : emptyCell n i fx s.ninstr with
    | true =>
      rw [trigger_empty c p he, trigger_empty c p (by rwa [modCh_ninstr]), andThen_next]
    | false =>
      rw [trigger_noDefaults p he hl, trigger_noDefaults p (by rwa [modCh_ninstr]) (hload.trans hl),
        andThen_next, hch, modCh_ninstr, setCh_modCh f s h]

theorem fetchCell_modCh (h : c ≠ d) (a : Nat) :
    fetchCell a c (s.modCh d f) = andThen (fetchCell a c s) fun t => .next (t.modCh d f) := by
  simp only [fetchCell, triggerBytes, blobRead_modCh, trigger_modCh f _ h, andThen_assoc, andThen_next]

end modCh

/-- A cell that is fetched, decoded and executed: its fetch, then its channel's effect step. -/
theorem runCellAt_eq (a : Nat) (c : Chan) (s : State) :
    runCellAt a c s = andThen (fetchCell a c s) fun t => .next (t.modCh c (effectStep c)) := by
  simp only [runCellAt, fetchCell, triggerBytes, cellOfBytes, exec_cellOfFields, andThen_assoc]

/-- The four cells run one after the other are the row fetch, then the effect steps of all channels. -/
theorem runRow_eq (s : State) : runRow s = andThen (fetchRow s) fun t => .next (effectPass t) := by
  simp (disch := decide) only [runRow, fetchRow, runCellAt_eq, fetchCell_modCh, andThen_assoc,
    andThen_next, effectPass]

/-- Settles O20: at a row boundary step 1 of TICK is the row fetch, and the fetch with step 3 is the row of four
instructions (`runRow_eq`). -/
theorem rowRunsDecodedCells : Obligations.RowRunsDecodedCells := by
  intro s hrun hlast
  have hcount : countTick s = fetchRow (rowBoundary s) := by
    unfold countTick
    rw [hlast]
    rfl
  change execTick s = _
  unfold execTick
  rw [if_pos hrun, hcount, runRow_eq, andThen_assoc]
  rfl

end Sys2Proof.Machine
end

section
/-! A TICK in full (40_commands.md R133, R138, R144): the whole state between rows, the reads of a row boundary, and
what a TICK depends on. -/

namespace Sys2Proof.Machine

/-! ### Between rows -/

/-- Without an onset nothing clears the latch (R211). -/
theorem passHold_of_idle {c : Chan} {s : State} (h : (s.ch c).onset = false) :
    passHold c s = (sampledBit c s || (s.ch c).hold) := by
  unfold passHold holdAfter
  rw [h]
  cases sampledBit c s <;> rfl

/-- Without an onset a commit changes the latch alone. -/
theorem passCh_of_idle {c : Chan} {s : State} (h : (s.ch c).onset = false) :
    passCh c s = { s.ch c with hold := sampledBit c s || (s.ch c).hold } := by
  rw [passCh, passHold_of_idle h, ← h]

/-- Without an onset on CH3 no waveform is loaded (R216). -/
theorem passLoads_of_idle {s : State} (h : (s.ch .ch3).onset = false) : passLoads s = false := by
  have h3 : s.ch3.onset = false := h
  simp [passLoads, waveNeeded, h3]

/-- Commits that load no waveform change the channels, `MUTE`, the accesses to come and the record. -/
theorem afterPass_of_noLoad {s : State} (h : passLoads s = false) (bs : List Byte) :
    s.afterPass bs = { s with
      ch1 := passCh .ch1 s, ch2 := passCh .ch2 s, ch3 := passCh .ch3 s, ch4 := passCh .ch4 s,
      mute := muteAfter s.mid.all s.mute, mid := .none, bus := s.bus ++ passRecord s bs } := by
  simp [State.afterPass, h, passRecord]

/-- The writes of the commit of a channel without an onset and with no waveform to load (R213). -/
theorem sinkTraceOf_passEvents_of_idle {c : Chan} {ninstr : Byte} {s : State}
    (hinv : ChannelInv c ninstr (s.ch c)) (h : (s.ch c).onset = false) :
    sinkTraceOf (passEvents c s []) = if (passCh c s).hold then [] else
      [(8 * chanIndex c, (passCh c s).shape.setWidth 11),
        (8 * chanIndex c + 1, (passCh c s).vol.setWidth 11), (8 * chanIndex c + 2, (passCh c s).fout)] := by
  have hhold : (passCh c s).hold = passHold c s := rfl
  rw [sinkTraceOf_passEvents, sinkTraceOf_writeEvents hinv, writePairs, h, hhold]
  cases passHold c s with
  | true => rfl
  | false => simp [passCh, waveEvents, sinkTraceOf]

/-- Settles O17: step 1 counts down, no channel has an onset, so no waveform is loaded and each commit changes its
latch (`passCh_of_idle`) and writes three registers (`sinkTraceOf_passEvents_of_idle`). -/
theorem tickBetweenRows : Obligations.TickBetweenRows := by
  intro s h hrun hne
  let u : State := { s with tctr := s.tctr - 1#8 }
  have hch : ∀ c, u.afterStep3.ch c = effectStep c (s.ch c) := fun c => by
    rw [State.afterStep3, withChs_ch, ch_with_tctr]
  have hidle : ∀ c, (u.afterStep3.ch c).onset = false := fun c => by
    rw [hch, effectStep_onset, h.idle]
  have hload : passLoads u.afterStep3 = false := passLoads_of_idle (hidle .ch3)
  have hbit : ∀ c, sampledBit c u.afterStep3 = sampledBit c s := sampledBit_congr rfl rfl
  have hsink : ∀ c, sinkTraceOf (passEvents c u.afterStep3 []) = _ := fun c =>
    sinkTraceOf_passEvents_of_idle (ninstr := s.ninstr) (by rw [hch]; exact effectStep_channelInv (h.chan c))
      (hidle c)
  refine ⟨fun c => passCh c u.afterStep3, passRecord u.afterStep3 [], fun c => ?_, ?_, ?_, ?_, ?_⟩
  · change passCh c u.afterStep3 = _
    rw [passCh_of_idle (hidle c), hch, hbit, effectStep_hold]
  · refine execTick_iff.2 (.inr ⟨hrun, u, [], countTick_iff.2 (.inl ⟨hne, rfl⟩), ?_, ?_⟩)
    · change PassBytes u.afterStep3 []
      rw [PassBytes, hload]
      rfl
    · change _ = u.afterStep3.afterPass []
      rw [afterPass_of_noLoad hload, State.afterStep3, withChs_bus, List.append_nil]
      rfl
  · simp [passRecord, readTraceOf_passEvents]
  · simp [passRecord, hbit]
  · simp [passRecord, hsink]

/-! ### The reads of a row boundary (R138) -/

/-- The offset lies in the pattern table or behind it (R62). -/
def inPatterns (s : State) (off : Nat) : Bool := decide (patBase s ≤ off)

theorem rowBoundary_inPatterns (s : State) : inPatterns (rowBoundary s) = inPatterns s :=
  funext fun off => by rw [inPatterns, inPatterns, rowBoundary_patBase]

theorem filter_inPatterns_of_lt {s : State} {l : List Nat} (h : ∀ off ∈ l, off < patBase s) :
    l.filter (inPatterns s) = [] :=
  List.filter_eq_nil_iff.2 fun off ho => by simpa [inPatterns] using h off ho

theorem insAfter_pos_of_loads {c : Chan} {n : Byte} {i : BitVec 4} {s : State}
    (hl : loadsDefaults c n i s = true) : 1 ≤ (insAfter c i s).toNat := by
  unfold loadsDefaults at hl
  obtain ⟨-, hne⟩ : hasNote n = true ∧ insAfter c i s ≠ 0#4 := by simpa using hl
  exact Nat.one_le_iff_ne_zero.2 fun h0 => hne (BitVec.eq_of_toNat_eq h0)

/-- The instrument table lies before the pattern table. -/
theorem defaultsOffsets_lt_patBase {c : Chan} {n : Byte} {i : BitVec 4} {s : State} {off : Nat}
    (h : ChannelInv c s.ninstr (s.ch c)) (ho : off ∈ defaultsOffsets c n i s) : off < patBase s := by
  have hle := insAfter_le i h
  unfold defaultsOffsets at ho
  split at ho
  · next hl =>
    have hpos := insAfter_pos_of_loads hl
    unfold patBase wavBase
    rcases List.mem_pair.1 ho with rfl | rfl <;> (unfold defaultsOffset; omega)
  · exact nomatch ho

/-- Of the reads of a row fetch those in the pattern table are the twelve bytes of the row (R96, R138). -/
theorem filter_rowOffsets {s : State} (p : Nat) (b : Chan → Byte × Byte × Byte)
    (hord : s.ord.toNat < s.ordlen.toNat) (h : ∀ c, ChannelInv c s.ninstr (s.ch c)) :
    (rowOffsets p b s).filter (inPatterns s) =
      (List.range 12).map fun k => patBase s + 768 * p + 12 * s.row.toNat + k := by
  have horder : inPatterns s (ordBase + s.ord.toNat) = false := by
    unfold inPatterns patBase wavBase insBase ordBase
    exact decide_eq_false (by omega)
  have hcell : ∀ c k, inPatterns s (cellAddr s p s.row.toNat c + k) = true := fun c k =>
    decide_eq_true (by unfold cellAddr; omega)
  have hdefaults : ∀ c, (defaultsOffsets c (b c).1 (hiNibble (b c).2.1) s).filter (inPatterns s) = [] :=
    fun c => filter_inPatterns_of_lt fun _ => defaultsOffsets_lt_patBase (h c)
  have hcell0 : ∀ c, inPatterns s (cellAddr s p s.row.toNat c) = true := fun c => hcell c 0
  simp only [rowOffsets, List.flatMap_cons, List.flatMap_nil, List.filter_cons, List.filter_append,
    horder, hcell0, hcell, hdefaults]
  rfl

/-- A waveform load reads before the pattern table (R217). -/
theorem passRecord_lt_patBase {s : State} {bs : List Byte} (h : PassBytes s bs) :
    ∀ off ∈ readTraceOf (passRecord s bs), off < patBase s := by
  intro off ho
  obtain ⟨c, -, ho⟩ := List.mem_flatMap.1 (mem_readTraceOf.1 ho)
  rw [← mem_readTraceOf, readTraceOf_passEvents] at ho
  unfold PassBytes at h
  split at ho
  · obtain ⟨j, hj, rfl⟩ := List.mem_map.1 ho
    rw [List.mem_range] at hj
    split at h
    · next hload =>
      have hw := passLoads_shape_lt hload
      have hlen := h.1
      unfold patBase
      omega
    · subst h
      exact nomatch hj
  · exact nomatch ho

/-- An order entry below the number of patterns names its pattern, any other the last one (R233). -/
theorem clampPattern_eq (e : Byte) {s : State} (h : 1 ≤ s.npat.toNat) :
    clampPattern e s = if e.toNat < s.npat.toNat then e.toNat else s.npat.toNat - 1 := by
  unfold clampPattern
  split <;> omega

theorem CountFrame.patBase_eq {s u : State} (h : CountFrame s u) : patBase u = patBase s := by
  unfold patBase wavBase insBase
  rw [h.ordlen, h.ninstr, h.nwave]

/-- Settles O21: the record of the TICK is the reads of the row fetch (`filter_rowOffsets`) and those of a waveform
load, which lie before the pattern table (`passRecord_lt_patBase`). -/
theorem rowFetchAddresses : Obligations.RowFetchAddresses := by
  intro s t hrun hlast h ht
  obtain ⟨u, bs, hu, hbs, rfl⟩ := tick_playing hrun ht
  have hplay := h.play hrun
  rcases countTick_iff.1 hu with ⟨hne, -⟩ | ⟨-, hf⟩
  · exact absurd hlast hne
  obtain ⟨e, b, x, he, -, -, hfetched⟩ := fetchRow_iff.1 hf
  have hbus : u.bus = s.bus ++
      (rowOffsets (clampPattern e (rowBoundary s)) b (rowBoundary s)).map .blobRead := by
    rw [hfetched, withChs_bus, rowBoundary_bus, rowReads_eq_map]
  have hord : u.ord = (rowBoundary s).ord := by rw [hfetched]; rfl
  have hrow : u.row = (rowBoundary s).row := by rw [hfetched]; rfl
  have hpat : patBase u.afterStep3 = patBase s := (countTick_frame hu).patBase_eq
  have hfetch := filter_rowOffsets (s := rowBoundary s) (clampPattern e (rowBoundary s)) b
    (by simpa using rowBoundary_ord_lt hplay.ord_lt) (by simpa using h.chan)
  have hload : (readTraceOf (passRecord u.afterStep3 bs)).filter (inPatterns s) = [] :=
    filter_inPatterns_of_lt (hpat ▸ passRecord_lt_patBase hbs)
  rw [rowBoundary_inPatterns, rowBoundary_patBase] at hfetch
  refine ⟨_, e, (afterEffects_record u bs).trans (by rw [hbus, List.append_assoc]), ?_, ?_, ?_⟩
  · change Memory.read s.mem (s.base + 8 + u.ord.toNat) = _
    rw [hord, Nat.add_assoc, ← rowBoundary_mem s, ← rowBoundary_base s]
    exact he
  · change _ = some (8 + u.ord.toNat)
    rw [hord, readTraceOf_append, readTraceOf_map_blobRead]
    rfl
  · change (readTraceOf _).filter (inPatterns s) = (List.range 12).map fun k => _ + 12 * u.row.toNat + k
    rw [readTraceOf_append, readTraceOf_map_blobRead, List.filter_append, hload, hrow, List.append_nil]
    rw [hfetch, clampPattern_eq e (by simpa using hplay.npat_pos), rowBoundary_npat]

end Sys2Proof.Machine
end

section
/-! What a TICK depends on (40_commands.md R144). A state is moved when its blob may lie elsewhere and the rest of the
caller's memory, the inputs and the record are others. Every part of a TICK does to the moved state what it does
to the state, as long as the two blobs hold the same bytes. -/

namespace Sys2Proof.Machine

/-- The registers of `s` with the pointer, the memory and the inputs of `m`, and the record of `m` with `es`
more. -/
def State.movedTo (s m : State) (es : List BusEvent) : State :=
  { s with base := m.base, mem := m.mem, port := m.port, bus := m.bus ++ es }

/-- The two states hold the same bytes in the blob of `s`, past the header (R63). -/
def SameBlob (s m : State) : Prop :=
  ∀ off, InBlob s off → Memory.read m.mem (m.base + off) = Memory.read s.mem (s.base + off)

section moved

variable {s m : State} (es : List BusEvent)

@[simp] theorem ch_movedTo (c : Chan) : (s.movedTo m es).ch c = s.ch c := by cases c <;> rfl

theorem withChs_movedTo (x : Chan → Channel) (ws : List BusEvent) :
    (s.movedTo m es).withChs x ws = (s.withChs x ws).movedTo m (es ++ ws) := by
  simp only [State.withChs, State.movedTo, List.append_assoc]

theorem SameBlob.congr {u : State} (h : SameBlob s m) (hmem : u.mem = s.mem) (hbase : u.base = s.base)
    (hlen : blobLen u = blobLen s) : SameBlob u m := by
  unfold SameBlob InBlob
  rw [hmem, hbase, hlen]
  exact h

theorem rowBoundary_movedTo : rowBoundary (s.movedTo m es) = (rowBoundary s).movedTo m es := by
  unfold rowBoundary advancePosition
  simp only [apply_ite (State.movedTo · m es)]
  rfl

/-! ### The row fetch -/

theorem CellAt.moved (h : SameBlob s m) {a : Nat} {b : Byte × Byte × Byte}
    (ha : ∀ k, k < 3 → InBlob s (a + k)) (hb : CellAt s a b) : CellAt (s.movedTo m es) a b := by
  obtain ⟨h0, h1, h2⟩ := hb
  exact ⟨(h _ (ha 0 (by decide))).trans h0, (h _ (ha 1 (by decide))).trans h1,
    (h _ (ha 2 (by decide))).trans h2⟩

/-- Where an instrument is looked for lies in the blob, be it loaded or not: a song has a pattern (R92). -/
theorem defaultsOffset_inBlob_of_pattern {c : Chan} (i : BitVec 4) {k : Nat} (hpat : 1 ≤ s.npat.toNat)
    (hc : ChannelInv c s.ninstr (s.ch c)) (hk : k < 2) : InBlob s (defaultsOffset c i s k) := by
  have hle := insAfter_le i hc
  unfold InBlob defaultsOffset blobLen patBase wavBase insBase
  omega

theorem triggerBytesCh_moved (h : SameBlob s m) (hpat : 1 ≤ s.npat.toNat) {c : Chan}
    (hc : ChannelInv c s.ninstr (s.ch c)) (b : Byte × Byte × Byte) :
    triggerBytesCh c b (s.movedTo m es) = triggerBytesCh c b s := by
  refine triggerCh_congr (ch_movedTo es c) rfl fun k hk => ?_
  rw [defaultsOffset_congr (ch_movedTo es c) rfl rfl]
  exact h _ (defaultsOffset_inBlob_of_pattern _ hpat hc hk)

theorem rowReads_movedTo (p : Nat) (b : Chan → Byte × Byte × Byte) :
    rowReads p b (s.movedTo m es) = rowReads p b s := by
  have hdefaults (c : Chan) (n : Byte) (i : BitVec 4) :
      defaultsReads c n i (s.movedTo m es) = defaultsReads c n i s :=
    defaultsReads_congr (ch_movedTo es c) rfl rfl
  simp only [rowReads, cellReads, hdefaults]
  rfl

theorem fetchRow_moved (h : SameBlob s m) (hord : s.ord.toNat < s.ordlen.toNat) (hpat : 1 ≤ s.npat.toNat)
    (hc : ∀ c, ChannelInv c s.ninstr (s.ch c)) {u : State} (hu : fetchRow s = .next u) :
    ∃ rs, u.bus = s.bus ++ rs ∧ fetchRow (s.movedTo m []) = .next (u.movedTo m rs) := by
  obtain ⟨e, b, x, he, hb, hx, rfl⟩ := fetchRow_iff.1 hu
  refine ⟨_, rfl, fetchRow_iff.2 ⟨e, b, x, (h _ (orderOffset_inBlob hord)).trans he, fun c => ?_,
    fun c => (triggerBytesCh_moved [] h hpat (hc c) _).trans (hx c), ?_⟩⟩
  · exact CellAt.moved [] h (fun k hk => cellOffset_inBlob c (clampPattern_lt e hpat) s.row.isLt hk) (hb c)
  · rw [rowReads_movedTo, withChs_movedTo, List.nil_append]
    rfl

theorem countTick_moved (h : BlockInv s) (hrun : s.run = true) (hsame : SameBlob s m) {u : State}
    (hu : countTick s = .next u) :
    ∃ rs, u.bus = s.bus ++ rs ∧ countTick (s.movedTo m []) = .next (u.movedTo m rs) := by
  have hplay := h.play hrun
  rcases countTick_iff.1 hu with ⟨hne, rfl⟩ | ⟨hlast, hf⟩
  · exact ⟨[], (List.append_nil _).symm, countTick_iff.2 (.inl ⟨hne, rfl⟩)⟩
  · obtain ⟨rs, hbus, hmoved⟩ := fetchRow_moved
      (hsame.congr (rowBoundary_mem s) (rowBoundary_base s) (rowBoundary_blobLen s))
      (by simpa using rowBoundary_ord_lt hplay.ord_lt) (by simpa using hplay.npat_pos)
      (by simpa using h.chan) hf
    rw [rowBoundary_bus] at hbus
    exact ⟨rs, hbus, countTick_iff.2 (.inr ⟨hlast, by rw [rowBoundary_movedTo]; exact hmoved⟩)⟩

/-! ### The commits -/

theorem PassBytes.moved (h : SameBlob s m) {bs : List Byte} (hbs : PassBytes s bs) :
    PassBytes (s.movedTo m es) bs := by
  have hload : passLoads (s.movedTo m es) = passLoads s := rfl
  unfold PassBytes at hbs ⊢
  rw [hload]
  split at hbs
  · next hl =>
    rw [if_pos hl]
    exact ⟨hbs.1, fun j hj =>
      (h _ (waveOffset_inBlob (passLoads_shape_lt hl) hj)).trans (hbs.2 j hj)⟩
  · next hl =>
    rw [if_neg hl]
    exact hbs

theorem afterStep3_movedTo : (s.movedTo m es).afterStep3 = s.afterStep3.movedTo m es := by
  simp only [State.afterStep3, ch_movedTo, withChs_movedTo, List.append_nil]

theorem afterEffects_movedTo (bs : List Byte) :
    (s.movedTo m es).afterEffects bs = (s.afterEffects bs).movedTo m (es ++ passRecord s.afterStep3 bs) := by
  have hbus := afterEffects_record (s.movedTo m es) bs
  have hrecord : passRecord (s.movedTo m es).afterStep3 bs = passRecord s.afterStep3 bs := rfl
  rw [hrecord] at hbus
  apply State.ext
  case bus => rw [hbus]; exact List.append_assoc ..
  all_goals rfl

/-- A TICK does to the moved state what it does to the state. -/
theorem tick_moved (h : BlockInv s) (hsame : SameBlob s m) {t : State} (ht : exec .tick s = .next t) :
    ∃ rs, t.bus = s.bus ++ rs ∧ exec .tick (s.movedTo m []) = .next (t.movedTo m rs) := by
  rcases execTick_iff.1 ht with ⟨hstop, rfl⟩ | ⟨hrun, u, bs, hu, hbs, rfl⟩
  · exact ⟨[], (List.append_nil _).symm, execTick_iff.2 (.inl ⟨hstop, rfl⟩)⟩
  · obtain ⟨rs, hbus, hmoved⟩ := countTick_moved h hrun hsame hu
    have hf := countTick_frame hu
    have hload : PassBytes (u.movedTo m rs).afterStep3 bs := by
      rw [afterStep3_movedTo]
      exact PassBytes.moved rs (s := u.afterStep3) (hsame.congr hf.mem hf.base hf.blobLen_eq) hbs
    refine ⟨rs ++ passRecord u.afterStep3 bs, ?_, ?_⟩
    · rw [afterEffects_record, hbus, List.append_assoc]
    · rw [← afterEffects_movedTo]
      exact execTick_iff.2 (.inr ⟨hrun, _, bs, hmoved, hload, rfl⟩)

end moved

/-- Settles O32: the other state is the state moved, and a TICK does the same to both (`tick_moved`). -/
theorem tickDeterminedByBlob : Obligations.TickDeterminedByBlob := by
  intro s m t h hsame hblob ht
  have hm : s.movedTo m [] = m := by
    rw [State.movedTo, List.append_nil]
    exact hsame.symm
  obtain ⟨rs, hbus, hmoved⟩ := tick_moved h (fun off ⟨hlo, hhi⟩ => hblob off hlo hhi) ht
  rw [hm] at hmoved
  exact ⟨_, rs, hmoved, rfl, hbus, rfl⟩

end Sys2Proof.Machine
end

section
/-! Proofs of the statements about the row trigger (41_row_trigger.md): the frame of a cell of any code, and the two
codes that reprogram the envelope generator at load time (R169). -/

namespace Sys2Proof.Machine

/-! ### The frame of a cell (R171) -/

theorem emptyCell_iff {n : Byte} {i f : BitVec 4} {ninstr : Byte} : emptyCell n i f ninstr = true ↔
    hasNote n = false ∧ hasIns i ninstr = false ∧ f = 0#4 := by
  simp [emptyCell, and_assoc]

theorem triggerCh_of_empty {c : Chan} {n : Byte} {i f : BitVec 4} {p : Byte} {s : State}
    (he : emptyCell n i f s.ninstr = true) : triggerCh c n i f p s = some (s.ch c) := by
  have hl : loadsDefaults c n i s = false := by simp [loadsDefaults, (emptyCell_iff.1 he).1]
  simp [triggerCh, hl, he]

/-- A trigger leaves its channel alone where the cell is empty, and loads its effect after the note where it is
not (R160, R161). -/
theorem triggerCh_eq_some {c : Chan} {n : Byte} {i f : BitVec 4} {p : Byte} {s : State} {x : Channel}
    (hx : triggerCh c n i f p s = some x) :
    emptyCell n i f s.ninstr = true ∧ x = s.ch c ∨
      emptyCell n i f s.ninstr = false ∧ x = fxLoad f p (afterNote c n i s) := by
  cases he : emptyCell n i f s.ninstr with
  | true => exact .inl ⟨rfl, Option.some.inj (hx.symm.trans (triggerCh_of_empty he))⟩
  | false =>
    have hread : CellReadable c n i s := triggerCh_isSome_iff.1 ⟨x, hx⟩
    exact .inr ⟨rfl, Option.some.inj (hx.symm.trans (triggerCh_of_readable hread f p he))⟩

@[simp] theorem ch_addCh_same (s : State) (c : Chan) (x : Channel) (es : List BusEvent) :
    (s.addCh c x es).ch c = x := by cases c <;> rfl

/-- Settles O43: the state after a cell is that of `exec_cell_iff`, the effect step keeps the registers the
statement names, and the two cases of `triggerCh_eq_some` say what the trigger left in them. -/
theorem cellFrame : Obligations.CellFrame := by
  intro c n i f p s t h
  obtain ⟨x, hx, rfl⟩ := exec_cell_iff.1 h
  simp only [ch_addCh_same, effectStep_hold, effectStep_ins, effectStep_note, effectStep_onset,
    effectStep_fx, effectStep_fxp]
  refine ⟨rfl, ?_⟩
  rcases triggerCh_eq_some hx with ⟨he, rfl⟩ | ⟨-, rfl⟩
  · obtain ⟨-, hi, -⟩ := emptyCell_iff.1 he
    exact ⟨rfl, by simp [insAfter, hi], fun _ => ⟨rfl, rfl⟩, fun hne => by simp [he] at hne⟩
  · exact ⟨by simp [afterNote], by simp [afterNote], fun hn => by simp [afterNote, hn], fun _ => by simp⟩

/-! ### The envelope generator reprogrammed at load time (R169) -/

/-- The envelope generator reprogrammed: direction, period, and phase 0. -/
def reprogrammed (up : Bool) (p : Byte) (x : Channel) : Channel :=
  { x with edir := up, eper := p, ectr := 0#8 }

theorem envelopeMove_up_vol {x : Channel} (h : x.edir = true) :
    (envelopeMove x).vol.toNat = min (x.vol.toNat + 1) 15 := by
  have hlt := x.vol.isLt
  rw [envelopeMove, if_pos h]
  split_ifs with hmax
  · simp [show x.vol.toNat = 15 from hmax]
  · have hne : x.vol.toNat ≠ 15 := hmax
    rw [BitVec.toNat_add, BitVec.toNat_ofNat]
    omega

theorem envelopeMove_down_vol {x : Channel} (h : x.edir = false) :
    (envelopeMove x).vol.toNat = x.vol.toNat - 1 := by
  rw [envelopeMove, if_neg (by simp [h])]
  split_ifs with hmin
  · simp [hmin]
  · bv_omega

/-- The first step of a reprogrammed envelope is over at once where the period is 1, and moves no volume where it
is 0 or longer (R181). -/
theorem envelopeStep_reprogrammed_vol (up : Bool) (p : Byte) (x : Channel) :
    (envelopeStep (reprogrammed up p x)).vol =
      if p = 1#8 then (envelopeMove (reprogrammed up p x)).vol else x.vol := by
  by_cases h1 : p = 1#8
  · subst h1
    rfl
  · have hruns : (reprogrammed up p x).ectr + 1#8 ≠ (reprogrammed up p x).eper := fun h =>
      h1 (by simpa [reprogrammed] using h.symm)
    rw [if_neg h1, envelopeStep, if_neg hruns]
    split_ifs <;> rfl

theorem envelopeStep_fadeIn_vol (p : Byte) (x : Channel) :
    (envelopeStep (reprogrammed true p x)).vol.toNat = min (x.vol.toNat + if p = 1#8 then 1 else 0) 15 := by
  have hlt := x.vol.isLt
  rw [envelopeStep_reprogrammed_vol]
  split_ifs
  · exact envelopeMove_up_vol rfl
  · omega

theorem envelopeStep_fadeOut_vol (p : Byte) (x : Channel) :
    (envelopeStep (reprogrammed false p x)).vol.toNat = x.vol.toNat - if p = 1#8 then 1 else 0 := by
  rw [envelopeStep_reprogrammed_vol]
  split_ifs
  · exact envelopeMove_down_vol rfl
  · rfl

/-! ### VFI and VFO -/

/-- The codes that reprogram the envelope generator, each with its direction (R191, R192). -/
abbrev Fades (f : BitVec 4) (up : Bool) : Prop := f = 5#4 ∧ up = true ∨ f = 6#4 ∧ up = false

theorem Fades.fxLoad_eq {f : BitVec 4} {up : Bool} (h : Fades f up) (c : Chan) (n : Byte)
    (i : BitVec 4) (p : Byte) (s : State) :
    fxLoad f p (afterNote c n i s) = reprogrammed up p (afterLoad c n i f p s) := by
  rcases h with ⟨rfl, rfl⟩ | ⟨rfl, rfl⟩ <;> rfl

/-- A cell of either code completes: the envelope runs as reprogrammed, and the output is the pitch. -/
theorem Fades.exec_eq {f : BitVec 4} {up : Bool} (hf : Fades f up) {c : Chan} {n : Byte}
    {i : BitVec 4} {s : State} (h : CellReadable c n i s) (p : Byte) :
    exec (cellOfFields c n i f p) s = .next (afterCell c n i s
      { envelopeStep (reprogrammed up p (afterLoad c n i f p s)) with
        fout := (afterNote c n i s).pitch }) := by
  have hne : f ≠ 0#4 := by rcases hf with ⟨rfl, -⟩ | ⟨rfl, -⟩ <;> decide
  have harm : effectArm f = fun _ x => outPitch x := by rcases hf with ⟨rfl, -⟩ | ⟨rfl, -⟩ <;> rfl
  have hfx : (reprogrammed up p (afterLoad c n i f p s)).fx = f := rfl
  rw [exec_cell_of_readable h f p (emptyCell_of_ne hne n i s.ninstr), hf.fxLoad_eq, effectStep, hfx,
    harm]
  simp [outPitch, reprogrammed, afterLoad]

/-- Settles O39: `Fades.exec_eq` upward; the volume is that of the first step of a fade in. -/
theorem vfiCell : Obligations.VfiCell := fun c n i p s h =>
  ⟨_, Fades.exec_eq (.inl ⟨rfl, rfl⟩) h p, rfl,
    envelopeStep_fadeIn_vol p (afterLoad c n i 5#4 p s)⟩

/-- Settles O40: `Fades.exec_eq` downward; the volume is that of the first step of a fade out. -/
theorem vfoCell : Obligations.VfoCell := fun c n i p s h =>
  ⟨_, Fades.exec_eq (.inr ⟨rfl, rfl⟩) h p, rfl,
    envelopeStep_fadeOut_vol p (afterLoad c n i 6#4 p s)⟩

end Sys2Proof.Machine
end

section
/-! Proofs of the statements about the effects (42_effects.md). An effect step under `SLU`, `SLD`, `ARP`, `VIB` and
`DCY` is one equation per code; the loading tick of a cell is that step from `afterLoad` (`exec_cell_afterLoad`),
and the closed forms are inductions over the number of steps, from any phase. -/

namespace Sys2Proof.Machine

/-! ### The loading tick -/

/-- The codes other than `NON`, `VFI` and `VFO`: the cell is never empty, and its load reprograms no envelope. -/
abbrev LoadsPlainly (f : BitVec 4) : Prop := f ≠ 0#4 ∧ f ≠ 5#4 ∧ f ≠ 6#4

section load

variable {c : Chan} {n : Byte} {i f : BitVec 4} {s : State}

theorem LoadsPlainly.fxLoad_eq (hf : LoadsPlainly f) (p : Byte) :
    fxLoad f p (afterNote c n i s) = afterLoad c n i f p s := by
  obtain ⟨-, h5, h6⟩ := hf
  rw [fxLoad, if_neg h5, if_neg h6]
  rfl

/-- A cell of such a code completes with the first effect step from `afterLoad`. -/
theorem exec_cell_afterLoad (h : CellReadable c n i s) (p : Byte) (hf : LoadsPlainly f) :
    exec (cellOfFields c n i f p) s =
      .next (afterCell c n i s (effectStep c (afterLoad c n i f p s))) := by
  rw [exec_cell_of_readable h f p (emptyCell_of_ne hf.1 n i s.ninstr), hf.fxLoad_eq]

theorem ch_of_exec_cell {p : Byte} {t : State} (ht : exec (cellOfFields c n i f p) s = .next t)
    (hf : LoadsPlainly f) : t.ch c = effectStep c (afterLoad c n i f p s) := by
  obtain ⟨x, hx, rfl⟩ := exec_cell_iff.1 ht
  have hread : CellReadable c n i s := triggerCh_isSome_iff.1 ⟨x, hx⟩
  rw [← Host.Outcome.next.inj ((exec_cell_afterLoad hread p hf).symm.trans ht)]
  exact ch_addCh_same ..

end load

theorem pMax_eq (c : Chan) : pMax c = if c = .ch4 then 255 else 2047 := by cases c <;> rfl

/-! ### One step of SLU and SLD -/

section slides

variable {c : Chan} {x : Channel}

theorem effectStep_slu (h : x.fx = 1#4) : effectStep c x = { envelopeStep x with
    pitch := slideUp c x.pitch x.fxp.toNat, fout := slideUp c x.pitch x.fxp.toNat } := by
  have harm : effectArm 1#4 = effSlu := rfl
  simp [effectStep, h, harm, effSlu, outPitch]

theorem effectStep_sld (h : x.fx = 2#4) : effectStep c x = { envelopeStep x with
    pitch := slideDown x.pitch x.fxp.toNat, fout := slideDown x.pitch x.fxp.toNat } := by
  have harm : effectArm 2#4 = effSld := rfl
  simp [effectStep, h, harm, effSld, outPitch]

end slides

/-- Settles O35: the loading tick is one slide step (`effectStep_slu`) from `afterLoad`, and the clamped sum is
`slideUp_toNat`. -/
theorem sluCell : Obligations.SluCell := by
  intro c n i p s h
  refine ⟨_, exec_cell_afterLoad (f := 1#4) h p (by decide), ?_, ?_⟩ <;> rw [effectStep_slu rfl]
  rw [slideUp_toNat, pMax_eq]
  rfl

/-- Settles O36: as O35 downward; the difference on natural numbers stops at 0 (`slideDown_toNat`). -/
theorem sldCell : Obligations.SldCell := by
  intro c n i p s h
  refine ⟨_, exec_cell_afterLoad (f := 2#4) h p (by decide), ?_, ?_⟩ <;> rw [effectStep_sld rfl]
  rw [slideDown_toNat]
  change (((afterNote c n i s).pitch.toNat - p.toNat : Nat) : Int) = _
  omega

/-! ### One step of ARP -/

theorem arpOffset_eq (k : Fin 3) (p : Byte) :
    arpOffset k p = if k = 0 then 0 else if k = 1 then p.toNat / 16 else p.toNat % 16 := by
  match k with
  | 0 => rfl
  | 1 => exact toNat_hiNibble p
  | 2 => exact toNat_loNibble p

/-- The step goes 0, 1, 2, 0 (R189). -/
theorem arpNext_eq (k : Fin 3) :
    (if k = 2 then 0 else k + 1) = if k = 0 then (1 : Fin 3) else if k = 1 then 2 else 0 := by
  decide +revert

/-- The step goes on modulo 3 (R189). -/
theorem arpNext_val (k : Fin 3) :
    (if k = 0 then (1 : Fin 3) else if k = 1 then 2 else 0).val = (k.val + 1) % 3 := by
  decide +revert

theorem effectStep_arp {c : Chan} {x : Channel} (h : x.fx = 3#4) : effectStep c x = { envelopeStep x with
    fout := noteMap c (min (x.note.toNat + if x.astep = 0 then 0
      else if x.astep = 1 then x.fxp.toNat / 16 else x.fxp.toNat % 16) 71),
    astep := if x.astep = 0 then 1 else if x.astep = 1 then 2 else 0 } := by
  have harm : effectArm 3#4 = effArp := rfl
  simp [effectStep, h, harm, effArp, arpOffset_eq, arpNext_eq, Config.noteMax]

/-- Settles O37: every tick is `effectStep_arp`, and the loading tick is that step from `afterLoad`, at step 0. -/
theorem arpCell : Obligations.ArpCell := by
  refine ⟨fun c n i p s h => ⟨_, exec_cell_afterLoad (f := 3#4) h p (by decide), ?_⟩,
    fun c x => effectStep_arp⟩
  rw [effectStep_arp rfl]
  rfl

/-! ### One step of VIB -/

section vib

variable {c : Chan} {x : Channel}

theorem effectStep_vib (h : x.fx = 4#4) : effectStep c x = { envelopeStep x with
    fout := vibOut c x, vphase := x.vphase + BitVec.ofNat 6 (paramX x.fxp) } := by
  have harm : effectArm 4#4 = effVib := rfl
  simp [effectStep, h, harm, effVib, vibOut]

/-- The phase advances by the rate modulo 64 (R190). -/
theorem effectStep_vib_vphase (h : x.fx = 4#4) :
    (effectStep c x).vphase.toNat = (x.vphase.toNat + x.fxp.toNat / 16) % 64 := by
  rw [effectStep_vib h, BitVec.toNat_add, BitVec.toNat_ofNat, paramX, toNat_hiNibble, Nat.add_mod_mod]

/-- `vphase[5:4]` is the quadrant of the phase (R190). -/
theorem toNat_quadrant (v : BitVec 6) : (v.extractLsb' 4 2).toNat = v.toNat / 16 := by
  have h := v.isLt
  rw [toNat_extractLsb'_eq]
  omega

theorem vibOut_level (h : x.vphase.toNat / 16 = 0 ∨ x.vphase.toNat / 16 = 2) :
    vibOut c x = x.pitch := by
  rcases h with h | h <;> simp only [vibOut, toNat_quadrant, h]

theorem vibOut_above (h : x.vphase.toNat / 16 = 1) :
    vibOut c x = slideUp c x.pitch (x.fxp.toNat % 16) := by
  simp only [vibOut, toNat_quadrant, h, paramY, toNat_loNibble]

theorem vibOut_below (h : x.vphase.toNat / 16 = 3) :
    vibOut c x = slideDown x.pitch (x.fxp.toNat % 16) := by
  simp only [vibOut, toNat_quadrant, h, paramY, toNat_loNibble]

end vib

/-- Settles O38: a step is `effectStep_vib`, with one `vibOut` lemma per quadrant; the loading tick is that step from
`afterLoad`, at phase 0 and so in quadrant 0. -/
theorem vibCell : Obligations.VibCell := by
  constructor
  · intro c n i p s h
    refine ⟨_, exec_cell_afterLoad (f := 4#4) h p (by decide), ?_, ?_⟩
    · have hphase : (afterLoad c n i 4#4 p s).vphase = 0#6 := rfl
      rw [effectStep_vib rfl, vibOut_level (.inl (by rw [hphase]; rfl))]
      rfl
    · rw [effectStep_vib_vphase rfl]
      change (0 + p.toNat / 16) % 64 = p.toNat / 16
      have hp := p.isLt
      omega
  · intro c x h
    refine ⟨_, rfl, by rw [effectStep_vib h], effectStep_vib_vphase h, fun hq => ?_, fun hq => ?_,
      fun hq => ?_⟩ <;> rw [effectStep_vib h]
    · exact vibOut_level hq
    · rw [vibOut_above hq, slideUp_toNat, pMax_eq]
    · rw [vibOut_below hq, slideDown_toNat]
      omega

/-! ### Phase counters -/

/-- A phase counter reaches its period exactly as its number does: the period is not 0, so the counter does not
wrap there. -/
theorem add_one_eq_iff {a e : Byte} (he : e ≠ 0#8) : a + 1#8 = e ↔ a.toNat + 1 = e.toNat := by
  bv_omega

/-- A phase counter below its period counts on without a wrap. -/
theorem toNat_add_one_of_lt {a e : Byte} (h : a.toNat < e.toNat) : (a + 1#8).toNat = a.toNat + 1 := by
  bv_omega

/-- The periods that end within `k + 1` steps from the last phase of one: that one, and those within `k` steps from
phase 0. -/
theorem periods_of_last {a e : Nat} (h : a + 1 = e) (k : Nat) : (a + (k + 1)) / e = k / e + 1 := by
  rw [show a + (k + 1) = k + e by omega, Nat.add_div_right k (by omega)]

/-! ### One step of DCY -/

section dcy

variable {c : Chan} {x : Channel}

theorem effectStep_dcy (h : x.fx = 7#4) : effectStep c x = effDcy c (envelopeStep x) := by
  rw [effectStep, h]
  rfl

/-- `DCY` writes `fout`, `dctr` and `shape`, and the output is the pitch (R193). -/
theorem effectStep_dcy_frame (h : x.fx = 7#4) : effectStep c x = { envelopeStep x with
    fout := x.pitch, dctr := (effectStep c x).dctr, shape := (effectStep c x).shape } := by
  rw [effectStep_dcy h, effDcy]
  split_ifs <;> simp [outPitch]

theorem effectStep_dcy_wrap (h : x.fx = 7#4) (hc : isPulse c = true) (hp : x.fxp ≠ 0#8)
    (hend : x.dctr.toNat + 1 = x.fxp.toNat) :
    (effectStep c x).dctr = 0#8 ∧ (effectStep c x).shape.toNat = (x.shape.toNat + 1) % 4 := by
  have hwrap : x.dctr + 1#8 = x.fxp := (add_one_eq_iff hp).2 hend
  rw [effectStep_dcy h, effDcy, if_pos (by simp [hc, hp]), if_pos (by simpa using hwrap)]
  refine ⟨rfl, ?_⟩
  simp only [outPitch, envelopeStep_shape, nextDuty, BitVec.toNat_ofNat]
  omega

theorem effectStep_dcy_count (h : x.fx = 7#4) (hc : isPulse c = true) (hp : x.fxp ≠ 0#8)
    (hne : x.dctr.toNat + 1 ≠ x.fxp.toNat) :
    (effectStep c x).dctr = x.dctr + 1#8 ∧ (effectStep c x).shape = x.shape := by
  have hon : x.dctr + 1#8 ≠ x.fxp := fun he => hne ((add_one_eq_iff hp).1 he)
  rw [effectStep_dcy h, effDcy, if_pos (by simp [hc, hp]), if_neg (by simpa using hon)]
  simp [outPitch]

theorem effectStep_dcy_idle (h : x.fx = 7#4) (hidle : isPulse c = false ∨ x.fxp = 0#8) :
    (effectStep c x).dctr = x.dctr ∧ (effectStep c x).shape = x.shape := by
  rw [effectStep_dcy h, effDcy, if_neg (by rcases hidle with hc | hp <;> simp [*])]
  simp [outPitch]

end dcy

/-- Settles O41: a step writes `fout`, `dctr` and `shape` alone (`effectStep_dcy_frame`), and its three cases are the
wrap, the count and the idle step; the loading tick is a step from `afterLoad`, at counter 0. -/
theorem dcyCell : Obligations.DcyCell := by
  constructor
  · intro c n i p s h
    refine ⟨_, exec_cell_afterLoad (f := 7#4) h p (by decide), effectStep_dcy_frame rfl, fun hc hp => ?_,
      fun hc hp => ?_, fun hidle => effectStep_dcy_idle rfl hidle⟩
    · subst hp
      exact effectStep_dcy_wrap rfl hc (by decide : (1#8 : Byte) ≠ 0#8) rfl
    · have hp0 : p ≠ 0#8 := by rintro rfl; exact absurd hp (by decide)
      have hne : 0 + 1 ≠ p.toNat := by omega
      exact effectStep_dcy_count rfl hc hp0 hne
  · intro c x h hlt
    refine ⟨_, rfl, effectStep_dcy_frame h, fun hc hp hend => ?_, fun hc hp hne => ?_, effectStep_dcy_idle h⟩
    · obtain ⟨hctr, hshape⟩ := effectStep_dcy_wrap h hc hp hend
      exact ⟨by rw [hctr]; rfl, hshape⟩
    · obtain ⟨hctr, hshape⟩ := effectStep_dcy_count h hc hp hne
      exact ⟨by rw [hctr, toNat_add_one_of_lt (hlt hp)], hshape⟩

/-! ### One step of the envelope generator -/

/-- The volume `m` envelope steps on, saturated to 0 to 15 (R183). -/
def volAfter (up : Bool) (v m : Nat) : Nat := if up then min (v + m) 15 else v - m

section envelopeStep

variable {x : Channel}

theorem envelopeStep_of_stopped (h : x.eper = 0#8) : envelopeStep x = x := if_pos h

theorem envelopeStep_of_counting (hlt : x.ectr.toNat < x.eper.toNat)
    (hne : x.ectr.toNat + 1 ≠ x.eper.toNat) : (envelopeStep x).vol = x.vol ∧
      (envelopeStep x).eper = x.eper ∧ (envelopeStep x).ectr.toNat = x.ectr.toNat + 1 := by
  have h : x.eper ≠ 0#8 := by bv_omega
  rw [envelopeStep, if_neg h, if_neg fun he => hne ((add_one_eq_iff h).1 he)]
  exact ⟨rfl, rfl, toNat_add_one_of_lt hlt⟩

theorem envelopeStep_of_over (h : x.eper ≠ 0#8) (hend : x.ectr.toNat + 1 = x.eper.toNat) :
    envelopeStep x = envelopeMove { x with ectr := 0#8 } := by
  rw [envelopeStep, if_neg h, if_pos ((add_one_eq_iff h).2 hend)]

@[simp] theorem envelopeMove_ectr : (envelopeMove x).ectr = x.ectr := by
  unfold envelopeMove
  split_ifs <;> rfl

theorem envelopeMove_vol (x : Channel) :
    (envelopeMove x).vol.toNat = volAfter x.edir x.vol.toNat 1 := by
  cases hd : x.edir with
  | true => exact envelopeMove_up_vol hd
  | false => exact envelopeMove_down_vol hd

/-- The generator stops at the bound, where a step leaves the volume (R182). -/
theorem envelopeMove_eper (x : Channel) : (envelopeMove x).eper =
    if volAfter x.edir x.vol.toNat 1 = x.vol.toNat then 0#8 else x.eper := by
  have hlt := x.vol.isLt
  have hbound : volAfter x.edir x.vol.toNat 1 = x.vol.toNat ↔
      x.vol.toNat = if x.edir then 15 else 0 := by
    unfold volAfter
    split_ifs <;> omega
  rw [if_congr hbound rfl rfl]
  cases hd : x.edir with
  | true =>
    rw [envelopeMove, if_pos hd]
    exact apply_ite Channel.eper ..
  | false =>
    rw [envelopeMove, if_neg (by simp [hd])]
    exact apply_ite Channel.eper ..

/-- At the end of a period off the bound the volume moves and the generator goes on (R181). -/
theorem envelopeStep_of_move (h : x.eper ≠ 0#8) (hend : x.ectr.toNat + 1 = x.eper.toNat)
    (hmove : volAfter x.edir x.vol.toNat 1 ≠ x.vol.toNat) :
    (envelopeStep x).vol.toNat = volAfter x.edir x.vol.toNat 1 ∧ (envelopeStep x).eper = x.eper := by
  rw [envelopeStep_of_over h hend]
  exact ⟨envelopeMove_vol _, (envelopeMove_eper _).trans (if_neg hmove)⟩

/-- At the end of a period at the bound the volume stays and the generator stops (R182). -/
theorem envelopeStep_of_stop (h : x.eper ≠ 0#8) (hend : x.ectr.toNat + 1 = x.eper.toNat)
    (hstop : volAfter x.edir x.vol.toNat 1 = x.vol.toNat) :
    (envelopeStep x).vol = x.vol ∧ (envelopeStep x).eper = 0#8 := by
  rw [envelopeStep_of_over h hend]
  exact ⟨BitVec.eq_of_toNat_eq ((envelopeMove_vol _).trans hstop),
    (envelopeMove_eper _).trans (if_pos hstop)⟩

theorem envelopeStep_ectr_of_over (h : x.eper ≠ 0#8) (hend : x.ectr.toNat + 1 = x.eper.toNat) :
    (envelopeStep x).ectr = 0#8 := by
  rw [envelopeStep_of_over h hend, envelopeMove_ectr]

end envelopeStep

/-- Settles O46: an effect step of any code does to the envelope what `envelopeStep` does, which stands, counts or, at
the period, moves the volume (`envelopeStep_of_move`) or stops (`envelopeStep_of_stop`). -/
theorem envelopeGenerator : Obligations.EnvelopeGenerator := by
  intro c x hlt
  refine ⟨_, rfl, effectStep_edir c x, ?_⟩
  simp only [effectStep_vol, effectStep_eper, effectStep_ectr]
  refine ⟨fun h0 => ?_, fun h0 hne => envelopeStep_of_counting (hlt h0) hne, fun h0 hend =>
    ⟨envelopeStep_ectr_of_over h0 hend, fun hd hv => ?_, fun hd hv => ?_, fun hd hv => ?_, fun hd hv => ?_⟩⟩
  · rw [envelopeStep_of_stopped h0]
    exact ⟨rfl, rfl, rfl⟩
  · exact envelopeStep_of_stop h0 hend (by simp [volAfter, hd, hv])
  · have hup : volAfter x.edir x.vol.toNat 1 = x.vol.toNat + 1 := by
      have hv15 := x.vol.isLt
      rw [volAfter, if_pos hd]
      omega
    obtain ⟨hvol, hper⟩ := envelopeStep_of_move h0 hend (by omega)
    exact ⟨hvol.trans hup, hper⟩
  · exact envelopeStep_of_stop h0 hend (by simp [volAfter, hd, hv])
  · have hdown : volAfter x.edir x.vol.toNat 1 = x.vol.toNat - 1 := by simp [volAfter, hd]
    obtain ⟨hvol, hper⟩ := envelopeStep_of_move h0 hend (by omega)
    exact ⟨by omega, hper⟩

/-! ### The closed form of the envelope -/

theorem volAfter_zero {up : Bool} {v : Nat} (hv : v ≤ 15) : volAfter up v 0 = v := by
  unfold volAfter
  split <;> omega

theorem volAfter_succ (up : Bool) (v m : Nat) :
    volAfter up v (m + 1) = volAfter up (volAfter up v 1) m := by
  unfold volAfter
  split_ifs <;> omega

/-- A volume that a step leaves is at its bound for good. -/
theorem volAfter_of_stop {up : Bool} {v : Nat} (hv : v ≤ 15) (hstop : volAfter up v 1 = v) (m : Nat) :
    volAfter up v m = v := by
  unfold volAfter at *
  split_ifs at * <;> omega

theorem effectSteps_vol_of_stopped (c : Chan) {x : Channel} (h : x.eper = 0#8) (k : Nat) :
    (effectSteps c k x).vol = x.vol := by
  induction k generalizing x with
  | zero => rfl
  | succ k ih =>
    have hstep : envelopeStep x = x := envelopeStep_of_stopped h
    rw [effectSteps, ih (by rw [effectStep_eper, hstep, h]), effectStep_vol, hstep]

/-- The closed form from any phase of the envelope: the volume moves once per period that ends. -/
theorem effectSteps_vol (c : Chan) (k : Nat) {x : Channel} (hlt : x.ectr.toNat < x.eper.toNat) :
    (effectSteps c k x).vol.toNat =
      volAfter x.edir x.vol.toNat ((x.ectr.toNat + k) / x.eper.toNat) := by
  induction k generalizing x with
  | zero =>
    rw [Nat.add_zero, Nat.div_eq_of_lt hlt, volAfter_zero (Nat.le_of_lt_succ x.vol.isLt)]
    rfl
  | succ k ih =>
    have h0 : x.eper ≠ 0#8 := by bv_omega
    rw [effectSteps]
    by_cases hend : x.ectr.toNat + 1 = x.eper.toNat
    · rw [periods_of_last hend]
      by_cases hstop : volAfter x.edir x.vol.toNat 1 = x.vol.toNat
      · obtain ⟨hvol, hper⟩ := envelopeStep_of_stop h0 hend hstop
        rw [effectSteps_vol_of_stopped c (by rw [effectStep_eper, hper]), effectStep_vol, hvol,
          volAfter_of_stop (Nat.le_of_lt_succ x.vol.isLt) hstop]
      · obtain ⟨hvol, hper⟩ := envelopeStep_of_move h0 hend hstop
        have hctr := envelopeStep_ectr_of_over h0 hend
        have hnext := ih (x := effectStep c x) (by
          rw [effectStep_ectr, effectStep_eper, hctr, hper]
          exact toNat_pos_of_ne_zero h0)
        rw [effectStep_edir, effectStep_vol, effectStep_ectr, effectStep_eper, hvol, hctr, hper] at hnext
        rw [hnext, volAfter_succ _ _ (k / _), BitVec.toNat_zero, Nat.zero_add]
    · obtain ⟨hvol, hper, hctr⟩ := envelopeStep_of_counting hlt hend
      have hnext := ih (x := effectStep c x) (by
        rw [effectStep_ectr, effectStep_eper, hctr, hper]
        omega)
      rw [effectStep_edir, effectStep_vol, effectStep_ectr, effectStep_eper, hvol, hctr, hper] at hnext
      rw [hnext, Nat.succ_add_eq_add_succ]

/-- Settles O47: `effectSteps_vol` from phase 0, in each direction. -/
theorem envelopeClosedForm : Obligations.EnvelopeClosedForm := by
  intro c x k hctr hper
  have hvol := effectSteps_vol c k (x := x) (by rw [hctr]; exact hper)
  rw [hctr, BitVec.toNat_zero, Nat.zero_add] at hvol
  refine ⟨fun hd => ?_, fun hd => ?_⟩ <;> rw [hvol, hd] <;> rfl

/-! ### The slide law -/

section slideLaw

variable {c : Chan} {x : Channel} {f : BitVec 4}

/-- `k + 1` steps of a slide whose step moves the pitch by `g`: if moving by `d` and then by `e` is moving by their
sum, the steps are one move by all their deltas, and the output follows the pitch. -/
theorem effectSteps_slide {g : Nat → Nat → Nat} (hadd : ∀ v d e, g (g v d) e = g v (d + e))
    (hstep : ∀ y : Channel, y.fx = f → (effectStep c y).pitch.toNat = g y.pitch.toNat y.fxp.toNat ∧
      (effectStep c y).fout = (effectStep c y).pitch) (h : x.fx = f) (k : Nat) :
    (effectSteps c (k + 1) x).pitch.toNat = g x.pitch.toNat ((k + 1) * x.fxp.toNat) ∧
      (effectSteps c (k + 1) x).fout = (effectSteps c (k + 1) x).pitch := by
  induction k generalizing x with
  | zero =>
    rw [Nat.zero_add, Nat.one_mul]
    exact hstep x h
  | succ k ih =>
    obtain ⟨hpitch, hfout⟩ := ih (x := effectStep c x) ((effectStep_fx c x).trans h)
    obtain ⟨hfirst, -⟩ := hstep x h
    refine ⟨?_, hfout⟩
    rw [effectSteps, hpitch, hfirst, effectStep_fxp, hadd, Nat.add_comm, ← Nat.succ_mul]

/-- Clamping every step of SLU at the bound is clamping once. -/
theorem effectSteps_slu (h : x.fx = 1#4) (k : Nat) :
    (effectSteps c (k + 1) x).pitch.toNat = min (x.pitch.toNat + (k + 1) * x.fxp.toNat) (pMax c) ∧
      (effectSteps c (k + 1) x).fout = (effectSteps c (k + 1) x).pitch := by
  refine effectSteps_slide (g := fun v d => min (v + d) (pMax c)) (fun v d e => by omega)
    (fun y hy => ?_) h k
  rw [effectStep_slu hy]
  exact ⟨slideUp_toNat .., rfl⟩

/-- Stopping every step of SLD at 0 is stopping once. -/
theorem effectSteps_sld (h : x.fx = 2#4) (k : Nat) :
    (effectSteps c (k + 1) x).pitch.toNat = x.pitch.toNat - (k + 1) * x.fxp.toNat ∧
      (effectSteps c (k + 1) x).fout = (effectSteps c (k + 1) x).pitch := by
  refine effectSteps_slide (g := fun v d => v - d) (fun v d e => by omega) (fun y hy => ?_) h k
  rw [effectStep_sld hy]
  exact ⟨slideDown_toNat .., rfl⟩

end slideLaw

/-- Settles O48: the loading tick is the first of `k + 1` steps from `afterLoad` (`ch_of_exec_cell`), which
`effectSteps_slu` and `effectSteps_sld` count. -/
theorem slideLaw : Obligations.SlideLaw := by
  intro c n i p s t k
  refine ⟨fun ht => ?_, fun ht => ?_⟩
  · rw [ch_of_exec_cell (f := 1#4) ht (by decide)]
    exact effectSteps_slu (x := afterLoad c n i 1#4 p s) rfl k
  · rw [ch_of_exec_cell (f := 2#4) ht (by decide)]
    exact effectSteps_sld (x := afterLoad c n i 2#4 p s) rfl k

/-! ### The modular counters -/

section periodic

variable {c : Chan} {x : Channel}

theorem effectSteps_astep (h : x.fx = 3#4) (k : Nat) :
    (effectSteps c k x).astep.val = (x.astep.val + k) % 3 := by
  induction k generalizing x with
  | zero => exact (Nat.mod_eq_of_lt x.astep.isLt).symm
  | succ k ih =>
    have hstep : (effectStep c x).astep.val = (x.astep.val + 1) % 3 := by
      rw [effectStep_arp h]
      exact arpNext_val x.astep
    rw [effectSteps, ih ((effectStep_fx c x).trans h), hstep]
    omega

theorem effectSteps_vphase (h : x.fx = 4#4) (k : Nat) :
    (effectSteps c k x).vphase.toNat = (x.vphase.toNat + k * (x.fxp.toNat / 16)) % 64 := by
  induction k generalizing x with
  | zero => rw [Nat.zero_mul]; exact (Nat.mod_eq_of_lt x.vphase.isLt).symm
  | succ k ih =>
    rw [effectSteps, ih ((effectStep_fx c x).trans h), effectStep_vib_vphase h, effectStep_fxp,
      Nat.mod_add_mod, Nat.succ_mul]
    omega

/-- The duty from any phase of its counter: one step per period that ends. -/
theorem effectSteps_shape (h : x.fx = 7#4) (hc : isPulse c = true) (hlt : x.dctr.toNat < x.fxp.toNat)
    (hshape : x.shape.toNat ≤ 3) (k : Nat) : (effectSteps c k x).shape.toNat =
      (x.shape.toNat + (x.dctr.toNat + k) / x.fxp.toNat) % 4 := by
  induction k generalizing x with
  | zero =>
    rw [Nat.add_zero, Nat.div_eq_of_lt hlt]
    exact (Nat.mod_eq_of_lt (Nat.lt_succ_of_le hshape)).symm
  | succ k ih =>
    have hp : x.fxp ≠ 0#8 := by bv_omega
    have hfx := (effectStep_fx c x).trans h
    rw [effectSteps]
    by_cases hend : x.dctr.toNat + 1 = x.fxp.toNat
    · obtain ⟨hctr, hnext⟩ := effectStep_dcy_wrap h hc hp hend
      rw [ih hfx (by rw [hctr, effectStep_fxp]; exact toNat_pos_of_ne_zero hp) (by omega), hnext, hctr,
        effectStep_fxp, periods_of_last hend, BitVec.toNat_zero, Nat.zero_add]
      omega
    · obtain ⟨hctr, hnext⟩ := effectStep_dcy_count h hc hp hend
      have hone := toNat_add_one_of_lt hlt
      rw [ih hfx (by rw [hctr, effectStep_fxp]; omega) (by rw [hnext]; exact hshape), hnext, hctr,
        effectStep_fxp, hone, Nat.succ_add_eq_add_succ]

end periodic

/-- Settles O49: each counter's closed form from any phase, taken at phase 0. -/
theorem periodicEffects : Obligations.PeriodicEffects := by
  intro c x k
  refine ⟨fun h h0 => ?_, fun h h0 => ?_, fun h h0 hc hp hshape => ?_⟩
  · rw [effectSteps_astep h, h0, Fin.val_zero, Nat.zero_add]
  · rw [effectSteps_vphase h, h0]
    exact congrArg (· % 64) (Nat.zero_add _)
  · rw [effectSteps_shape h hc (by rw [h0]; exact toNat_pos_of_ne_zero hp) hshape, h0]
    exact congrArg (fun m => (x.shape.toNat + m / x.fxp.toNat) % 4) (Nat.zero_add k)

end Sys2Proof.Machine
end

section
/-! Proofs of the statements about the hold latch (43_commit.md R211, R212, R219): what one commit does to it, and
what a TICK does to a channel that is held when its commit writes. -/

namespace Sys2Proof.Machine

/-! ### One commit -/

@[simp] theorem sampleTraceOf_commitEvents (c : Chan) (s : State) (bs : List Byte) :
    sampleTraceOf (commitEvents c s bs) = [(c, (sampledMask c s).getLsbD (chanIndex c))] := by
  unfold commitEvents
  split <;> simp [sampleTraceOf]

/-- A write set is never empty: `SHAPE` is always in it (R213). -/
theorem sinkTraceOf_writeEvents_ne_nil (c : Chan) (x : Channel) :
    sinkTraceOf (writeEvents c x) ≠ [] := List.cons_ne_nil _ _

/-- A commit writes exactly when the latch is 0 after its sample (R211, R213). -/
theorem sinkTraceOf_commitEvents_eq_nil_iff {c : Chan} {s : State} {bs : List Byte} :
    sinkTraceOf (commitEvents c s bs) = [] ↔ latched c s = true := by
  rw [sinkTraceOf_commitEvents]
  cases latched c s with
  | true => simp
  | false => simp [sinkTraceOf_writeEvents_ne_nil]

/-- Settles O26: a commit samples once (`sampleTraceOf_commitEvents`), the latch is `holdAfter` of that sample, and
only a latch of 1 leaves the commit without writes (`sinkTraceOf_commitEvents_eq_nil_iff`). -/
theorem holdLatch : Obligations.HoldLatch := by
  intro c s t h
  obtain ⟨bs, -, rfl⟩ := commit_iff.1 h
  have hhold : ((s.afterCommit c bs).ch c).hold = latched c s := by rw [ch_afterCommit_same]
  refine ⟨_, _, afterCommit_bus .., sampleTraceOf_commitEvents .., ?_⟩
  rw [hhold, sinkTraceOf_commitEvents_eq_nil_iff]
  refine ⟨fun hm => ?_, fun hm ho => ?_, fun hm ho => ?_, Iff.rfl⟩
  · rw [latched, hm]
    rfl
  · rw [latched, hm, ho]
    rfl
  · rw [latched, hm, ho]
    rfl

/-! ### The writes of one channel in a TICK -/

/-- A TICK samples every channel once, in order, and writes to a channel's registers in its commit only. -/
theorem tick_record {s u : State} (hu : countTick s = .next u) (bs : List Byte) :
    ∃ es, (u.afterEffects bs).bus = s.bus ++ es ∧
      sampleTraceOf es = [Chan.ch1, .ch2, .ch3, .ch4].map (fun c => (c, sampledBit c s)) ∧
      ∀ c, writesOf c (sinkTraceOf es) = writesOf c (sinkTraceOf (passEvents c u.afterStep3 bs)) := by
  have hf := countTick_frame hu
  have hbit : ∀ c, sampledBit c u.afterStep3 = sampledBit c s := sampledBit_congr hf.mid hf.mute
  obtain ⟨offs, hbus, -⟩ := countTick_bus hu
  refine ⟨offs.map .blobRead ++ passRecord u.afterStep3 bs, ?_, ?_, fun c => ?_⟩
  · rw [afterEffects_record, hbus, List.append_assoc]
  · simp [passRecord, hbit]
  · rw [sinkTraceOf_append, sinkTraceOf_map_blobRead, List.nil_append, writesOf_passRecord]

theorem writesOf_passEvents_of_hold {c : Chan} {s : State} (h : passHold c s = true) (bs : List Byte) :
    writesOf c (sinkTraceOf (passEvents c s bs)) = [] := by
  rw [sinkTraceOf_passEvents, if_pos h, writesOf_nil]

theorem ch_afterEffects_eq (s : State) (c : Chan) (bs : List Byte) :
    (s.afterEffects bs).ch c = passCh c s.afterStep3 := ch_afterPass ..

/-- A sink register keeps its value through a trace without a write of its channel (R67). -/
theorem lastWritten_append_of_writesOf_nil {c : Chan} {n : Nat} {l : List (Nat × BitVec 11)}
    (hn : ownsSinkReg c n = true) (h : writesOf c l = []) (w : List (Nat × BitVec 11)) :
    lastWritten n (w ++ l) = lastWritten n w := by
  have hnone : lastWritten n l = none := lastWritten_eq_none fun x hx hxn =>
    List.filter_eq_nil_iff.1 h x hx (hxn ▸ hn)
  rw [lastWritten_append, hnone, Option.none_or]

theorem passHold_of_sampled {c : Chan} {s : State} (h : sampledBit c s = true) : passHold c s = true := by
  rw [passHold, h]
  rfl

/-- Settles O29: the sample sets the latch (`passHold_of_sampled`), so the channel's commit writes nothing. -/
theorem mutedChannelSilent : Obligations.MutedChannelSilent := by
  intro s t c ht
  rcases execTick_iff.1 ht with ⟨-, rfl⟩ | ⟨-, u, bs, hu, -, rfl⟩
  · exact ⟨[], (List.append_nil _).symm, fun hm => nomatch hm⟩
  · obtain ⟨es, hbus, hsamples, hwrites⟩ := tick_record hu bs
    refine ⟨es, hbus, fun hm => ?_⟩
    have hbit : sampledBit c s = true := by
      rw [hsamples] at hm
      obtain ⟨d, -, hd⟩ := List.mem_map.1 hm
      obtain ⟨rfl, hbit⟩ := Prod.mk.inj hd
      exact hbit
    have hf := countTick_frame hu
    have hhold : passHold c u.afterStep3 = true :=
      passHold_of_sampled ((sampledBit_congr hf.mid hf.mute c).trans hbit)
    have hsilent : writesOf c (sinkTraceOf es) = [] :=
      (hwrites c).trans (writesOf_passEvents_of_hold hhold bs)
    refine ⟨?_, hsilent, fun n hn => ?_⟩
    · rw [ch_afterEffects_eq]
      exact hhold
    · rw [hbus, sinkTraceOf_append, lastWritten_append_of_writesOf_nil hn hsilent]

/-! ### A TICK that triggers no note -/

/-- A trigger without a valid note leaves the onset and the latch alone (R99, R165). -/
theorem triggerCh_of_noNote {c : Chan} {n : Byte} {i f : BitVec 4} {p : Byte} {s : State} {x : Channel}
    (hn : hasNote n = false) (hx : triggerCh c n i f p s = some x) :
    x.onset = (s.ch c).onset ∧ x.hold = (s.ch c).hold := by
  rcases triggerCh_eq_some hx with ⟨-, rfl⟩ | ⟨-, rfl⟩
  · exact ⟨rfl, rfl⟩
  · rw [fxLoad_onset, fxLoad_hold]
    simp [afterNote, hn]

/-- The note byte of the cell that a row fetch takes at a row boundary is `nextNoteByte` (R137, R138). -/
theorem nextNoteByte_eq {c : Chan} {s : State} {e : Byte} {b : Byte × Byte × Byte}
    (he : Memory.read (rowBoundary s).mem ((rowBoundary s).base + (ordBase + (rowBoundary s).ord.toNat)) =
      some e)
    (hb : CellAt (rowBoundary s) (cellAddr (rowBoundary s) (clampPattern e (rowBoundary s))
      (rowBoundary s).row.toNat c) b) :
    nextNoteByte c s = some b.1 := by
  have hclamp : clampPattern e (rowBoundary s) = clampPattern e s := by simp [clampPattern]
  have haddr : ∀ p r, cellAddr (rowBoundary s) p r c = cellAddr s p r c := by simp [cellAddr]
  obtain ⟨hnote, -, -⟩ := hb
  rw [rowBoundary_mem, rowBoundary_base] at he hnote
  rw [hclamp, haddr] at hnote
  unfold nextNoteByte
  rw [he]
  exact hnote

/-- Steps 1 and 2 of a TICK leave the onset and the latch of a channel alone, unless its cell has a valid note. -/
theorem countTick_of_noNote {c : Chan} {s u : State} (hu : countTick s = .next u)
    (hnote : s.tctr = 1#8 → ∀ b, nextNoteByte c s = some b → hasNote b = false) :
    (u.ch c).onset = (s.ch c).onset ∧ (u.ch c).hold = (s.ch c).hold := by
  rcases countTick_iff.1 hu with ⟨-, rfl⟩ | ⟨hlast, hfetch⟩
  · rw [ch_with_tctr]
    exact ⟨rfl, rfl⟩
  · obtain ⟨e, b, x, he, hb, hx, rfl⟩ := fetchRow_iff.1 hfetch
    rw [withChs_ch, ← rowBoundary_ch]
    exact triggerCh_of_noNote (hnote hlast _ (nextNoteByte_eq he (hb c))) (hx c)

/-- A TICK between rows reads nothing and so completes; at a row boundary it needs the blob. -/
theorem tick_completes_of_boundary {s : State} (h : BlockInv s) (hrun : s.run = true)
    (hblob : s.tctr = 1#8 → BlobReadable s) : Completes (exec .tick s) := by
  by_cases hlast : s.tctr = 1#8
  · exact tick_completes h fun _ => hblob hlast
  · obtain ⟨x, es, -, ht, -⟩ := tickBetweenRows s h hrun hlast
    exact ⟨_, ht⟩

/-- Settles O30: without a note the channel reaches its commit held and without an onset
(`countTick_of_noNote`), so the latch stays whatever is sampled. -/
theorem unmuteWaitsForNote : Obligations.UnmuteWaitsForNote := by
  intro s c h hrun hhold hboundary
  obtain ⟨t, ht⟩ := tick_completes_of_boundary h hrun fun hlast => (hboundary hlast).1
  obtain ⟨u, bs, hu, -, rfl⟩ := tick_playing hrun ht
  obtain ⟨es, hbus, -, hwrites⟩ := tick_record hu bs
  obtain ⟨honset, hkept⟩ := countTick_of_noNote (c := c) hu fun hlast b hb =>
    decide_eq_false (Nat.not_le.2 ((hboundary hlast).2 b hb))
  have hch : u.afterStep3.ch c = effectStep c (u.ch c) := withChs_ch ..
  have hstays : passHold c u.afterStep3 = true := by
    rw [passHold_of_idle (by rw [hch, effectStep_onset, honset, h.idle]), hch, effectStep_hold, hkept, hhold,
      Bool.or_true]
  refine ⟨_, es, ht, hbus, ?_, (hwrites c).trans (writesOf_passEvents_of_hold hstays bs)⟩
  rw [ch_afterEffects_eq]
  exact hstays

end Sys2Proof.Machine
end

section
/-! Proof of the statement that channels do not influence each other (43_commit.md R219): the row fetch and the commit
of a channel look at its own registers and at what no other channel writes. -/

namespace Sys2Proof.Machine

/-! ### The row fetch -/

theorem rowBoundary_setCh (s : State) (d : Chan) (x : Channel) :
    rowBoundary (s.setCh d x) = (rowBoundary s).setCh d x := by
  unfold rowBoundary advancePosition
  simp only [apply_ite (State.setCh · d x)]
  cases d <;> rfl

/-- The bytes of a cell are those of the memory (R138). -/
theorem CellAt.unique {s : State} {a : Nat} {b b' : Byte × Byte × Byte} (h : CellAt s a b)
    (h' : CellAt s a b') : b' = b := by
  obtain ⟨h0, h1, h2⟩ := h
  obtain ⟨h0', h1', h2'⟩ := h'
  rw [h0] at h0'
  rw [h1] at h1'
  rw [h2] at h2'
  exact Prod.ext (Option.some.inj h0').symm
    (Prod.ext (Option.some.inj h1').symm (Option.some.inj h2').symm)

theorem triggerBytesCh_setCh {c d : Chan} (h : c ≠ d) (b : Byte × Byte × Byte) (s : State) (x : Channel) :
    triggerBytesCh c b (s.setCh d x) = triggerBytesCh c b s := by
  have hch := ch_setCh_ne s d c x h
  refine triggerCh_congr hch (setCh_ninstr ..) fun k _ => ?_
  rw [defaultsOffset_congr hch (setCh_ninstr ..) (setCh_ordlen ..), setCh_mem, setCh_base]

/-- A row fetch leaves a channel the same, whatever the registers of another were (R138, R171). -/
theorem fetchRow_setCh_ch {c d : Chan} (h : c ≠ d) {s u u' : State} {x : Channel}
    (hu : fetchRow s = .next u) (hu' : fetchRow (s.setCh d x) = .next u') : u'.ch c = u.ch c := by
  obtain ⟨e, b, y, he, hb, hy, rfl⟩ := fetchRow_iff.1 hu
  obtain ⟨e', b', y', he', hb', hy', rfl⟩ := fetchRow_iff.1 hu'
  rw [setCh_mem, setCh_base, setCh_ord, he] at he'
  obtain rfl := Option.some.inj he'
  have haddr : cellAddr (s.setCh d x) (clampPattern e (s.setCh d x)) (s.setCh d x).row.toNat c =
      cellAddr s (clampPattern e s) s.row.toNat c := by
    simp [cellAddr, clampPattern, patBase, wavBase]
  have hcell := hb' c
  rw [haddr, CellAt, setCh_mem, setCh_base] at hcell
  have hbytes : b' c = b c := (hb c).unique hcell
  have hy'c := hy' c
  rw [hbytes, triggerBytesCh_setCh h, hy c] at hy'c
  rw [withChs_ch, withChs_ch]
  exact (Option.some.inj hy'c).symm

theorem countTick_setCh_ch {c d : Chan} (h : c ≠ d) {s u u' : State} {x : Channel}
    (hu : countTick s = .next u) (hu' : countTick (s.setCh d x) = .next u') : u'.ch c = u.ch c := by
  rw [countTick_iff, setCh_tctr, rowBoundary_setCh] at hu'
  rcases countTick_iff.1 hu with ⟨hne, rfl⟩ | ⟨hlast, hf⟩
  · obtain ⟨-, rfl⟩ := hu'.resolve_right fun hb => hne hb.1
    exact (ch_with_tctr ..).trans ((ch_setCh_ne _ _ _ _ h).trans (ch_with_tctr ..).symm)
  · obtain ⟨-, hf'⟩ := hu'.resolve_left fun hb => hb.1 hlast
    exact fetchRow_setCh_ch h hf hf'

/-! ### The commit -/

/-- The two states hold the same in all that the commit of channel `c` looks at (R210 to R217). -/
structure SameForCommit (c : Chan) (s s' : State) : Prop where
  ch : s'.ch c = s.ch c
  base : s'.base = s.base
  ordlen : s'.ordlen = s.ordlen
  ninstr : s'.ninstr = s.ninstr
  nwave : s'.nwave = s.nwave
  mute : s'.mute = s.mute
  lwid : s'.lwid = s.lwid
  mem : s'.mem = s.mem
  mid : s'.mid = s.mid

namespace SameForCommit

variable {c : Chan} {s s' : State}

theorem passHold_eq (h : SameForCommit c s s') : passHold c s' = passHold c s := by
  rw [passHold, sampledBit_congr h.mid h.mute, h.ch, passHold]

theorem passCh_eq (h : SameForCommit c s s') : passCh c s' = passCh c s := by
  rw [passCh, h.passHold_eq, h.ch, passCh]

theorem passMask_eq (h : SameForCommit c s s') : passMask c s' = passMask c s := by
  unfold passMask
  rw [h.mid, h.mute]

theorem wavBase_eq (h : SameForCommit c s s') : wavBase s' = wavBase s := by
  unfold wavBase insBase
  rw [h.ordlen, h.ninstr]

theorem passLoads_eq (h : SameForCommit .ch3 s s') : passLoads s' = passLoads s := by
  have hch3 : s'.ch3 = s.ch3 := h.ch
  rw [passLoads, h.passHold_eq, waveNeeded, hch3, h.nwave, h.lwid, passLoads, waveNeeded]

theorem passBytes_iff (h : SameForCommit .ch3 s s') {bs : List Byte} :
    PassBytes s' bs ↔ PassBytes s bs := by
  have hch3 : s'.ch3 = s.ch3 := h.ch
  rw [PassBytes, h.passLoads_eq, h.mem, h.base, h.wavBase_eq, hch3, PassBytes]

end SameForCommit

/-- The bytes a waveform load reads are those of the memory (R217). -/
theorem PassBytes.unique {s : State} {bs bs' : List Byte} (h : PassBytes s bs) (h' : PassBytes s bs') :
    bs' = bs := by
  unfold PassBytes at h h'
  split at h
  · next hload =>
    rw [if_pos hload] at h'
    obtain ⟨hlen, hread⟩ := h
    obtain ⟨hlen', hread'⟩ := h'
    refine List.ext_getElem? fun j => ?_
    by_cases hj : j < 16
    · rw [← hread j hj, ← hread' j hj]
    · rw [List.getElem?_eq_none (by omega), List.getElem?_eq_none (by omega)]
  · next hload =>
    rw [if_neg hload] at h'
    rw [h, h']

/-- The commit of a channel adds the same events to both records. -/
theorem SameForCommit.passEvents_eq {c : Chan} {s s' : State} (h : SameForCommit c s s')
    {bs bs' : List Byte} (hbs : PassBytes s bs) (hbs' : PassBytes s' bs') :
    passEvents c s' bs' = passEvents c s bs := by
  have hwave : (if c = .ch3 then waveEvents (wavBase s' + 16 * s'.ch3.shape.toNat) 0 bs' else []) =
      if c = .ch3 then waveEvents (wavBase s + 16 * s.ch3.shape.toNat) 0 bs else [] := by
    by_cases hc : c = .ch3
    · subst hc
      have hch3 : s'.ch3 = s.ch3 := h.ch
      rw [h.wavBase_eq, hch3, hbs.unique (h.passBytes_iff.1 hbs')]
    · rw [if_neg hc, if_neg hc]
  rw [passEvents, hwave, h.passHold_eq, h.ch, h.passMask_eq, sampledBit_congr h.mid h.mute, h.mid,
    passEvents]

/-- Steps 1 to 3 of two TICKs that differ in another channel bring the commit of `c` to the same state, as far as
it looks, once the channel itself is the same after steps 1 and 2. -/
theorem CountFrame.sameForCommit {c d : Chan} {s u u' : State} {x : Channel} (h : CountFrame s u)
    (h' : CountFrame (s.setCh d x) u') (hch : u'.ch c = u.ch c) :
    SameForCommit c u.afterStep3 u'.afterStep3 where
  ch := by rw [State.afterStep3, State.afterStep3, withChs_ch, withChs_ch, hch]
  base := h'.base.trans ((setCh_base ..).trans h.base.symm)
  ordlen := h'.ordlen.trans ((setCh_ordlen ..).trans h.ordlen.symm)
  ninstr := h'.ninstr.trans ((setCh_ninstr ..).trans h.ninstr.symm)
  nwave := h'.nwave.trans ((setCh_nwave ..).trans h.nwave.symm)
  mute := h'.mute.trans ((setCh_mute ..).trans h.mute.symm)
  lwid := h'.lwid.trans ((setCh_lwid ..).trans h.lwid.symm)
  mem := h'.mem.trans ((setCh_mem ..).trans h.mem.symm)
  mid := h'.mid.trans ((setCh_mid ..).trans h.mid.symm)

/-- Settles O33: the channel reaches its commit the same (`countTick_setCh_ch`), the commit adds the same events
(`SameForCommit.passEvents_eq`), and no other commit writes the channel's registers (`tick_record`). -/
theorem channelsIndependent : Obligations.ChannelsIndependent := by
  intro s t t' c d x hcd ht ht'
  rcases execTick_iff.1 ht with ⟨hstop, rfl⟩ | ⟨hrun, u, bs, hu, hbs, rfl⟩
  · rcases execTick_iff.1 ht' with ⟨-, rfl⟩ | ⟨hrun', -⟩
    · refine ⟨[], [], (List.append_nil _).symm, ?_, rfl, (ch_setCh_ne _ _ _ _ hcd).symm⟩
      rw [setCh_bus, List.append_nil]
    · exact absurd (hstop.symm.trans ((setCh_run ..).symm.trans hrun')) (by decide)
  · obtain ⟨u', bs', hu', hbs', rfl⟩ := tick_playing ((setCh_run ..).trans hrun) ht'
    have hsame : SameForCommit c u.afterStep3 u'.afterStep3 :=
      (countTick_frame hu).sameForCommit (countTick_frame hu') (countTick_setCh_ch hcd hu hu')
    obtain ⟨es, hbus, -, hwrites⟩ := tick_record hu bs
    obtain ⟨es', hbus', -, hwrites'⟩ := tick_record hu' bs'
    rw [setCh_bus] at hbus'
    refine ⟨es, es', hbus, hbus', ?_, ?_⟩
    · rw [hwrites, hwrites', hsame.passEvents_eq hbs hbs']
    · rw [ch_afterEffects_eq, ch_afterEffects_eq, hsame.passCh_eq]

end Sys2Proof.Machine
end
